-- ==== Sys2Proof/Word.lean ====
section
/-! DEFINITION. Word.lean: the word types and the value types that travel between the sub-blocks and the host
(spec/10_state.md R27 to R30, spec/40_value24.md R80, spec/00_scope.md R10, R12). Data only: every function on
these values stands in a file of Machine/. -/

namespace Sys2Proof

/-- One byte, `bits(8)` (R10). -/
abbrev Byte := BitVec 8

/-- A device register address: `ADDR_BITS` = 5 bits (R7, R36). -/
abbrev Addr := BitVec 5

/-- A status view: the raw 16-bit status word at the moment it was read (R30). -/
abbrev StatusView := BitVec 16

/-- `Ctrl1`, `Ctrl2`, `Ctrl5` are `bits(8)` used as flag sets (R30). -/
abbrev Ctrl := BitVec 8

/-- The mode tag (R14, R27): what the block believes, never what the chip reports. -/
inductive Mode where
  | standby
  | sleep
  | conversion
deriving DecidableEq, Repr

/-- The decoded power-state field of the status word (R27); the fourth code has no value here. -/
inductive PowerState where
  | conversion
  | powerDown
  | standby
deriving DecidableEq, Repr

/-- The sixteen conversion rates `RATE_0` to `RATE_15` (R28). -/
inductive Rate where
  | rate0 | rate1 | rate2 | rate3 | rate4 | rate5 | rate6 | rate7
  | rate8 | rate9 | rate10 | rate11 | rate12 | rate13 | rate14 | rate15
deriving DecidableEq, Repr

/-- `ClockSource` of R29. -/
inductive ClockSource where
  | internalClock
  | externalClock
deriving DecidableEq, Repr

/-- `Format` of R29: how signed conversion results are represented. -/
inductive DataFormat where
  | twosComplement
  | offsetBinary
deriving DecidableEq, Repr

/-- `Gain` of R29. -/
inductive Gain where
  | x1 | x2 | x4 | x8 | x16 | x32 | x64 | x128
deriving DecidableEq, Repr

/-- `CalKind` of R29. -/
inductive CalKind where
  | selfCal
  | systemOffset
  | systemFullScale
deriving DecidableEq, Repr

/-- `Value24` (R30, R80): three bytes, `b0` the most significant, kept as bytes and never as a native word. -/
structure Value24 where
  b0 : Byte
  b1 : Byte
  b2 : Byte
deriving DecidableEq, Repr

/-- The transport's own error value (R7, R40 (c)): the block never inspects it. The token is a number only so that
errors can be compared and written down (DESIGN CHOICE, log entry 6; safe). -/
structure TransportError where
  token : Nat
deriving DecidableEq, Repr, Inhabited

/-- The result of a transport call: `Ok` with what was received, or `Err(e)` (R38, R39). -/
inductive Answer (α : Type) where
  | ok (a : α)
  | err (e : TransportError)
deriving DecidableEq, Repr, Inhabited

/-- The bytes that come back on the wire during one frame of at most five bytes (R18, R39): byte `i` arrives while
byte `i` of the frame is sent. A frame of `k` bytes receives the first `k` of them, so that every answer has the
length R56 asks for. -/
structure Received where
  r0 : Byte
  r1 : Byte
  r2 : Byte
  r3 : Byte
  r4 : Byte
deriving DecidableEq, Repr, Inhabited

end Sys2Proof
end

