-- ==== Sys2Proof/Config.lean ====
section
/-! DEFINITION. Config.lean: the parameter record `Cfg` (spec/00_scope.md R7) and the model's free values. The
defaults and the well-formedness check R8 are in Machine/Defaults.lean. A state carries its `Cfg`, so that a
statement about every state is a statement about every `Cfg` (DESIGN CHOICE, log entry 1; safe). -/

namespace Sys2Proof

/-- The parameters of R7, one field each, in the table's order. `ADDR_BITS` is fixed at 5 by the command byte
format R62 (`Addr`), and `TransportError` is the type of that name. A bit index is a `Fin` whose bound is the range
the table's type column gives. -/
structure Cfg where
  addrTop : Addr
  cmdPd : Byte
  cmdCal : Byte
  aStat : Addr
  aCtrl1 : Addr
  aCtrl2 : Addr
  aCtrl5 : Addr
  aData : Addr
  aSoc : Addr
  aSgc : Addr
  aScoc : Addr
  aScgc : Addr
  c1Pd1 : Fin 8
  c1Pd0 : Fin 8
  c1Scycle : Fin 8
  c1Extck : Fin 8
  c1Format : Fin 8
  c2Pgaen : Fin 8
  c2PgagLsb : Fin 6
  c5CalLsb : Fin 7
  calSelf : BitVec 2
  calSysOffset : BitVec 2
  calSysFullScale : BitVec 2
  stPdLsb : Fin 15
  stRateLsb : Fin 13
  stRdy : Fin 16
  stMstat : Fin 16
  stDor : Fin 16
  stSysgor : Fin 16
  stAor : Fin 16
  stRderr : Fin 16
  scycleWhenContinuous : Bool
  formatOffsetBinary : Bool
  extckExternal : Bool
  tSelfMs : Nat
  tSysMs : Nat
  resetMode : Mode
  allowConvExit : Bool
deriving DecidableEq, Repr

/-- What the unconstrained oracle (R56) answers to the transport call with this index whose frame is these bytes. It
has no body: nothing can be proved of its value, so a statement about a call it answers holds for every answer
(free value, log entry 3; safe). -/
opaque Config.freeAnswer (index : Nat) (frame : List Byte) : Answer Received

end Sys2Proof
end

