-- ==== Sys2Proof/Syntax.lean ====
section
/-! DEFINITION. Syntax.lean: the instructions, one constructor per row of spec/opcode_table.json, and what the
block's request port holds (spec/30_encoding.md R60, R70, R72, R73). -/

namespace Sys2Proof

/-- One constructor per row of the opcode table, in the table's order: the five wire command bytes (R70), each with
the operands of the bus transaction it opens (R139 to R141), then the fifteen host operations (R73). -/
inductive Instr where
  /-- `CONV r` (R91): the conversion command, sent as a one-byte frame (R139). -/
  | conv (r : BitVec 4)
  /-- `PWRDN` (R92): the power-down command. -/
  | pwrdn
  /-- `CAL` (R93): the calibrate command. -/
  | cal
  /-- `WREG a` (R94): opens `REG.WRITE a, n, v` (R141). -/
  | wreg (a : Addr) (n : Nat) (v : BitVec 32)
  /-- `RREG a` (R95): opens `REG.READ a, n` (R140). -/
  | rreg (a : Addr) (n : Nat)
  /-- `NEW` (R162, R185). -/
  | new
  /-- `RELEASE` (R161). -/
  | release
  /-- `INTO_STANDBY` (R148). -/
  | intoStandby
  /-- `INTO_SLEEP` (R149). -/
  | intoSleep
  /-- `INTO_CONVERSION rate, cont` (R150). -/
  | intoConversion (rate : Rate) (cont : Bool)
  /-- `SET_CLOCK src` (R151). -/
  | setClock (src : ClockSource)
  /-- `SET_FORMAT fmt` (R152). -/
  | setFormat (fmt : DataFormat)
  /-- `SET_GAIN g` (R153). -/
  | setGain (g : Option Gain)
  /-- `CALIBRATE kind` (R154). -/
  | calibrate (kind : CalKind)
  /-- `READ_SOC` (R155). -/
  | readSoc
  /-- `READ_SGC` (R156). -/
  | readSgc
  /-- `READ_SCOC` (R157). -/
  | readScoc
  /-- `READ_SCGC` (R158). -/
  | readScgc
  /-- `READ_DATA` (R159). -/
  | readData
  /-- `READ_STATUS` (R160). -/
  | readStatus
deriving DecidableEq, Repr

/-- One item at the request port. -/
inductive Request where
  /-- A 16-bit host request word `HREQ16` (R72). -/
  | hreq (w : BitVec 16)
  /-- A bus frame handed to the transaction primitives as its bytes, command byte first (R63 to R65, R139 to R141;
  DESIGN CHOICE, log entry 4). -/
  | frame (bytes : List Byte)
  /-- The host evaluates `STAT.STATE` on a view it holds (R171). It is no row of the opcode table; it stands here
  because on the reserved code it writes the block's fault latch (log entry 5). -/
  | evalState (view : StatusView)
deriving DecidableEq, Repr

end Sys2Proof
end

