-- ==== Sys2Proof/Machine/Operands.lean ====
section
/-! DEFINITION. Machine/Operands.lean: operand assembly. Byte order on the wire (spec/20_memory.md R41), widths
(R44), the 24-bit integer codec (spec/40_value24.md R80 to R86), the code maps of the enumerations
(spec/42_register_codecs.md R127 to R129, spec/10_state.md R14, R27) and the operand byte of a host request
(spec/30_encoding.md R72, R73). -/

namespace Sys2Proof

/-- A register width in bytes is 1, 2, 3 or 4 (R44). -/
def validWidth (n : Nat) : Bool := decide (1 ≤ n) && decide (n ≤ 4)

/-! Byte order (R41): the most significant byte travels first. -/

/-- The low `n` bytes of `v`, most significant first (R41). -/
def beBytes : Nat → BitVec 32 → List Byte
  | 0, _ => []
  | n + 1, v => (v >>> (8 * n)).setWidth 8 :: beBytes n v

/-- The number whose bytes, most significant first, are `bs` (R41). -/
def beValue (bs : List Byte) : BitVec 32 :=
  bs.foldl (fun acc b => (acc <<< 8) ||| b.setWidth 32) 0

/-! The 24-bit integer codec (R80 to R85). -/

/-- `n24(v) = b0 ∥ b1 ∥ b2` (R80). -/
def Value24.n24 (v : Value24) : BitVec 24 := v.b0 ++ v.b1 ++ v.b2

/-- `V24.FROM_BE` (R81). -/
def Value24.fromBe (b0 b1 b2 : Byte) : Value24 := ⟨b0, b1, b2⟩

/-- `V24.TO_U32` (R82): zero extension. -/
def Value24.toU32 (v : Value24) : BitVec 32 := v.n24.setWidth 32

/-- `V24.TO_I32` (R83): sign extension from bit 23. -/
def Value24.toI32 (v : Value24) : BitVec 32 := v.n24.signExtend 32

/-- `V24.TO_BE` (R84). -/
def Value24.toBe (v : Value24) : List Byte := [v.b0, v.b1, v.b2]

/-- `V24.FROM_U32` (R85): the low 24 bits; bits 31 to 24 are dropped. -/
def Value24.fromU32 (w : BitVec 32) : Value24 :=
  ⟨w.extractLsb' 16 8, w.extractLsb' 8 8, w.extractLsb' 0 8⟩

/-! The code maps. -/

/-- `code(RATE_k) = k` (R127). -/
def Rate.code : Rate → BitVec 4
  | .rate0 => 0 | .rate1 => 1 | .rate2 => 2 | .rate3 => 3
  | .rate4 => 4 | .rate5 => 5 | .rate6 => 6 | .rate7 => 7
  | .rate8 => 8 | .rate9 => 9 | .rate10 => 10 | .rate11 => 11
  | .rate12 => 12 | .rate13 => 13 | .rate14 => 14 | .rate15 => 15

/-- `rate_of_code` (R127): total on the sixteen codes. -/
def rateOfCode (c : BitVec 4) : Rate :=
  match c.toNat with
  | 0 => .rate0 | 1 => .rate1 | 2 => .rate2 | 3 => .rate3
  | 4 => .rate4 | 5 => .rate5 | 6 => .rate6 | 7 => .rate7
  | 8 => .rate8 | 9 => .rate9 | 10 => .rate10 | 11 => .rate11
  | 12 => .rate12 | 13 => .rate13 | 14 => .rate14 | _ => .rate15

/-- `code(X(2^k)) = k` (R128). -/
def Gain.code : Gain → BitVec 3
  | .x1 => 0 | .x2 => 1 | .x4 => 2 | .x8 => 3 | .x16 => 4 | .x32 => 5 | .x64 => 6 | .x128 => 7

/-- `gain_of_code` (R128). -/
def gainOfCode (c : BitVec 3) : Gain :=
  match c.toNat with
  | 0 => .x1 | 1 => .x2 | 2 => .x4 | 3 => .x8 | 4 => .x16 | 5 => .x32 | 6 => .x64 | _ => .x128

/-- `code : CalKind -> bits(2)` (R129), the values of the `CAL` field. -/
def CalKind.code (cfg : Cfg) : CalKind → BitVec 2
  | .selfCal => cfg.calSelf
  | .systemOffset => cfg.calSysOffset
  | .systemFullScale => cfg.calSysFullScale

/-- `calkind_of_code` (R129): no value on the fourth code. -/
def calKindOfCode (cfg : Cfg) (c : BitVec 2) : Option CalKind :=
  if c = cfg.calSelf then some .selfCal
  else if c = cfg.calSysOffset then some .systemOffset
  else if c = cfg.calSysFullScale then some .systemFullScale
  else none

/-- The 2-bit encoding of the mode for ports and logs (R14). -/
def Mode.code : Mode → BitVec 2
  | .standby => 0
  | .sleep => 1
  | .conversion => 2

/-- The bit written for a clock source (R29, R109). -/
def ClockSource.bit (cfg : Cfg) : ClockSource → Bool
  | .externalClock => cfg.extckExternal
  | .internalClock => !cfg.extckExternal

/-- The bit written for a data format (R29, R110). -/
def DataFormat.bit (cfg : Cfg) : DataFormat → Bool
  | .offsetBinary => cfg.formatOffsetBinary
  | .twosComplement => !cfg.formatOffsetBinary

/-- The settle time of a calibration in milliseconds (R154). -/
def CalKind.settleMs (cfg : Cfg) : CalKind → Nat
  | .selfCal => cfg.tSelfMs
  | .systemOffset => cfg.tSysMs
  | .systemFullScale => cfg.tSysMs

/-! The host request word (R72, R73). -/

/-- `OP` in bits 15 to 8, `ARG` in bits 7 to 0 (R72). -/
def hostWord (op arg : Byte) : BitVec 16 := op ++ arg

/-- The `OP` field of a request word (R72). -/
def hostOp (w : BitVec 16) : Byte := w.extractLsb' 8 8

/-- The `ARG` field of a request word (R72). -/
def hostArg (w : BitVec 16) : Byte := w.extractLsb' 0 8

/-- `ARG` of `INTO_CONVERSION`: the rate code in bits 3 to 0, the continuous flag in bit 4 (R73). -/
def conversionArg (rate : Rate) (cont : Bool) : Byte :=
  0#3 ++ BitVec.ofBool cont ++ rate.code

/-- `ARG` of `SET_CLOCK` (R73). -/
def clockArg : ClockSource → Byte
  | .internalClock => 0
  | .externalClock => 1

/-- `ARG` of `SET_FORMAT` (R73). -/
def formatArg : DataFormat → Byte
  | .twosComplement => 0
  | .offsetBinary => 1

/-- `ARG` of `SET_GAIN` (R73): bit 3 says whether a gain is given, bits 2 to 0 its code. -/
def gainArg : Option Gain → Byte
  | none => 0
  | some g => 0#4 ++ 1#1 ++ g.code

/-- `ARG` of `CALIBRATE` (R73): an operand selector of the request word, not the `CAL` field's code. -/
def calArg : CalKind → Byte
  | .selfCal => 0
  | .systemOffset => 1
  | .systemFullScale => 2

/-- The operation codes of R73. -/
def opNew : Byte := 0x00
/-- R73. -/
def opRelease : Byte := 0x01
/-- R73. -/
def opIntoStandby : Byte := 0x10
/-- R73. -/
def opIntoSleep : Byte := 0x11
/-- R73. -/
def opIntoConversion : Byte := 0x12
/-- R73. -/
def opSetClock : Byte := 0x20
/-- R73. -/
def opSetFormat : Byte := 0x21
/-- R73. -/
def opSetGain : Byte := 0x22
/-- R73. -/
def opCalibrate : Byte := 0x23
/-- R73. -/
def opReadSoc : Byte := 0x30
/-- R73. -/
def opReadSgc : Byte := 0x31
/-- R73. -/
def opReadScoc : Byte := 0x32
/-- R73. -/
def opReadScgc : Byte := 0x33
/-- R73. -/
def opReadData : Byte := 0x34
/-- R73. -/
def opReadStatus : Byte := 0x35

/-- The pseudo-operation `EXIT_CONVERSION` (R79). -/
def exitConversion : List Instr := [.release, .new, .intoStandby]

end Sys2Proof
end

