-- ==== Sys2Proof/Machine/Commands.lean ====
section
/-! DEFINITION. Machine/Commands.lean: the command encoder (spec/41_command_encoder.md R90 to R99) and the classifier
of command bytes (spec/30_encoding.md R76, R77). -/

namespace Sys2Proof

/-- `CMD.CONV r` (R91). -/
def cmdConv (r : BitVec 4) : Byte := 0b10000000#8 ||| r.setWidth 8

/-- `CMD.PWRDN` (R92). -/
def cmdPwrdn (cfg : Cfg) : Byte := cfg.cmdPd

/-- `CMD.CAL` (R93). -/
def cmdCal (cfg : Cfg) : Byte := cfg.cmdCal

/-- `CMD.WREG a` (R94): the input is 8 bits wide and an over-wide address truncates silently (R68). -/
def cmdWreg (a : Byte) : Byte := 0b11000000#8 ||| (a <<< 1)

/-- `CMD.RREG a` (R95). -/
def cmdRreg (a : Byte) : Byte := cmdWreg a ||| 0b00000001#8

/-- What a command byte is (R77). -/
inductive CommandClass where
  | invalid
  | regAccess (a : Addr) (read : Bool)
  | powerDown
  | calibrate
  | convert (r : BitVec 4)
  | reserved
deriving DecidableEq, Repr

/-- `classify` (R77), total, the tests in the rule's order. -/
def classify (cfg : Cfg) (c : Byte) : CommandClass :=
  if c.getLsbD 7 = false then .invalid
  else if c.getLsbD 6 then .regAccess (c.extractLsb' 1 5) (c.getLsbD 0)
  else if c = cfg.cmdPd then .powerDown
  else if c = cfg.cmdCal then .calibrate
  else if c.extractLsb' 4 2 = 0 then .convert (c.extractLsb' 0 4)
  else .reserved

/-- The wire width of the register at an address (R21); 1 for an address with no codec, as in R58 (DEDUCED, log entry
19; safe: only the request built for a table word uses it). -/
def regWidth (cfg : Cfg) (a : Addr) : Nat :=
  if a = cfg.aStat then 2
  else if a = cfg.aData ∨ a = cfg.aSoc ∨ a = cfg.aSgc ∨ a = cfg.aScoc ∨ a = cfg.aScgc then 3
  else 1

/-- How many value or placeholder bytes follow a command byte in its frame (R76). -/
def frameTail (cfg : Cfg) (c : Byte) : Nat :=
  match classify cfg c with
  | .regAccess a _ => regWidth cfg a
  | _ => 0

/-- Frame `FR_CMD` (R63). -/
def frameCmd (c : Byte) : List Byte := [c]

/-- Frame `FR_RD` as sent (R64): the command byte and `n` placeholder bytes 0x00. -/
def frameRd (a : Addr) (n : Nat) : List Byte := cmdRreg (a.setWidth 8) :: List.replicate n 0

/-- Frame `FR_WR` (R65): the command byte and the `n` value bytes, most significant first. -/
def frameWr (a : Addr) (n : Nat) (v : BitVec 32) : List Byte := cmdWreg (a.setWidth 8) :: beBytes n v

end Sys2Proof
end

