-- ==== Sys2Proof/Machine/Defaults.lean ====
section
/-! DEFINITION. Machine/Defaults.lean: the default parameters (spec/00_scope.md R7, spec/10_state.md R22) and the
well-formedness of a `Cfg` (R8). -/

namespace Sys2Proof

/-- The defaults of R7, with the status layout `L0` of R22. Only `C1_PD1`, the two delays, `ADDR_TOP` and the
address width are the source's own; the other values are the spec's defaults, most of them PRESUMED (log entry 2; unsafe
where a statement rests on one of those values, and none does). -/
def Cfg.default : Cfg where
  addrTop := 0x18
  cmdPd := 0x90
  cmdCal := 0xA0
  aStat := 0x00
  aCtrl1 := 0x01
  aCtrl2 := 0x02
  aCtrl5 := 0x05
  aData := 0x06
  aSoc := 0x15
  aSgc := 0x16
  aScoc := 0x17
  aScgc := 0x18
  c1Pd1 := 5
  c1Pd0 := 4
  c1Scycle := 1
  c1Extck := 7
  c1Format := 2
  c2Pgaen := 3
  c2PgagLsb := 0
  c5CalLsb := 6
  calSelf := 0
  calSysOffset := 1
  calSysFullScale := 2
  stPdLsb := 10
  stRateLsb := 4
  stRdy := 0
  stMstat := 1
  stDor := 2
  stSysgor := 3
  stAor := 8
  stRderr := 9
  scycleWhenContinuous := false
  formatOffsetBinary := true
  extckExternal := true
  tSelfMs := 200
  tSysMs := 100
  resetMode := .standby
  allowConvExit := true

/-- The second named status layout `L_EX8` (R22): `L0` with `ST_PD_LSB` = 14. -/
def Cfg.lEx8 : Cfg := { Cfg.default with stPdLsb := 14 }

/-- R8 (a), (b): both command constants start with `10`, neither is a conversion byte, and they differ. -/
def Cfg.commandsWf (c : Cfg) : Bool :=
  c.cmdPd.getLsbD 7 && c.cmdCal.getLsbD 7 && !c.cmdPd.getLsbD 6 && !c.cmdCal.getLsbD 6 &&
  (c.cmdPd.getLsbD 5 || c.cmdPd.getLsbD 4) && (c.cmdCal.getLsbD 5 || c.cmdCal.getLsbD 4) &&
  c.cmdPd != c.cmdCal

/-- The nine register addresses of R7. -/
def Cfg.addrs (c : Cfg) : List Addr :=
  [c.aStat, c.aCtrl1, c.aCtrl2, c.aCtrl5, c.aData, c.aSoc, c.aSgc, c.aScoc, c.aScgc]

/-- R8 (c): at most `ADDR_TOP`, pairwise different. -/
def Cfg.addrsWf (c : Cfg) : Bool :=
  c.addrs.all (fun a => decide (a.toNat ≤ c.addrTop.toNat)) && decide c.addrs.Nodup

/-- R8 (d): the five `CTRL1` bit indices are pairwise different. -/
def Cfg.ctrl1Wf (c : Cfg) : Bool :=
  decide [c.c1Pd1, c.c1Pd0, c.c1Scycle, c.c1Extck, c.c1Format].Nodup

/-- R8 (e): the PGA enable bit lies outside the gain field. -/
def Cfg.ctrl2Wf (c : Cfg) : Bool :=
  decide (c.c2Pgaen.val < c.c2PgagLsb.val) || decide (c.c2PgagLsb.val + 2 < c.c2Pgaen.val)

/-- The status bits that some field or flag of the layout uses (R22). -/
def Cfg.statusBits (c : Cfg) : List Nat :=
  [c.stPdLsb.val, c.stPdLsb.val + 1,
   c.stRateLsb.val, c.stRateLsb.val + 1, c.stRateLsb.val + 2, c.stRateLsb.val + 3,
   c.stRdy.val, c.stMstat.val, c.stDor.val, c.stSysgor.val, c.stAor.val, c.stRderr.val]

/-- R8 (f): the status fields and flags are pairwise disjoint and lie in bits 15 to 0. -/
def Cfg.statusWf (c : Cfg) : Bool :=
  decide c.statusBits.Nodup && c.statusBits.all (fun i => decide (i < 16))

/-- R8 (g): the three calibration codes are pairwise different. -/
def Cfg.calWf (c : Cfg) : Bool :=
  decide [c.calSelf, c.calSysOffset, c.calSysFullScale].Nodup

/-- R8 (h): `RESET_MODE` is `Standby` or `Sleep`. -/
def Cfg.resetWf (c : Cfg) : Bool := c.resetMode != .conversion

/-- R8, all of it. -/
def Cfg.wf (c : Cfg) : Bool :=
  c.commandsWf && c.addrsWf && c.ctrl1Wf && c.ctrl2Wf && c.statusWf && c.calWf && c.resetWf

end Sys2Proof
end

