-- ==== Sys2Proof/WellFormed.lean ====
section
/-! DEFINITION. WellFormed.lean: which instructions are well formed. Only the two register transactions have
operands that can be ill formed (spec/20_memory.md R44, spec/43_bus_transactions.md R140, R141); the operands of
every other instruction are typed so that each value is legal. -/

namespace Sys2Proof

/-- R140, R141: a width in 1 to 4 and, for a write, a value of that width. -/
def Instr.wellFormed : Instr → Bool
  | .conv _ => true
  | .pwrdn => true
  | .cal => true
  | .wreg _ n v => validWidth n && decide (v.toNat < 2 ^ (8 * n))
  | .rreg _ n => validWidth n
  | .new => true
  | .release => true
  | .intoStandby => true
  | .intoSleep => true
  | .intoConversion _ _ => true
  | .setClock _ => true
  | .setFormat _ => true
  | .setGain _ => true
  | .calibrate _ => true
  | .readSoc => true
  | .readSgc => true
  | .readScoc => true
  | .readScgc => true
  | .readData => true
  | .readStatus => true

end Sys2Proof
end

