-- ==== Sys2Proof/Decode.lean ====
section
/-! DEFINITION. Decode.lean: requests to instructions and back (spec/30_encoding.md R60 to R77). The decoder is total
and rejects by name; the encoder is written from the same tables. -/

namespace Sys2Proof

/-- Why a request is not an instruction. -/
inductive DecodeError where
  /-- The `OP` code is not in R73. -/
  | unknownOp
  /-- The `ARG` byte holds a value R73 reserves (R75). -/
  | reservedArg
  /-- A frame without a command byte. -/
  | emptyFrame
  /-- Bit 7 of the command byte is 0 (R71 (a)). -/
  | startBitClear
  /-- A format-`C` byte the block never sends (R71 (b)). -/
  | reservedCommand
  /-- A frame whose length no frame shape has (R63 to R65, R76). -/
  | badFrameLength
  /-- A read frame whose placeholder bytes are not 0x00 (R64). -/
  | badPlaceholder
  /-- A host-side evaluation: no instruction of the table (R171). -/
  | notAnInstruction
deriving DecidableEq, Repr

/-- An operation whose `ARG` must be 0 (R73). -/
def decodeNoArg (arg : Byte) (i : Instr) : Except DecodeError Instr :=
  if arg = 0 then .ok i else .error .reservedArg

/-- `ARG` of `INTO_CONVERSION`: bits 7 to 5 must be 0 (R73). -/
def decodeConversionArg (arg : Byte) : Except DecodeError Instr :=
  if arg.extractLsb' 5 3 = 0 then .ok (.intoConversion (rateOfCode (arg.extractLsb' 0 4)) (arg.getLsbD 4))
  else .error .reservedArg

/-- `ARG` of `SET_CLOCK` (R73). -/
def decodeClockArg (arg : Byte) : Except DecodeError Instr :=
  if arg = 0 then .ok (.setClock .internalClock)
  else if arg = 1 then .ok (.setClock .externalClock)
  else .error .reservedArg

/-- `ARG` of `SET_FORMAT` (R73). -/
def decodeFormatArg (arg : Byte) : Except DecodeError Instr :=
  if arg = 0 then .ok (.setFormat .twosComplement)
  else if arg = 1 then .ok (.setFormat .offsetBinary)
  else .error .reservedArg

/-- `ARG` of `SET_GAIN` (R73, R75): bits 7 to 4 must be 0, and the code must be 0 when no gain is given. -/
def decodeGainArg (arg : Byte) : Except DecodeError Instr :=
  if arg = 0 then .ok (.setGain none)
  else if arg.extractLsb' 3 5 = 1 then .ok (.setGain (some (gainOfCode (arg.extractLsb' 0 3))))
  else .error .reservedArg

/-- `ARG` of `CALIBRATE` (R73, R75): 3 is reserved. -/
def decodeCalArg (arg : Byte) : Except DecodeError Instr :=
  if arg = 0 then .ok (.calibrate .selfCal)
  else if arg = 1 then .ok (.calibrate .systemOffset)
  else if arg = 2 then .ok (.calibrate .systemFullScale)
  else .error .reservedArg

/-- A host request word (R72, R73, R75). A word with `OP` 0x00 and a nonzero `ARG` is no row of the
table and decodes to nothing; operation entry runs `NEW` on it all the same (Machine/Port.lean, log entry 11). -/
def decodeHost (w : BitVec 16) : Except DecodeError Instr :=
  let op := hostOp w
  let arg := hostArg w
  if op = opNew then decodeNoArg arg .new
  else if op = opRelease then decodeNoArg arg .release
  else if op = opIntoStandby then decodeNoArg arg .intoStandby
  else if op = opIntoSleep then decodeNoArg arg .intoSleep
  else if op = opIntoConversion then decodeConversionArg arg
  else if op = opSetClock then decodeClockArg arg
  else if op = opSetFormat then decodeFormatArg arg
  else if op = opSetGain then decodeGainArg arg
  else if op = opCalibrate then decodeCalArg arg
  else if op = opReadSoc then decodeNoArg arg .readSoc
  else if op = opReadSgc then decodeNoArg arg .readSgc
  else if op = opReadScoc then decodeNoArg arg .readScoc
  else if op = opReadScgc then decodeNoArg arg .readScgc
  else if op = opReadData then decodeNoArg arg .readData
  else if op = opReadStatus then decodeNoArg arg .readStatus
  else .error .unknownOp

/-- A command-only frame (R63): nothing may follow the command byte. -/
def decodeCommandOnly (tail : List Byte) (i : Instr) : Except DecodeError Instr :=
  if tail = [] then .ok i else .error .badFrameLength

/-- The bytes after a read command: the placeholders (R64), whose number is the width. -/
def decodeReadTail (a : Addr) (tail : List Byte) : Except DecodeError Instr :=
  if validWidth tail.length = false then .error .badFrameLength
  else if tail = List.replicate tail.length 0 then .ok (.rreg a tail.length)
  else .error .badPlaceholder

/-- The bytes after a write command: the value, most significant byte first (R65). -/
def decodeWriteTail (a : Addr) (tail : List Byte) : Except DecodeError Instr :=
  if validWidth tail.length = false then .error .badFrameLength
  else .ok (.wreg a tail.length (beValue tail))

/-- A bus frame (R63 to R65, R76, R77). -/
def decodeFrame (cfg : Cfg) : List Byte → Except DecodeError Instr
  | [] => .error .emptyFrame
  | c :: tail =>
    match classify cfg c with
    | .invalid => .error .startBitClear
    | .regAccess a true => decodeReadTail a tail
    | .regAccess a false => decodeWriteTail a tail
    | .powerDown => decodeCommandOnly tail .pwrdn
    | .calibrate => decodeCommandOnly tail .cal
    | .convert r => decodeCommandOnly tail (.conv r)
    | .reserved => .error .reservedCommand

/-- The decoder. -/
def decode (cfg : Cfg) : Request → Except DecodeError Instr
  | .hreq w => decodeHost w
  | .frame bs => decodeFrame cfg bs
  | .evalState _ => .error .notAnInstruction

/-- The encoder, from R63 to R65, R70 and R73. -/
def encode (cfg : Cfg) : Instr → Request
  | .conv r => .frame (frameCmd (cmdConv r))
  | .pwrdn => .frame (frameCmd (cmdPwrdn cfg))
  | .cal => .frame (frameCmd (cmdCal cfg))
  | .wreg a n v => .frame (frameWr a n v)
  | .rreg a n => .frame (frameRd a n)
  | .new => .hreq (hostWord opNew 0)
  | .release => .hreq (hostWord opRelease 0)
  | .intoStandby => .hreq (hostWord opIntoStandby 0)
  | .intoSleep => .hreq (hostWord opIntoSleep 0)
  | .intoConversion rate cont => .hreq (hostWord opIntoConversion (conversionArg rate cont))
  | .setClock src => .hreq (hostWord opSetClock (clockArg src))
  | .setFormat fmt => .hreq (hostWord opSetFormat (formatArg fmt))
  | .setGain g => .hreq (hostWord opSetGain (gainArg g))
  | .calibrate kind => .hreq (hostWord opCalibrate (calArg kind))
  | .readSoc => .hreq (hostWord opReadSoc 0)
  | .readSgc => .hreq (hostWord opReadSgc 0)
  | .readScoc => .hreq (hostWord opReadScoc 0)
  | .readScgc => .hreq (hostWord opReadScgc 0)
  | .readData => .hreq (hostWord opReadData 0)
  | .readStatus => .hreq (hostWord opReadStatus 0)

/-- The request of an opcode-table row: a row of 16 bits is a host request word; a row of 8 bits is a command byte,
which opens a frame of the length R76 gives, its further bytes 0. -/
def tableRequest (cfg : Cfg) (nbits w : Nat) : Request :=
  if nbits = 8 then
    .frame (BitVec.ofNat 8 w :: List.replicate (frameTail cfg (BitVec.ofNat 8 w)) 0)
  else .hreq (BitVec.ofNat 16 w)

/-- The instruction the decoder reads from an opcode-table word, under the default `Cfg` the table is written for
(R70). -/
def decodeTableWord (nbits w : Nat) : Option Instr :=
  match decode Cfg.default (tableRequest Cfg.default nbits w) with
  | .ok i => some i
  | .error _ => none

end Sys2Proof
end

