-- ==== Sys2Proof/Machine/Flags.lean ====
section
/-! DEFINITION. Machine/Flags.lean: the flag-register value model (spec/42_register_codecs.md R103) and the status
field extraction (R118 to R126). The block has no condition codes: no operation writes a flag as a side effect
(spec/10_state.md R34), and no operation of the block consults a status flag (R126). -/

namespace Sys2Proof

/-! R103, at every width `n`. -/

/-- `mask(i) = 1 << i`. -/
def Flags.mask {n : Nat} (i : Nat) : BitVec n := 1#n <<< i

/-- `has(v, i)`. -/
def Flags.has {n : Nat} (v : BitVec n) (i : Nat) : Bool := (v &&& Flags.mask i) != 0

/-- `set(v, i)`. -/
def Flags.set {n : Nat} (v : BitVec n) (i : Nat) : BitVec n := v ||| Flags.mask i

/-- `clear(v, i)`. -/
def Flags.clear {n : Nat} (v : BitVec n) (i : Nat) : BitVec n := v &&& ~~~(Flags.mask i)

/-- `assign(v, i, b)`. -/
def Flags.assign {n : Nat} (v : BitVec n) (i : Nat) (b : Bool) : BitVec n :=
  if b then Flags.set v i else Flags.clear v i

/-- `fmask = ((1 << k) - 1) << lsb`. -/
def Flags.fieldMask {n : Nat} (lsb k : Nat) : BitVec n := ((1#n <<< k) - 1) <<< lsb

/-- `get(v, lsb, k)`, as a value of the field's own width. -/
def Flags.get {n : Nat} (v : BitVec n) (lsb k : Nat) : BitVec k :=
  ((v >>> lsb) &&& ((1#n <<< k) - 1)).setWidth k

/-- `put(v, lsb, k, x)`. -/
def Flags.put {n k : Nat} (v : BitVec n) (lsb : Nat) (x : BitVec k) : BitVec n :=
  (v &&& ~~~(Flags.fieldMask lsb k)) ||| ((x.setWidth n <<< lsb) &&& Flags.fieldMask lsb k)

/-! Status fields. -/

/-- The power-state code map of R27: no value on the reserved fourth code. -/
def powerStateOfCode (c : BitVec 2) : Option PowerState :=
  match c.toNat with
  | 0 => some .conversion
  | 1 => some .powerDown
  | 2 => some .standby
  | _ => none

/-- `STAT.STATE` (R118) as a pure function: `none` is the fault `ReservedPowerState`, which Machine/Ops.lean raises
when the evaluation is done for a live block (R171). -/
def statState (cfg : Cfg) (v : StatusView) : Option PowerState :=
  powerStateOfCode (Flags.get v cfg.stPdLsb 2)

/-- `STAT.RATE` (R119). -/
def statRate (cfg : Cfg) (v : StatusView) : Rate := rateOfCode (Flags.get v cfg.stRateLsb 4)

/-- `STAT.RDY` (R120). -/
def statRdy (cfg : Cfg) (v : StatusView) : Bool := Flags.has v cfg.stRdy

/-- `STAT.MSTAT` (R121). -/
def statMstat (cfg : Cfg) (v : StatusView) : Bool := Flags.has v cfg.stMstat

/-- `STAT.DOR` (R122). -/
def statDor (cfg : Cfg) (v : StatusView) : Bool := Flags.has v cfg.stDor

/-- `STAT.SYSGOR` (R123). -/
def statSysgor (cfg : Cfg) (v : StatusView) : Bool := Flags.has v cfg.stSysgor

/-- `STAT.AOR` (R124). -/
def statAor (cfg : Cfg) (v : StatusView) : Bool := Flags.has v cfg.stAor

/-- `STAT.RDERR` (R125). -/
def statRderr (cfg : Cfg) (v : StatusView) : Bool := Flags.has v cfg.stRderr

end Sys2Proof
end

