-- ==== Sys2Proof/Machine/Codecs.lean ====
section
/-! DEFINITION. Machine/Codecs.lean: the register codec array (spec/42_register_codecs.md R100 to R117). -/

namespace Sys2Proof

/-- A register codec (R100): a fixed address, a wire width of `w` bytes, `decode`, and `encode` where the register
is writable. -/
structure RegCodec (w : Nat) (T : Type) where
  addr : Addr
  decode : BitVec (8 * w) → T
  encode : Option (T → BitVec (8 * w))

/-- `RAW8` to `RAW32` (R102) at any address. -/
def rawCodec (a : Addr) (w : Nat) : RegCodec w (BitVec (8 * w)) := ⟨a, id, some id⟩

/-- `STAT` (R104): no masking, no encode. -/
def statCodec (cfg : Cfg) : RegCodec 2 StatusView := ⟨cfg.aStat, id, none⟩

/-- `CTRL1` (R105): identity both ways. -/
def ctrl1Codec (cfg : Cfg) : RegCodec 1 Ctrl := ⟨cfg.aCtrl1, id, some id⟩

/-- `CTRL2` (R111). -/
def ctrl2Codec (cfg : Cfg) : RegCodec 1 Ctrl := ⟨cfg.aCtrl2, id, some id⟩

/-- `CTRL5` (R114). -/
def ctrl5Codec (cfg : Cfg) : RegCodec 1 Ctrl := ⟨cfg.aCtrl5, id, some id⟩

/-- The common decode of the 24-bit registers (R117). -/
def decode24 (raw : BitVec (8 * 3)) : Value24 :=
  Value24.fromBe (raw.extractLsb' 16 8) (raw.extractLsb' 8 8) (raw.extractLsb' 0 8)

/-- `DATA` (R117). -/
def dataCodec (cfg : Cfg) : RegCodec 3 Value24 := ⟨cfg.aData, decode24, none⟩

/-- `DATA32` (R117, R26): used by no operation. -/
def data32Codec (cfg : Cfg) : RegCodec 4 (BitVec 32) := ⟨cfg.aData, id, none⟩

/-- `SOC` (R117). -/
def socCodec (cfg : Cfg) : RegCodec 3 Value24 := ⟨cfg.aSoc, decode24, none⟩

/-- `SGC` (R117). -/
def sgcCodec (cfg : Cfg) : RegCodec 3 Value24 := ⟨cfg.aSgc, decode24, none⟩

/-- `SCOC` (R117). -/
def scocCodec (cfg : Cfg) : RegCodec 3 Value24 := ⟨cfg.aScoc, decode24, none⟩

/-- `SCGC` (R117). -/
def scgcCodec (cfg : Cfg) : RegCodec 3 Value24 := ⟨cfg.aScgc, decode24, none⟩

/-- `CTRL1.POWER` (R106): the pair `(PD1, PD0)`. -/
def ctrl1Power (cfg : Cfg) (v : Ctrl) : Bool × Bool := (Flags.has v cfg.c1Pd1, Flags.has v cfg.c1Pd0)

/-- `CTRL1.WITH_POWER` (R107). -/
def withPower (cfg : Cfg) (v : Ctrl) : Mode → Ctrl
  | .standby => Flags.set (Flags.clear v cfg.c1Pd0) cfg.c1Pd1
  | .sleep => Flags.clear (Flags.set v cfg.c1Pd0) cfg.c1Pd1
  | .conversion => Flags.clear (Flags.clear v cfg.c1Pd0) cfg.c1Pd1

/-- `CTRL1.WITH_CONTINUOUS` (R108). -/
def withContinuous (cfg : Cfg) (v : Ctrl) (cont : Bool) : Ctrl :=
  Flags.assign v cfg.c1Scycle (if cont then cfg.scycleWhenContinuous else !cfg.scycleWhenContinuous)

/-- `CTRL1.WITH_CLOCK` (R109): the bit is driven to the requested value. -/
def withClock (cfg : Cfg) (v : Ctrl) (src : ClockSource) : Ctrl :=
  Flags.assign v cfg.c1Extck (src.bit cfg)

/-- `CTRL1.CLOCK` (R109). -/
def ctrl1Clock (cfg : Cfg) (v : Ctrl) : ClockSource :=
  if Flags.has v cfg.c1Extck = cfg.extckExternal then .externalClock else .internalClock

/-- `CTRL1.WITH_FORMAT` (R110). -/
def withFormat (cfg : Cfg) (v : Ctrl) (fmt : DataFormat) : Ctrl :=
  Flags.assign v cfg.c1Format (fmt.bit cfg)

/-- `CTRL1.FORMAT` (R110). -/
def ctrl1Format (cfg : Cfg) (v : Ctrl) : DataFormat :=
  if Flags.has v cfg.c1Format = cfg.formatOffsetBinary then .offsetBinary else .twosComplement

/-- `CTRL2.GAIN` (R112). -/
def ctrl2Gain (cfg : Cfg) (v : Ctrl) : Option Gain :=
  if Flags.has v cfg.c2Pgaen then some (gainOfCode (Flags.get v cfg.c2PgagLsb 3)) else none

/-- `CTRL2.WITH_GAIN` (R113): disabling leaves the gain code as it was. -/
def withGain (cfg : Cfg) (v : Ctrl) : Option Gain → Ctrl
  | some g => Flags.put (Flags.set v cfg.c2Pgaen) cfg.c2PgagLsb g.code
  | none => Flags.clear v cfg.c2Pgaen

/-- `CTRL5.CAL` (R115). -/
def ctrl5Cal (cfg : Cfg) (v : Ctrl) : BitVec 2 := Flags.get v cfg.c5CalLsb 2

/-- `CTRL5.WITH_CAL` (R116). -/
def withCal (cfg : Cfg) (v : Ctrl) (k : CalKind) : Ctrl := Flags.put v cfg.c5CalLsb (k.code cfg)

end Sys2Proof
end

