-- ==== Sys2Proof/Machine/Memory.lean ====
section
/-! DEFINITION. Machine/Memory.lean: the device register space as plain data (spec/20_memory.md R36, R58). The
space has 32 register addresses of `bits(32)` each; register `a` occupies the four cells `4a` to `4a+3`, most
significant byte first. The block never holds this memory: it is the register file of the mock device (R58), and
with the unconstrained oracle attached (R56) nothing reads it (DESIGN CHOICE, log
entry 7; unsafe). -/

namespace Sys2Proof

/-- The register file in canonical form: cell addresses strictly rising, no cell equal to `Memory.unlisted`. -/
abbrev Memory := List Host.Cell

/-- What an unlisted cell reads as: a register not listed in a mock's start state is 0
(spec/95_test_vectors.md Part 3). -/
def Memory.unlisted : Byte := 0

/-- One cell. -/
def Memory.readByte : Memory → Nat → Byte
  | [], _ => Memory.unlisted
  | (k, b) :: rest, a => if k = a then b else Memory.readByte rest a

/-- Drop every entry of a cell from the list. -/
def Memory.erase : Memory → Nat → Memory
  | [], _ => []
  | (k, b) :: rest, a => if k = a then Memory.erase rest a else (k, b) :: Memory.erase rest a

/-- Put a cell that is not in the list where it belongs. -/
def Memory.insert : Memory → Nat → Byte → Memory
  | [], a, x => [(a, x)]
  | (k, b) :: rest, a, x =>
    if a < k then (a, x) :: (k, b) :: rest else (k, b) :: Memory.insert rest a x

/-- Write one cell, keeping the canonical form: the value an unlisted cell reads as is never listed. -/
def Memory.writeByte (m : Memory) (a : Nat) (x : Byte) : Memory :=
  if x = Memory.unlisted then m.erase a else (m.erase a).insert a x

/-- Above a lower bound, where one is given. -/
def Memory.above : Option Nat → Nat → Bool
  | none, _ => true
  | some l, k => decide (l < k)

/-- The cell addresses rise strictly, and the first is above `lo` where one is given. -/
def Memory.rises : Option Nat → Memory → Bool
  | _, [] => true
  | lo, (k, _) :: rest => Memory.above lo k && Memory.rises (some k) rest

/-- The canonical form, with every cell inside the 32 registers of four cells (R36). -/
def Memory.wf (m : Memory) : Bool :=
  Memory.rises none m && m.all (fun c => c.2 != Memory.unlisted && decide (c.1 < 128))

/-- The first cell of a register. -/
def regBase (a : Addr) : Nat := 4 * a.toNat

/-- Register `a` of the mock, `dev[a]` (R58). -/
def Memory.readReg (m : Memory) (a : Addr) : BitVec 32 :=
  beValue [m.readByte (regBase a), m.readByte (regBase a + 1), m.readByte (regBase a + 2), m.readByte (regBase a + 3)]

/-- Write the cells from `k` on. -/
def Memory.writeBytes (m : Memory) (k : Nat) : List Byte → Memory
  | [] => m
  | b :: bs => Memory.writeBytes (m.writeByte k b) (k + 1) bs

/-- `dev[a] <- v` (R58). -/
def Memory.writeReg (m : Memory) (a : Addr) (v : BitVec 32) : Memory := m.writeBytes (regBase a) (beBytes 4 v)

end Sys2Proof
end

