-- ==== Sys2Proof/Machine/State.lean ====
section
/-! DEFINITION. Machine/State.lean: the block's state, the environment a run needs beside it, and the reset state
(spec/10_state.md R13 to R18, R31 to R33, spec/20_memory.md R56 to R59, spec/60_exceptions.md R166). -/

namespace Sys2Proof.Machine

/-- The reasons of the `Faulted` response (R166, codes 2 to 4). -/
inductive FaultReason where
  | reservedPowerState
  | illegalInMode
  | notAlive
deriving DecidableEq, Repr

/-- The payload of an `Ok` response (R74): nothing, a `u32`, or a status view. The last two are the model's own: the
value a generic register read returns (R140) and the value of a host-side `STAT.STATE` (R118). -/
inductive Payload where
  | empty
  | word (v : BitVec 32)
  | view (v : StatusView)
  | raw (n : Nat) (v : BitVec 32)
  | power (p : PowerState)
deriving DecidableEq, Repr

/-- The four response kinds (R12, R74). `refused` is `Refused(BadRequest)`, the only refusal there is (R166). -/
inductive Response where
  | ok (p : Payload)
  | err (e : TransportError)
  | faulted (r : FaultReason)
  | refused
deriving DecidableEq, Repr

/-- The value R166 records for each abnormal outcome. For a wire instruction, which has no `OP` code, the command
byte stands for it (DESIGN CHOICE, log entry 4). -/
inductive CauseRecord where
  | transportError (e : TransportError)
  | reservedPowerState (word : StatusView)
  | illegalInMode (op : Byte) (mode : Mode)
  | notAlive (op : Byte)
  | badRequest (q : Request)
deriving DecidableEq, Repr

/-- One transport call (R38, R39): the bytes of one frame. -/
inductive Call where
  | write (bytes : List Byte)
  | exchange (bytes : List Byte)
deriving DecidableEq, Repr

/-- The events of the bus log (R57), each with whether the call returned `Ok` or `Err`. -/
inductive BusEvent where
  | w (sent : List Byte) (result : Answer Unit)
  | x (sent : List Byte) (result : Answer (List Byte))
  | d (ms : Nat)
deriving DecidableEq, Repr

/-- Who answers transport calls: the unconstrained oracle of R56 or the mock device of R58. -/
inductive Peer where
  | oracle
  | mock
deriving DecidableEq, Repr

/-- The transient state of one operation (R18, R19): the frame buffer, the value last read, the position in the
call sequence. It is discarded when the operation responds; what it holds then is never read (log entry 14; safe). -/
structure Transient where
  frame : List Byte
  lastRead : Option (BitVec 32)
  position : Nat
deriving DecidableEq, Repr

/-- No operation outstanding (R33: no value before one is written). -/
def Transient.idle : Transient := ⟨[], none, 0⟩

/-- Why the machine has no step. -/
inductive Fault where
  /-- Raised by `deliver` when the transport never returns from a call of the operation (R195, U14): the block is
  stuck in it for ever. Safe: the machine stops where the real block hangs. -/
  | transportNeverReturns
  /-- Raised by `step` when no request is at the port (R4: the block has no step unless the host has an operation
  outstanding). Safe. -/
  | noRequestOutstanding
deriving DecidableEq, Repr

/-- What the machine refuses to run. -/
inductive Refusal where
  /-- An instruction with no meaning yet, raised by `exec` alone. Safe. No arm answers so. -/
  | notModelled (mnemonic : String)
  /-- Raised by every meaning and by `step` on an ill-formed `Cfg`: "a model must refuse (not run)" it (R8). Safe. -/
  | illFormedCfg
deriving DecidableEq, Repr

/-- The whole state: plain data. `alive`, `mode`, `fault` are the block's architectural state `S` (R13); `op` is the
transient state of R18; `causes` holds the values R166 records, and `responses` what the host was answered (DESIGN
CHOICE, log entry 15; safe); the rest is the host's side of the port and the environment of R32, R56 to R59. -/
structure State where
  /-- The parameters (R7); no step changes them. -/
  cfg : Cfg
  /-- `S.alive` (R15). -/
  alive : Bool
  /-- `S.mode` (R14). -/
  mode : Mode
  /-- `S.fault` (R16). -/
  fault : Option FaultReason
  /-- The transient state (R18). -/
  op : Transient
  /-- The recorded values of abnormal outcomes, oldest first (R166). -/
  causes : List CauseRecord
  /-- The requests the host issues, the next one first (R9, R35, R189). -/
  pending : List Request
  /-- The responses given, oldest first (R12, R199). -/
  responses : List Response
  /-- The bus log, oldest first (R57). -/
  log : List BusEvent
  /-- How many transport calls were issued: the index of the next call (R59), delays not counted. -/
  calls : Nat
  /-- The clock in milliseconds (R32, R178). -/
  now : Nat
  /-- Who answers transport calls (R56, R58). -/
  peer : Peer
  /-- The oracle's next answers, the next first; when there are none left the answer is free (R56). -/
  script : List (Answer Received)
  /-- How many more calls the transport returns from before it never returns again (R195); `none`: all (R56). -/
  hangAfter : Option Nat
  /-- The mock device's registers (R58). -/
  dev : Memory
  /-- `fail_at` of R59. -/
  failAt : Option Nat
  /-- `fail_value` of R59. -/
  failValue : TransportError
  /-- `fail_applies` of R59. -/
  failApplies : Bool
deriving DecidableEq, Repr

/-- The state right after reset (R33, R185: reset of the block is the operation `NEW`, and this is the state after
it), with the default `Cfg`, nothing at the port, an empty bus log, and the unconstrained oracle attached. The fields
outside `S` have no reset value in the spec but the log, which `NEW` leaves as it was: they hold DESIGN CHOICE values
(log entry 8). -/
def State.reset : State where
  cfg := Cfg.default
  alive := true
  mode := Cfg.default.resetMode
  fault := none
  op := Transient.idle
  causes := []
  pending := []
  responses := [.ok .empty]
  log := []
  calls := 0
  now := 0
  peer := .oracle
  script := []
  hangAfter := none
  dev := []
  failAt := none
  failValue := ⟨0⟩
  failApplies := false

/-- The state before the first `NEW` (R33, R186): not alive, no fault, and a mode without a value, which is therefore
an argument. -/
def State.powerOn (m : Mode) : State :=
  { State.reset with alive := false, mode := m, responses := [] }

end Sys2Proof.Machine
end

