-- ==== Sys2Proof/Machine/Ops.lean ====
section
/-! DEFINITION. Machine/Ops.lean: the operations every meaning is made of. The environment's answers
(spec/20_memory.md R56 to R59), the two transport primitives and the bus log (R38 to R40, R57), the bus transactions
(spec/43_bus_transactions.md R139 to R143), faults, errors and refusals (spec/60_exceptions.md R166 to R173), the
delay (R178), and operation entry and response (spec/44_mode_machine.md R145, R146). -/

namespace Sys2Proof.Machine

/-! The environment. -/

/-- The bytes of a call's frame. -/
def Call.bytes : Call → List Byte
  | .write bs => bs
  | .exchange bs => bs

/-- The first `n` bytes received (R39: as many as were sent). -/
def receivedBytes (n : Nat) (r : Received) : List Byte := [r.r0, r.r1, r.r2, r.r3, r.r4].take n

/-- Bytes in arrival order as a `Received`; the frames of R18 have at most five. -/
def receivedOf (bs : List Byte) : Received :=
  ⟨bs.getD 0 0, bs.getD 1 0, bs.getD 2 0, bs.getD 3 0, bs.getD 4 0⟩

/-- The mock's answer when the call does not fail (R58): the echo byte 0x00, then the register's low bytes for a
read frame; all bytes 0x00 for any other frame. -/
def mockAnswer (dev : Memory) : Call → Received
  | .exchange (c :: z :: zs) =>
    if c.extractLsb' 6 2 = 3 ∧ c.getLsbD 0 = true then
      receivedOf (0 :: beBytes (z :: zs).length (dev.readReg (c.extractLsb' 1 5)))
    else receivedOf []
  | _ => receivedOf []

/-- What a frame does to the mock's registers when it takes effect (R58): a write frame stores its value, every other
frame leaves them alone. -/
def mockStore (dev : Memory) : Call → Memory
  | .write (c :: d :: ds) =>
    if c.extractLsb' 6 2 = 3 ∧ c.getLsbD 0 = false then dev.writeReg (c.extractLsb' 1 5) (beValue (d :: ds))
    else dev
  | _ => dev

/-- Whether the mock fails the next call: its index among the calls, delays not counted, is `fail_at` (R59; DEDUCED, log
entry 18; unsafe). -/
def mockFails (s : State) : Bool := s.failAt == some s.calls

/-- The environment's result for the next call (R56, R58, R59). -/
def callResult (c : Call) (s : State) : Answer Received :=
  match s.peer with
  | .mock => if mockFails s then .err s.failValue else .ok (mockAnswer s.dev c)
  | .oracle =>
    match s.script with
    | r :: _ => r
    | [] => Config.freeAnswer s.calls c.bytes

/-- The environment after the call: the oracle has given its next answer; the mock has applied the frame, unless the
call fails and `fail_applies` is false (R59). -/
def envAfter (c : Call) (s : State) : State :=
  match s.peer with
  | .mock => { s with dev := if mockFails s && !s.failApplies then s.dev else mockStore s.dev c }
  | .oracle => { s with script := s.script.tail }

/-! The block's side of a call. -/

/-- What ends a computation of the block: a value, the transport's error (R167), or `refuse(BadRequest)` (R170). -/
inductive Res (α : Type) where
  | ok (a : α)
  | err (e : TransportError)
  | refuse (q : Request)
deriving DecidableEq, Repr

/-- `try` (R11): on `Ok` go on with the payload, otherwise stop there. -/
def tryDo {α β : Type} (p : State × Res α) (f : α → State → State × Res β) : State × Res β :=
  match p.2 with
  | .ok a => f a p.1
  | .err e => (p.1, .err e)
  | .refuse q => (p.1, .refuse q)

/-- The transient state while a frame is out (R18): the frame buffer holds the bytes sent and the position advances
by one call (R19). -/
def Transient.issue (t : Transient) (bs : List Byte) : Transient := ⟨bs, t.lastRead, t.position + 1⟩

/-- One call: the environment answers it, the log records it, the call index advances (R50, R57). -/
def issue (c : Call) (e : BusEvent) (s : State) : State :=
  { envAfter c s with
    log := s.log ++ [e], calls := s.calls + 1, op := Transient.issue s.op c.bytes }

/-- `T.write(s)` (R38): the response content is ignored. -/
def tWrite (bs : List Byte) (s : State) : State × Res Unit :=
  match callResult (.write bs) s with
  | .ok _ => (issue (.write bs) (.w bs (.ok ())) s, .ok ())
  | .err e => (issue (.write bs) (.w bs (.err e)) s, .err e)

/-- `T.exchange(s)` (R39): the buffer is overwritten with the bytes received, as many as were sent. -/
def tExchange (bs : List Byte) (s : State) : State × Res (List Byte) :=
  match callResult (.exchange bs) s with
  | .ok r =>
    let rx := receivedBytes bs.length r
    let s' := issue (.exchange bs) (.x bs (.ok rx)) s
    ({ s' with op := { s'.op with frame := rx } }, .ok rx)
  | .err e => (issue (.exchange bs) (.x bs (.err e)) s, .err e)

/-! The bus transactions (R139 to R143). -/

/-- `CMD.SEND c` (R139). -/
def cmdSend (c : Byte) (s : State) : State × Res Unit := tWrite (frameCmd c) s

/-- `REG.READ a, n` (R140): the echo byte is dropped and the value is kept as the value last read (R18). Asked for
with a bad width it has no request word to record: the frame that would have been sent stands for it (DESIGN CHOICE, log
entry 22; safe). -/
def regRead (a : Addr) (n : Nat) (s : State) : State × Res (BitVec 32) :=
  if validWidth n = false then (s, .refuse (.frame (frameRd a n)))
  else tryDo (tExchange (frameRd a n) s) fun rx s' =>
    let v := beValue rx.tail
    ({ s' with op := { s'.op with lastRead := some v } }, .ok v)

/-- `REG.WRITE a, n, v` (R141). What a bad width records is as for `regRead` (DESIGN CHOICE, log entry 22; safe). -/
def regWrite (a : Addr) (n : Nat) (v : BitVec 32) (s : State) : State × Res Unit :=
  if validWidth n = false then (s, .refuse (.frame (frameWr a n v)))
  else tWrite (frameWr a n v) s

/-- `REG.UPDATE a, f` (R142): read, compute, write back only if changed. -/
def regUpdate (a : Addr) (f : Byte → Byte) (s : State) : State × Res Unit :=
  tryDo (regRead a 1 s) fun v s' =>
    let old := v.setWidth 8
    if f old = old then (s', .ok ()) else regWrite a 1 ((f old).setWidth 32) s'

/-- `READ K` (R143). -/
def readCodec {w : Nat} {T : Type} (k : RegCodec w T) (s : State) : State × Res T :=
  tryDo (regRead k.addr w s) fun v s' => (s', .ok (k.decode (v.setWidth (8 * w))))

/-- `WRITE K, t` (R143): defined only when the codec has an `encode`. -/
def writeCodec {w : Nat} {T : Type} (k : RegCodec w T) (t : T) (s : State) : Option (State × Res Unit) :=
  k.encode.map fun enc => regWrite k.addr w ((enc t).setWidth 32) s

/-- `Delay(ms)` (R178): it cannot fail, it is logged, and the clock advances by the lower bound, exactly (DESIGN CHOICE,
log entry 13; unsafe). -/
def delay (ms : Nat) (s : State) : State := { s with log := s.log ++ [.d ms], now := s.now + ms }

/-! Responses, errors, faults, refusals. -/

/-- The numeric code R166 gives each abnormal outcome for logs and ports; none for `Ok`. -/
def Response.code : Response → Option Nat
  | .ok _ => none
  | .err _ => some 1
  | .faulted .reservedPowerState => some 2
  | .faulted .illegalInMode => some 3
  | .faulted .notAlive => some 4
  | .refused => some 5

/-- Respond to the host; the transient state is discarded (R18, R12; log entry 14). -/
def respond (r : Response) (s : State) : State :=
  { s with responses := s.responses ++ [r], op := Transient.idle }

/-- Record the value R166 names for an abnormal outcome. -/
def recordCause (c : CauseRecord) (s : State) : State := { s with causes := s.causes ++ [c] }

/-- TAKING A FAULT: `raise Fault(r)` (R169). The latch keeps the first fault; nothing is sent. -/
def raiseFault (r : FaultReason) (c : CauseRecord) (s : State) : State :=
  respond (.faulted r) (recordCause c { s with fault := s.fault <|> some r })

/-- RETURN FROM A FAULT: the one way out is re-initialisation (R176, R185). -/
def reinit (s : State) : State :=
  respond (.ok .empty) { s with alive := true, mode := s.cfg.resetMode, fault := none }

/-- A transport error is reported with nothing of `S` changed (R167). -/
def reportError (e : TransportError) (s : State) : State :=
  respond (.err e) (recordCause (.transportError e) s)

/-- `refuse(BadRequest)` (R170). -/
def refuse (q : Request) (s : State) : State := respond .refused (recordCause (.badRequest q) s)

/-- `Faulted(NotAlive)`, not latched (R173). -/
def answerNotAlive (op : Byte) (s : State) : State := respond (.faulted .notAlive) (recordCause (.notAlive op) s)

/-- The response a body's result asks for. -/
def answer (p : State × Res Payload) : State :=
  match p.2 with
  | .ok x => respond (.ok x) p.1
  | .err e => reportError e p.1
  | .refuse q => refuse q p.1

/-! Operation entry (R145) and the mode gate (R146). -/

/-- `INTO_STANDBY`, `INTO_SLEEP`: legal in `Conversion` only if `ALLOW_CONV_EXIT` (R146). -/
def gateTransition (cfg : Cfg) (m : Mode) : Bool := m != .conversion || cfg.allowConvExit

/-- Legal in `Standby` and `Sleep` only (R146). -/
def gateConfig (_ : Cfg) (m : Mode) : Bool := m != .conversion

/-- Legal in `Conversion` only (R146). -/
def gateData (_ : Cfg) (m : Mode) : Bool := m == .conversion

/-- Legal in every mode (R146). -/
def gateAny (_ : Cfg) (_ : Mode) : Bool := true

/-- Steps 2 and 3 of operation entry (R145), then what follows them. -/
def whenServing (op : Byte) (k : State → State) (s : State) : State :=
  if s.alive = false then answerNotAlive op s
  else match s.fault with
    | some r => respond (.faulted r) s
    | none => k s

/-- Steps 2, 3, 5 and 6 of operation entry (R145) for a request that is not reserved. -/
def enter (op : Byte) (gate : Cfg → Mode → Bool) (body : State → State × Res Payload) : State → State :=
  whenServing op fun s =>
    if gate s.cfg s.mode then answer (body s)
    else raiseFault .illegalInMode (.illegalInMode op s.mode) s

/-- Deliver the outcome `t` of a request accepted in `s`, unless the transport never returned from one of its calls
(R195): `hangAfter` calls are still answered, and an operation that needs more is stuck (log entry 9). -/
def deliver (s t : State) : Host.Outcome State Fault Refusal :=
  match s.hangAfter with
  | none => .next t
  | some k =>
    if t.calls - s.calls ≤ k then .next { t with hangAfter := some (k - (t.calls - s.calls)) }
    else .fault .transportNeverReturns

/-- Accept a request: an ill-formed `Cfg` is refused, not run (R8). -/
def accept (run : State → State) (s : State) : Host.Outcome State Fault Refusal :=
  if s.cfg.wf then deliver s (run s) else .refused .illFormedCfg

/-- A host operation or wire transaction: entry, then its body. -/
def operate (op : Byte) (gate : Cfg → Mode → Bool) (body : State → State × Res Payload) (s : State) :
    Host.Outcome State Fault Refusal :=
  accept (enter op gate body) s

/-- The code that stands for a request in a `NotAlive` record (R166). -/
def requestOp : Request → Byte
  | .hreq w => hostOp w
  | .frame bs => bs.headD 0
  | .evalState _ => 0

/-- A reserved request (R75): refused after the liveness and fault checks, before the mode gate (R145 step 4). A frame
that opens none of the five commands is answered the same way (DESIGN CHOICE, log entry 17; safe), and its bytes
are recorded where R166 records the request word, which it has not (DESIGN CHOICE, log entry 22; safe). -/
def answerReserved (q : Request) : State → State := whenServing (requestOp q) (refuse q)

/-- The host evaluates `STAT.STATE` (R118, R171): the reserved code is a fault of the run, latched if the block is
alive at that moment; every other code has its value. -/
def evalState (v : StatusView) (s : State) : State :=
  match statState s.cfg v with
  | some p => respond (.ok (.power p)) s
  | none =>
    if s.alive then raiseFault .reservedPowerState (.reservedPowerState v) s
    else respond (.faulted .reservedPowerState) (recordCause (.reservedPowerState v) s)

end Sys2Proof.Machine
end

