-- ==== Sys2Proof/Machine/Ownership.lean ====
section
/-! DEFINITION. Machine/Ownership.lean: `NEW` and `RELEASE` (spec/44_mode_machine.md R161, R162,
spec/70_reset_and_hazards.md R185). Neither issues a transport call. -/

namespace Sys2Proof.Machine

/-- `NEW` (R162, R185): accepted in every state of the block (R145 step 1). -/
def execNew (s : State) : Host.Outcome State Fault Refusal := accept reinit s

/-- The body of `RELEASE` (R161). -/
def releaseBody (s : State) : State × Res Payload := ({ s with alive := false }, .ok .empty)

/-- `RELEASE` (R161): the tag is kept and is unreadable while the block is not alive. -/
def execRelease (s : State) : Host.Outcome State Fault Refusal :=
  operate opRelease gateAny releaseBody s

end Sys2Proof.Machine
end

