-- ==== Sys2Proof/Machine/Reads.lean ====
section
/-! DEFINITION. Machine/Reads.lean: the six reads (spec/44_mode_machine.md R155 to R160). -/

namespace Sys2Proof.Machine

/-- The shape of a 24-bit read: the value is widened unsigned (R155 to R159). -/
def read24Body (k : RegCodec 3 Value24) (s : State) : State × Res Payload :=
  tryDo (readCodec k s) fun v s' => (s', .ok (.word v.toU32))

/-- `READ_SOC` (R155). -/
def execReadSoc (s : State) : Host.Outcome State Fault Refusal :=
  operate opReadSoc gateConfig (read24Body (socCodec s.cfg)) s

/-- `READ_SGC` (R156). -/
def execReadSgc (s : State) : Host.Outcome State Fault Refusal :=
  operate opReadSgc gateConfig (read24Body (sgcCodec s.cfg)) s

/-- `READ_SCOC` (R157). -/
def execReadScoc (s : State) : Host.Outcome State Fault Refusal :=
  operate opReadScoc gateConfig (read24Body (scocCodec s.cfg)) s

/-- `READ_SCGC` (R158). -/
def execReadScgc (s : State) : Host.Outcome State Fault Refusal :=
  operate opReadScgc gateConfig (read24Body (scgcCodec s.cfg)) s

/-- `READ_DATA` (R159): the block does not test data-ready first (R192). -/
def execReadData (s : State) : Host.Outcome State Fault Refusal :=
  operate opReadData gateData (read24Body (dataCodec s.cfg)) s

/-- The body of `READ_STATUS` (R160): the view is the word as read. -/
def readStatusBody (cfg : Cfg) (s : State) : State × Res Payload :=
  tryDo (readCodec (statCodec cfg) s) fun v s' => (s', .ok (.view v))

/-- `READ_STATUS` (R160): the mode tag is not updated from the status. -/
def execReadStatus (s : State) : Host.Outcome State Fault Refusal :=
  operate opReadStatus gateAny (readStatusBody s.cfg) s

end Sys2Proof.Machine
end

