-- ==== Sys2Proof/Machine/Settings.lean ====
section
/-! DEFINITION. Machine/Settings.lean: the configuration operations (spec/44_mode_machine.md R151 to R154). -/

namespace Sys2Proof.Machine

/-- The shape of a `SET_*` operation: one read-modify-write and no command (R151 to R153). -/
def settingBody (a : Addr) (f : Byte → Byte) (s : State) : State × Res Payload :=
  tryDo (regUpdate a f s) fun _ s' => (s', .ok .empty)

/-- `SET_CLOCK src` (R151). -/
def execSetClock (src : ClockSource) (s : State) : Host.Outcome State Fault Refusal :=
  operate opSetClock gateConfig (settingBody s.cfg.aCtrl1 fun v => withClock s.cfg v src) s

/-- `SET_FORMAT fmt` (R152). -/
def execSetFormat (fmt : DataFormat) (s : State) : Host.Outcome State Fault Refusal :=
  operate opSetFormat gateConfig (settingBody s.cfg.aCtrl1 fun v => withFormat s.cfg v fmt) s

/-- `SET_GAIN g` (R153). -/
def execSetGain (g : Option Gain) (s : State) : Host.Outcome State Fault Refusal :=
  operate opSetGain gateConfig (settingBody s.cfg.aCtrl2 fun v => withGain s.cfg v g) s

/-- The body of `CALIBRATE kind` (R154): the delay follows the command and is never performed after a failure. -/
def calibrateBody (cfg : Cfg) (kind : CalKind) (s : State) : State × Res Payload :=
  tryDo (regUpdate cfg.aCtrl5 (fun v => withCal cfg v kind) s) fun _ s1 =>
    tryDo (cmdSend (cmdCal cfg) s1) fun _ s2 => (delay (kind.settleMs cfg) s2, .ok .empty)

/-- `CALIBRATE kind` (R154). -/
def execCalibrate (kind : CalKind) (s : State) : Host.Outcome State Fault Refusal :=
  operate opCalibrate gateConfig (calibrateBody s.cfg kind) s

end Sys2Proof.Machine
end

