-- ==== Sys2Proof/Machine/Transitions.lean ====
section
/-! DEFINITION. Machine/Transitions.lean: the three mode transitions (spec/44_mode_machine.md R147 to R150). The tag
is updated last (R164). -/

namespace Sys2Proof.Machine

/-- The shape of a transition: update `CTRL1`, send the command, then set the tag (R148 to R150). -/
def transitionBody (a : Addr) (f : Byte → Byte) (c : Byte) (m : Mode) (s : State) : State × Res Payload :=
  tryDo (regUpdate a f s) fun _ s1 =>
    tryDo (cmdSend c s1) fun _ s2 => ({ s2 with mode := m }, .ok .empty)

/-- `INTO_STANDBY` (R148). -/
def execIntoStandby (s : State) : Host.Outcome State Fault Refusal :=
  operate opIntoStandby gateTransition
    (transitionBody s.cfg.aCtrl1 (fun v => withPower s.cfg v .standby) (cmdPwrdn s.cfg) .standby) s

/-- `INTO_SLEEP` (R149). -/
def execIntoSleep (s : State) : Host.Outcome State Fault Refusal :=
  operate opIntoSleep gateTransition
    (transitionBody s.cfg.aCtrl1 (fun v => withPower s.cfg v .sleep) (cmdPwrdn s.cfg) .sleep) s

/-- `INTO_CONVERSION rate, cont` (R150): the rate is carried by the command byte only. -/
def execIntoConversion (rate : Rate) (cont : Bool) (s : State) : Host.Outcome State Fault Refusal :=
  operate opIntoConversion gateConfig
    (transitionBody s.cfg.aCtrl1 (fun v => withContinuous s.cfg (withPower s.cfg v .conversion) cont)
      (cmdConv rate.code) .conversion) s

end Sys2Proof.Machine
end

