-- ==== Sys2Proof/Machine/Wire.lean ====
section
/-! DEFINITION. Machine/Wire.lean: the five wire command bytes (spec/30_encoding.md R70), each as the bus transaction
it opens (spec/43_bus_transactions.md R139 to R141), issued by the block on its transport. The mode gate has no row
for them (R146); the block issues no transport call while it is not alive (R15) or has a fault latched (R16), so the
liveness and fault checks of operation entry hold for them too (log entry 4). -/

namespace Sys2Proof.Machine

/-- The transaction `CMD.SEND c` as a body. -/
def commandBody (c : Byte) (s : State) : State × Res Payload :=
  tryDo (cmdSend c s) fun _ s' => (s', .ok .empty)

/-- `CONV r` (R91, R139). -/
def execConv (r : BitVec 4) (s : State) : Host.Outcome State Fault Refusal :=
  operate (cmdConv r) gateAny (commandBody (cmdConv r)) s

/-- `PWRDN` (R92, R139). -/
def execPwrdn (s : State) : Host.Outcome State Fault Refusal :=
  operate (cmdPwrdn s.cfg) gateAny (commandBody (cmdPwrdn s.cfg)) s

/-- `CAL` (R93, R139). -/
def execCal (s : State) : Host.Outcome State Fault Refusal :=
  operate (cmdCal s.cfg) gateAny (commandBody (cmdCal s.cfg)) s

/-- The transaction `REG.WRITE a, n, v` as a body (R141). -/
def writeBody (a : Addr) (n : Nat) (v : BitVec 32) (s : State) : State × Res Payload :=
  tryDo (regWrite a n v s) fun _ s' => (s', .ok .empty)

/-- The transaction `REG.READ a, n` as a body (R140). -/
def readBody (a : Addr) (n : Nat) (s : State) : State × Res Payload :=
  tryDo (regRead a n s) fun v s' => (s', .ok (.raw n v))

/-- `WREG a` opening `REG.WRITE a, n, v` (R94, R141). -/
def execWreg (a : Addr) (n : Nat) (v : BitVec 32) (s : State) : Host.Outcome State Fault Refusal :=
  operate (cmdWreg (a.setWidth 8)) gateAny (writeBody a n v) s

/-- `RREG a` opening `REG.READ a, n` (R95, R140). -/
def execRreg (a : Addr) (n : Nat) (s : State) : Host.Outcome State Fault Refusal :=
  operate (cmdRreg (a.setWidth 8)) gateAny (readBody a n) s

end Sys2Proof.Machine
end

