-- ==== Sys2Proof/Machine/Dispatch.lean ====
section
/-! DEFINITION. Machine/Dispatch.lean: one arm per instruction. -/

namespace Sys2Proof.Machine

def exec (i : Instr) (s : State) : Host.Outcome State Fault Refusal :=
  match i with
  | .conv r => Sys2Proof.Machine.execConv r s
  | .pwrdn => Sys2Proof.Machine.execPwrdn s
  | .cal => Sys2Proof.Machine.execCal s
  | .wreg a n v => Sys2Proof.Machine.execWreg a n v s
  | .rreg a n => Sys2Proof.Machine.execRreg a n s
  | .new => Sys2Proof.Machine.execNew s
  | .release => Sys2Proof.Machine.execRelease s
  | .intoStandby => Sys2Proof.Machine.execIntoStandby s
  | .intoSleep => Sys2Proof.Machine.execIntoSleep s
  | .intoConversion rate cont => Sys2Proof.Machine.execIntoConversion rate cont s
  | .setClock src => Sys2Proof.Machine.execSetClock src s
  | .setFormat fmt => Sys2Proof.Machine.execSetFormat fmt s
  | .setGain g => Sys2Proof.Machine.execSetGain g s
  | .calibrate kind => Sys2Proof.Machine.execCalibrate kind s
  | .readSoc => Sys2Proof.Machine.execReadSoc s
  | .readSgc => Sys2Proof.Machine.execReadSgc s
  | .readScoc => Sys2Proof.Machine.execReadScoc s
  | .readScgc => Sys2Proof.Machine.execReadScgc s
  | .readData => Sys2Proof.Machine.execReadData s
  | .readStatus => Sys2Proof.Machine.execReadStatus s

end Sys2Proof.Machine
end

