-- ==== Sys2Proof/Machine/Port.lean ====
section
/-! DEFINITION. Machine/Port.lean: the request port: taking the next request, running it, and placing one
(spec/00_scope.md R9, spec/30_encoding.md R72, R75, spec/44_mode_machine.md R145, spec/70_reset_and_hazards.md R189).
One request is outstanding at a time: a step runs it to its response before the next is taken (log entries 12 and 16). -/

namespace Sys2Proof.Machine

/-- Take the request at the head of the port, if there is one. -/
def takeRequest (s : State) : Option (Request × State) :=
  match s.pending with
  | [] => none
  | q :: rest => some (q, { s with pending := rest })

/-- Step 1 of operation entry (R145, R175): the request's `OP` is `NEW`. The step looks at `OP` alone and comes before
every other check, so before R75's, which is step 4 (DEDUCED, log entry 11; unsafe). -/
def asksNew : Request → Bool
  | .hreq w => hostOp w == opNew
  | .frame _ => false
  | .evalState _ => false

/-- Run a request that is not an instruction: a host-side evaluation (R171), or a reserved request (R75). -/
def runOther : Request → State → State
  | .evalState v => evalState v
  | q => answerReserved q

/-- Run a request (R145): as `NEW` if its `OP` says so, and otherwise as its instruction if it decodes to one. -/
def runRequest (q : Request) (s : State) : Host.Outcome State Fault Refusal :=
  if asksNew q then exec .new s
  else match decode s.cfg q with
    | .ok i => exec i s
    | .error _ => accept (runOther q) s

/-- Put a request at the head of the port. -/
def placeRequest (q : Request) (s : State) : State := { s with pending := q :: s.pending }

end Sys2Proof.Machine
end

