-- ==== Sys2Proof/Machine/Step.lean ====
section
/-! DEFINITION. Machine/Step.lean: one step of the machine runs one request to its response (spec/00_scope.md R9,
spec/10_state.md R18). -/

namespace Sys2Proof.Machine

/-- One step. Without a request the block has no step (R4). -/
def step (s : State) : Host.Outcome State Fault Refusal :=
  match takeRequest s with
  | none => .fault .noRequestOutstanding
  | some (q, s') => runRequest q s'

/-- The state with the opcode-table word as the next request (the host issues it: log entry 10). -/
def State.withFetchWord (s : State) (nbits w : Nat) : State := placeRequest (tableRequest s.cfg nbits w) s

end Sys2Proof.Machine
end

