-- ==== Sys2Proof/Safety.lean ====
section
/-! DEFINITION. Safety.lean: the terms claims are made in. When the block serves a request, the legality table
(spec/44_mode_machine.md R146), call counts (R165), the machine's invariant, and a successful run
(spec/70_reset_and_hazards.md R199). -/

namespace Sys2Proof.Machine

/-- The block executes requests: well-formed `Cfg` (R8), a transport that returns from every call (R56), alive (R15)
and no fault latched (R16). -/
def Serving (s : State) : Prop :=
  s.cfg.wf = true ∧ s.hangAfter = none ∧ s.alive = true ∧ s.fault = none

/-- The legality table of R146, with the wire instructions, which it does not gate, and `NEW`, which needs no live
handle (R73), legal in every mode. -/
def legalInMode (cfg : Cfg) : Instr → Mode → Bool
  | .conv _, _ => true
  | .pwrdn, _ => true
  | .cal, _ => true
  | .wreg _ _ _, _ => true
  | .rreg _ _, _ => true
  | .new, _ => true
  | .release, _ => true
  | .intoStandby, m => m != .conversion || cfg.allowConvExit
  | .intoSleep, m => m != .conversion || cfg.allowConvExit
  | .intoConversion _ _, m => m != .conversion
  | .setClock _, m => m != .conversion
  | .setFormat _, m => m != .conversion
  | .setGain _, m => m != .conversion
  | .calibrate _, m => m != .conversion
  | .readSoc, m => m != .conversion
  | .readSgc, m => m != .conversion
  | .readScoc, m => m != .conversion
  | .readScgc, m => m != .conversion
  | .readData, m => m == .conversion
  | .readStatus, _ => true

/-- The code recorded for an instruction: the `OP` code of R73, or the command byte of R70 (log entry 4). -/
def instrCode (cfg : Cfg) (i : Instr) : Byte := requestOp (encode cfg i)

/-- The fewest and the most transport calls of an operation in which no error occurs (R144, R165). -/
def callCounts : Instr → Nat × Nat
  | .new => (0, 0)
  | .release => (0, 0)
  | .intoStandby => (2, 3)
  | .intoSleep => (2, 3)
  | .intoConversion _ _ => (2, 3)
  | .calibrate _ => (2, 3)
  | .setClock _ => (1, 2)
  | .setFormat _ => (1, 2)
  | .setGain _ => (1, 2)
  | .conv _ => (1, 1)
  | .pwrdn => (1, 1)
  | .cal => (1, 1)
  | .wreg _ _ _ => (1, 1)
  | .rreg _ _ => (1, 1)
  | .readSoc => (1, 1)
  | .readSgc => (1, 1)
  | .readScoc => (1, 1)
  | .readScgc => (1, 1)
  | .readData => (1, 1)
  | .readStatus => (1, 1)

/-- A transport call, as opposed to a delay (R57). -/
def BusEvent.isCall : BusEvent → Bool
  | .w _ _ => true
  | .x _ _ => true
  | .d _ => false

/-- A call that returned `Ok`, or a delay (R57). -/
def BusEvent.succeeded : BusEvent → Bool
  | .w _ (.ok _) => true
  | .x _ (.ok _) => true
  | .d _ => true
  | .w _ (.err _) => false
  | .x _ (.err _) => false

/-- A call that returned `Err(e)`. -/
def BusEvent.failedWith (e : TransportError) : BusEvent → Bool
  | .w _ (.err e') => e' == e
  | .x _ (.err e') => e' == e
  | _ => false

/-- A register write frame (R65): a `W` event whose command byte opens one. -/
def BusEvent.isRegWrite (cfg : Cfg) : BusEvent → Bool
  | .w (c :: _) _ =>
    match classify cfg c with
    | .regAccess _ false => true
    | _ => false
  | _ => false

/-- The event has one of the three frame shapes (R63 to R65), with a command byte of one of the five classes (R70):
what was sent decodes, and a read frame goes out by exchange, every other frame by write. -/
def BusEvent.legal (cfg : Cfg) : BusEvent → Bool
  | .w bs _ =>
    match decodeFrame cfg bs with
    | .ok (.rreg _ _) => false
    | .ok _ => true
    | .error _ => false
  | .x bs _ =>
    match decodeFrame cfg bs with
    | .ok (.rreg _ _) => true
    | _ => false
  | .d _ => true

/-- The number of transport calls in a log (R57). -/
def callsIn (es : List BusEvent) : Nat := es.countP BusEvent.isCall

/-- What every step keeps: a well-formed `Cfg`, canonical mock registers, a call index that counts the log's calls
(R59), a log of legal frames only (R71), nothing of an operation left over (R18), and a latch that never holds the
fault R166 says is not latched. -/
structure State.Inv (s : State) : Prop where
  cfgWf : s.cfg.wf = true
  devWf : s.dev.wf = true
  callIndex : s.calls = callsIn s.log
  framesLegal : ∀ e ∈ s.log, e.legal s.cfg = true
  idle : s.op = Transient.idle
  latch : s.fault ≠ some .notAlive

/-- A run ended (R199): every request was answered, so none is at the port and no operation is outstanding. A run whose
transport never returns does not end: its request stays at the port, and there is no step (R195). -/
def RunEnded (s : State) : Prop := s.pending = [] ∧ s.op = Transient.idle

/-- A run ended successfully (R199): it ended, with no fault latched and no response `Faulted`. -/
def RunSucceeded (s : State) : Prop :=
  RunEnded s ∧ s.fault = none ∧ ∀ r, Response.faulted r ∉ s.responses

/-- Everything but the bus log, the call index, the transient state and what the environment changes when it answers
a call is as it was. -/
structure BusOnly (s t : State) : Prop where
  cfg : t.cfg = s.cfg
  alive : t.alive = s.alive
  mode : t.mode = s.mode
  fault : t.fault = s.fault
  causes : t.causes = s.causes
  pending : t.pending = s.pending
  responses : t.responses = s.responses
  peer : t.peer = s.peer
  hangAfter : t.hangAfter = s.hangAfter
  failAt : t.failAt = s.failAt
  failValue : t.failValue = s.failValue
  failApplies : t.failApplies = s.failApplies

/-- The command byte of a register read, `0b11 ∥ a[4:0] ∥ 1`, straight from the frame table of R64. -/
def rdByte (a : Addr) : Byte := 3#2 ++ a ++ 1#1

/-- The command byte of a register write, `0b11 ∥ a[4:0] ∥ 0`, straight from the frame table of R65. -/
def wrByte (a : Addr) : Byte := 3#2 ++ a ++ 0#1

/-- The environment is the oracle of R56 and its next answers are these. -/
def Answers (s : State) (rs : List (Answer Received)) : Prop := s.peer = .oracle ∧ s.script = rs

/-- The environment is the mock device of R58 and fails no call from here on. -/
def MockReady (s : State) : Prop := s.peer = .mock ∧ s.failAt = none

/-- The next request is an instruction of the table. -/
def NextIs (s : State) (i : Instr) : Prop := ∃ q rest, s.pending = q :: rest ∧ decode s.cfg q = .ok i

/-- The next request's `OP` is that of `NEW`, whatever its `ARG` (R145 step 1). -/
def NextAsksNew (s : State) : Prop := ∃ w rest, s.pending = .hreq w :: rest ∧ hostOp w = 0x00

/-- A request that operation entry checks (R145 steps 2 to 6): neither `NEW` nor a host-side evaluation (R171). -/
def Entered (q : Request) : Prop :=
  (∀ w, q = .hreq w → hostOp w ≠ 0x00) ∧ ∀ v, q ≠ .evalState v

/-- The cells of a register (R36). -/
def inRegister (a : Addr) (k : Nat) : Prop := 4 * a.toNat ≤ k ∧ k < 4 * a.toNat + 4

end Sys2Proof.Machine
end

