-- ==== Sys2Proof/Certificates/Slice0/Obligations.lean ====
section
/-! DEFINITION. Certificates/Slice0/Obligations.lean: the statements for the provers. Every statement quantifies over
all states, so over every `Cfg`; a default of R7 occurs only where a reset state or a written-out word does. -/

open Sys2Proof Sys2Proof.Machine

/-! Encoding and decoding. -/

/-- Every operand of every well-formed instruction survives encoding (R60 to R77). -/
def Obligations.DecodeOfEncodeIsInstruction : Prop :=
  ∀ (cfg : Cfg) (i : Instr), cfg.wf = true → i.wellFormed = true → decode cfg (encode cfg i) = .ok i

/-- Every request has at most one meaning: what decodes is well formed and encodes to the same request (R72, R76). -/
def Obligations.EncodeOfDecodeIsRequest : Prop :=
  ∀ (cfg : Cfg) (q : Request) (i : Instr), cfg.wf = true → decode cfg q = .ok i →
    encode cfg i = q ∧ i.wellFormed = true

/-- A few words of R70 and R73, written out from their tables, at the default `Cfg` (log entry 2). -/
def Obligations.WrittenOutWordsDecode : Prop :=
  decode Cfg.default (.hreq 0b0001001000011001) = .ok (.intoConversion .rate9 true) ∧
  decode Cfg.default (.hreq 0b0010001000001011) = .ok (.setGain (some .x8)) ∧
  decode Cfg.default (.hreq 0b0010001100000010) = .ok (.calibrate .systemFullScale) ∧
  decode Cfg.default (.hreq 0b0011010000000000) = .ok .readData ∧
  decode Cfg.default (.frame [0b10001001]) = .ok (.conv 9) ∧
  decode Cfg.default (.frame [0b11000011, 0]) = .ok (.rreg 1 1) ∧
  decode Cfg.default (.frame [0b11001110, 0x12, 0x34, 0x56]) = .ok (.wreg 7 3 0x123456)

/-- Which request words are host operations (R73, R75): the `OP` codes with their `ARG` layouts, and nothing else. -/
def Obligations.HostWordsAreTableRows : Prop :=
  ∀ w : BitVec 16, (∃ i, decodeHost w = .ok i) ↔
    (hostOp w ∈ [0x00, 0x01, 0x10, 0x11, 0x30, 0x31, 0x32, 0x33, 0x34, 0x35] ∧ hostArg w = 0) ∨
    (hostOp w = 0x12 ∧ hostArg w &&& 0xE0 = 0) ∨
    (hostOp w ∈ [0x20, 0x21] ∧ hostArg w &&& 0xFE = 0) ∨
    (hostOp w = 0x22 ∧ hostArg w &&& 0xF0 = 0 ∧ (hostArg w &&& 0x08 = 0 → hostArg w &&& 0x07 = 0)) ∨
    (hostOp w = 0x23 ∧ hostArg w &&& 0xFC = 0 ∧ hostArg w ≠ 3)

/-- The five command bytes, and that the classifier tells them apart for every well-formed `Cfg` (R77, R91 to R95,
R97). -/
def Obligations.ClassifyInvertsEncoder : Prop :=
  ∀ cfg : Cfg, cfg.wf = true →
    (∀ r, cmdConv r = 8#4 ++ r) ∧ cmdPwrdn cfg = cfg.cmdPd ∧ cmdCal cfg = cfg.cmdCal ∧
    (∀ a : Byte, cmdWreg a = wrByte (a.extractLsb' 0 5) ∧ cmdRreg a = rdByte (a.extractLsb' 0 5)) ∧
    (∀ r, classify cfg (cmdConv r) = .convert r) ∧
    classify cfg (cmdPwrdn cfg) = .powerDown ∧
    classify cfg (cmdCal cfg) = .calibrate ∧
    (∀ a : Byte, classify cfg (cmdWreg a) = .regAccess (a.extractLsb' 0 5) false) ∧
    (∀ a : Byte, classify cfg (cmdRreg a) = .regAccess (a.extractLsb' 0 5) true)

/-- The fixed bits of every command byte (R96). -/
def Obligations.CommandByteStartAndModeBits : Prop :=
  ∀ cfg : Cfg, cfg.wf = true → ∀ (r : BitVec 4) (a : Byte),
    (cmdConv r).getLsbD 7 = true ∧ (cmdPwrdn cfg).getLsbD 7 = true ∧ (cmdCal cfg).getLsbD 7 = true ∧
    (cmdWreg a).getLsbD 7 = true ∧ (cmdRreg a).getLsbD 7 = true ∧
    (cmdWreg a).getLsbD 6 = true ∧ (cmdRreg a).getLsbD 6 = true ∧
    (cmdConv r).getLsbD 6 = false ∧ (cmdPwrdn cfg).getLsbD 6 = false ∧ (cmdCal cfg).getLsbD 6 = false

/-- An address above 5 bits truncates silently, and a read command is the write command with bit 0 set
(R94, R95). -/
def Obligations.OverWideAddressTruncates : Prop :=
  ∀ a : Byte, cmdWreg a = cmdWreg (a &&& 0x1F) ∧ cmdRreg a = cmdWreg a ||| 1 ∧
    cmdWreg a = 3#2 ++ a.extractLsb' 0 5 ++ 0#1

/-! The combinational sub-blocks. -/

/-- The wire order of a value is most significant byte first (R41). -/
def Obligations.ValuesTravelBigEndian : Prop :=
  ∀ v : BitVec 32,
    beBytes 1 v = [v.extractLsb' 0 8] ∧
    beBytes 2 v = [v.extractLsb' 8 8, v.extractLsb' 0 8] ∧
    beBytes 3 v = [v.extractLsb' 16 8, v.extractLsb' 8 8, v.extractLsb' 0 8] ∧
    beBytes 4 v = [v.extractLsb' 24 8, v.extractLsb' 16 8, v.extractLsb' 8 8, v.extractLsb' 0 8] ∧
    beValue (beBytes 4 v) = v

/-- The two widenings of a 24-bit value agree below 2^23 and differ by 2^24 from there on (R86 (b), (f)). -/
def Obligations.Value24Widening : Prop :=
  ∀ b0 b1 b2 : Byte,
    (Value24.fromBe b0 b1 b2).toU32 =
      (b0.setWidth 32 <<< 16) ||| (b1.setWidth 32 <<< 8) ||| b2.setWidth 32 ∧
    (Value24.fromBe b0 b1 b2).toU32.toNat = b0.toNat * 65536 + b1.toNat * 256 + b2.toNat ∧
    (Value24.fromBe b0 b1 b2).toI32.toInt =
      (if (Value24.fromBe b0 b1 b2).toU32.toNat < 8388608 then
        ((Value24.fromBe b0 b1 b2).toU32.toNat : Int)
      else ((Value24.fromBe b0 b1 b2).toU32.toNat : Int) - 16777216)

/-- The 24-bit codec loses nothing (R86 (a), (c)). -/
def Obligations.Value24RoundTrips : Prop :=
  (∀ b0 b1 b2 : Byte, (Value24.fromBe b0 b1 b2).toBe = [b0, b1, b2]) ∧
  (∀ v : Value24, Value24.fromU32 v.toU32 = v) ∧
  (∀ w : BitVec 32, (Value24.fromU32 w).toU32 = w &&& 0x00FFFFFF)

/-- `CTRL1.WITH_POWER` bit by bit (R107). -/
def Obligations.WithPowerSetsPowerBits : Prop :=
  ∀ (cfg : Cfg) (v : Ctrl) (m : Mode) (j : Nat), cfg.wf = true → j < 8 →
    (withPower cfg v m).getLsbD j =
      if j = cfg.c1Pd1.val then decide (m = .standby)
      else if j = cfg.c1Pd0.val then decide (m = .sleep)
      else v.getLsbD j

/-- Each setting function of the control registers drives the bits it names and no other (R108 to R116,
R130 (b)). -/
def Obligations.SettingFunctionsChangeOnlyTheirBits : Prop :=
  ∀ (cfg : Cfg) (v : Ctrl) (j : Nat), cfg.wf = true → j < 8 →
    (∀ cont, (withContinuous cfg v cont).getLsbD j =
      if j = cfg.c1Scycle.val then (cont == cfg.scycleWhenContinuous) else v.getLsbD j) ∧
    (∀ src, (withClock cfg v src).getLsbD j =
      if j = cfg.c1Extck.val then (decide (src = .externalClock) == cfg.extckExternal) else v.getLsbD j) ∧
    (∀ fmt, (withFormat cfg v fmt).getLsbD j =
      if j = cfg.c1Format.val then (decide (fmt = .offsetBinary) == cfg.formatOffsetBinary) else v.getLsbD j) ∧
    (∀ g, (withGain cfg v (some g)).getLsbD j =
      if j = cfg.c2Pgaen.val then true
      else if cfg.c2PgagLsb.val ≤ j ∧ j < cfg.c2PgagLsb.val + 3 then g.code.getLsbD (j - cfg.c2PgagLsb.val)
      else v.getLsbD j) ∧
    (withGain cfg v none).getLsbD j = (if j = cfg.c2Pgaen.val then false else v.getLsbD j) ∧
    (∀ k : CalKind, (withCal cfg v k).getLsbD j =
      if cfg.c5CalLsb.val ≤ j ∧ j < cfg.c5CalLsb.val + 2 then (k.code cfg).getLsbD (j - cfg.c5CalLsb.val)
      else v.getLsbD j)

/-- Each accessor reads back what its setting function wrote (R130 (d)). -/
def Obligations.AccessorsReadBackSettings : Prop :=
  ∀ (cfg : Cfg) (v : Ctrl), cfg.wf = true →
    (∀ src, ctrl1Clock cfg (withClock cfg v src) = src) ∧
    (∀ fmt, ctrl1Format cfg (withFormat cfg v fmt) = fmt) ∧
    (∀ g, ctrl2Gain cfg (withGain cfg v g) = g) ∧
    (∀ k, calKindOfCode cfg (ctrl5Cal cfg (withCal cfg v k)) = some k) ∧
    ctrl1Power cfg (withPower cfg v .standby) = (true, false) ∧
    ctrl1Power cfg (withPower cfg v .sleep) = (false, true) ∧
    ctrl1Power cfg (withPower cfg v .conversion) = (false, false)

/-- The six flags each read one bit, and the rate field is the rate of its four-bit code (R119 to R125). -/
def Obligations.StatusFlagsAndRateReadTheirBits : Prop :=
  ∀ (cfg : Cfg) (s : StatusView),
    statRdy cfg s = s.getLsbD cfg.stRdy ∧ statMstat cfg s = s.getLsbD cfg.stMstat ∧
    statDor cfg s = s.getLsbD cfg.stDor ∧ statSysgor cfg s = s.getLsbD cfg.stSysgor ∧
    statAor cfg s = s.getLsbD cfg.stAor ∧ statRderr cfg s = s.getLsbD cfg.stRderr ∧
    statRate cfg s = rateOfCode (s.extractLsb' cfg.stRateLsb 4) ∧
    (statRate cfg s).code = s.extractLsb' cfg.stRateLsb 4

/-- The power-state field has a value on three of its four codes and none on the fourth (R27, R118). -/
def Obligations.PowerStateFieldDecodes : Prop :=
  ∀ (cfg : Cfg) (s : StatusView),
    (statState cfg s = some .conversion ↔ s.extractLsb' cfg.stPdLsb 2 = 0) ∧
    (statState cfg s = some .powerDown ↔ s.extractLsb' cfg.stPdLsb 2 = 1) ∧
    (statState cfg s = some .standby ↔ s.extractLsb' cfg.stPdLsb 2 = 2) ∧
    (statState cfg s = none ↔ s.extractLsb' cfg.stPdLsb 2 = 3)

/-- One code table serves the conversion command and the status rate field, so that a device which reports the rate
it was commanded reports the host's own (R98). -/
def Obligations.RateCodeIsShared : Prop :=
  ∀ (cfg : Cfg) (r : Rate) (s : StatusView),
    rateOfCode ((cmdConv r.code).extractLsb' 0 4) = r ∧
    statRate cfg s = rateOfCode (s.extractLsb' cfg.stRateLsb 4) ∧
    (s.extractLsb' cfg.stRateLsb 4 = r.code → statRate cfg s = r)

/-! The step, operation entry, faults and refusals. -/

/-- A step runs the instruction that the next request decodes to (R9, R145). -/
def Obligations.StepRunsDecodedInstruction : Prop :=
  ∀ (s : State) (q : Request) (rest : List Request) (i : Instr),
    s.pending = q :: rest → decode s.cfg q = .ok i → step s = exec i { s with pending := rest }

/-- `NEW` is entered by its `OP` code alone, before every other check (R145 step 1, R175): whatever `ARG`, the
liveness, the latch and the mode are. That this takes in a nonzero `ARG`, which R75 calls reserved, is log entry 11. -/
def Obligations.NewIsEnteredByItsOpCode : Prop :=
  ∀ (s : State) (w : BitVec 16) (rest : List Request),
    s.cfg.wf = true → s.pending = .hreq w :: rest → hostOp w = 0x00 →
    step s = .next { s with
      pending := rest, alive := true, mode := s.cfg.resetMode, fault := none,
      responses := s.responses ++ [.ok .empty], op := Transient.idle }

/-- A reserved request is refused with no effect on `S`, no call and no latch (R75, R170, R145 step 4). What is recorded
for a frame is the model's choice (log entry 22). -/
def Obligations.ReservedRequestIsRefused : Prop :=
  ∀ (s : State) (q : Request) (rest : List Request) (e : DecodeError),
    Serving s → s.pending = q :: rest → Entered q → decode s.cfg q = .error e →
    step s = .next { s with
      pending := rest, responses := s.responses ++ [.refused], causes := s.causes ++ [.badRequest q],
      op := Transient.idle }

/-- The block never acts on its own (R4). -/
def Obligations.NoRequestNoStep : Prop :=
  ∀ s : State, s.pending = [] → step s = .fault .noRequestOutstanding

/-- Every request is answered by exactly one response, unless the transport stops answering within the operation,
which makes at most three calls; the log and the causes only grow; the transient state is discarded; the configuration
stays (R12, R18, R50, R165). -/
def Obligations.EveryRequestIsAnswered : Prop :=
  ∀ (s : State) (q : Request) (rest : List Request),
    s.cfg.wf = true → (s.hangAfter = none ∨ ∃ k, s.hangAfter = some k ∧ 3 ≤ k) → s.pending = q :: rest →
    ∃ u r, step s = .next u ∧ u.responses = s.responses ++ [r] ∧ u.pending = rest ∧ u.cfg = s.cfg ∧
      u.op = Transient.idle ∧ s.log <+: u.log ∧ s.causes <+: u.causes

/-- A block that is not alive answers every request but `NEW`, reserved or not, with `Faulted(NotAlive)` and latches
nothing (R15, R145 step 2, R173). What stands for the `OP` code of a frame is the model's choice (log entry 4). -/
def Obligations.NotAliveAnswersFaulted : Prop :=
  (∀ (s : State) (q : Request) (rest : List Request),
    s.cfg.wf = true → s.alive = false → s.pending = q :: rest → Entered q →
    step s = .next { s with
      pending := rest, responses := s.responses ++ [.faulted .notAlive],
      causes := s.causes ++ [.notAlive (requestOp q)], op := Transient.idle }) ∧
  ∀ (s : State) (i : Instr), i ≠ .new → s.cfg.wf = true → s.alive = false →
    exec i s = .next { s with
      responses := s.responses ++ [.faulted .notAlive],
      causes := s.causes ++ [.notAlive (instrCode s.cfg i)], op := Transient.idle }

/-- A latched fault answers every request but `NEW`, reserved or not, and no state changes (R16, R145 step 3, R169). -/
def Obligations.LatchedFaultAnswersEverything : Prop :=
  (∀ (s : State) (q : Request) (rest : List Request) (r : FaultReason),
    s.cfg.wf = true → s.alive = true → s.fault = some r → s.pending = q :: rest → Entered q →
    step s = .next { s with
      pending := rest, responses := s.responses ++ [.faulted r], op := Transient.idle }) ∧
  ∀ (s : State) (i : Instr) (r : FaultReason), i ≠ .new → s.cfg.wf = true → s.alive = true → s.fault = some r →
    exec i s = .next { s with responses := s.responses ++ [.faulted r], op := Transient.idle }

/-- An instruction that is illegal in the current mode latches `IllegalInMode` and sends nothing (R145 step 5,
R146, R172). -/
def Obligations.IllegalInModeLatches : Prop :=
  ∀ (s : State) (i : Instr), s.cfg.wf = true → s.alive = true → s.fault = none →
    legalInMode s.cfg i s.mode = false →
    exec i s = .next { s with
      fault := some .illegalInMode, responses := s.responses ++ [.faulted .illegalInMode],
      causes := s.causes ++ [.illegalInMode (instrCode s.cfg i) s.mode], op := Transient.idle }

/-- A register transaction whose width is not 1 to 4 is refused without a call (R140, R141, R166 row 5). -/
def Obligations.BadWidthIsRefused : Prop :=
  ∀ (s : State) (a : Addr) (n : Nat) (v : BitVec 32), Serving s → (n = 0 ∨ 4 < n) →
    exec (.rreg a n) s = .next { s with
      responses := s.responses ++ [.refused],
      causes := s.causes ++ [.badRequest (.frame (rdByte a :: List.replicate n 0))], op := Transient.idle } ∧
    exec (.wreg a n v) s = .next { s with
      responses := s.responses ++ [.refused],
      causes := s.causes ++ [.badRequest (.frame (wrByte a :: beBytes n v))], op := Transient.idle }

/-- An ill-formed `Cfg` is refused, not run (R8). -/
def Obligations.IllFormedCfgIsRefused : Prop :=
  ∀ (s : State) (i : Instr), s.cfg.wf = false → exec i s = .refused .illFormedCfg

/-- A transport call that never returns leaves the block without a step (R195; log entry 9): where the operation, on a
transport that always returns, makes more calls than this transport answers, whichever call is the first unanswered;
where it makes no more, it completes just so. An operation that makes a call at all is hung by a transport that answers
none. -/
def Obligations.HungTransportHasNoStep : Prop :=
  (∀ (s u : State) (i : Instr) (k : Nat),
    s.hangAfter = some k → exec i { s with hangAfter := none } = .next u →
    (k < u.calls - s.calls → exec i s = .fault .transportNeverReturns) ∧
    (u.calls - s.calls ≤ k → exec i s = .next { u with hangAfter := some (k - (u.calls - s.calls)) })) ∧
  ∀ (s : State) (i : Instr), s.cfg.wf = true → s.alive = true → s.fault = none →
    legalInMode s.cfg i s.mode = true → i.wellFormed = true → 1 ≤ (callCounts i).1 → s.hangAfter = some 0 →
    exec i s = .fault .transportNeverReturns

/-- The host's evaluation of `STAT.STATE` (R118, R171): a value, or the fault, latched in a live block that holds
none. -/
def Obligations.EvaluatingReservedCodeFaults : Prop :=
  ∀ (s : State) (v : StatusView) (rest : List Request),
    s.cfg.wf = true → s.hangAfter = none → s.pending = .evalState v :: rest →
    (∀ p, statState s.cfg v = some p →
      step s = .next { s with
        pending := rest, responses := s.responses ++ [.ok (.power p)], op := Transient.idle }) ∧
    (v.extractLsb' s.cfg.stPdLsb 2 = 3 →
      step s = .next { s with
        pending := rest, responses := s.responses ++ [.faulted .reservedPowerState],
        causes := s.causes ++ [.reservedPowerState v], op := Transient.idle,
        fault := if s.alive = true ∧ s.fault = none then some .reservedPowerState else s.fault })

/-! Ownership and reset. -/

/-- `NEW` re-initialises the block in every state, without bus traffic (R162, R185, R33). -/
def Obligations.NewReinitialisesBlock : Prop :=
  ∀ s : State, s.cfg.wf = true →
    exec .new s = .next { s with
      alive := true, mode := s.cfg.resetMode, fault := none, responses := s.responses ++ [.ok .empty],
      op := Transient.idle }

/-- `NEW` from power-on, whatever the mode's value before it, gives the reset state (R33, R186). -/
def Obligations.NewFromPowerOnIsReset : Prop :=
  ∀ m : Mode, exec .new (State.powerOn m) = .next State.reset

/-- `RELEASE` gives the transport back without bus traffic (R161). -/
def Obligations.ReleaseGivesUpTransport : Prop :=
  ∀ s : State, Serving s →
    exec .release s = .next { s with
      alive := false, responses := s.responses ++ [.ok .empty], op := Transient.idle }

/-! The wire instructions. -/

/-- `CMD.SEND` is one write of one frame, whatever the environment: what the environment answers to that call is what
is logged and what is returned, unchanged, and nothing of the block changes (R139). -/
def Obligations.CommandSendIsOneFrame : Prop :=
  ∀ (c : Byte) (s : State),
    (∀ w, callResult (.write [c]) s = .ok w →
      (cmdSend c s).2 = .ok () ∧ (cmdSend c s).1.log = s.log ++ [.w [c] (.ok ())]) ∧
    (∀ e, callResult (.write [c]) s = .err e →
      (cmdSend c s).2 = .err e ∧ (cmdSend c s).1.log = s.log ++ [.w [c] (.err e)]) ∧
    (cmdSend c s).1.calls = s.calls + 1 ∧ BusOnly s (cmdSend c s).1 ∧ (cmdSend c s).1.now = s.now

/-- `CONV`, `PWRDN` and `CAL` send their one command byte (R91 to R93, R139). -/
def Obligations.CommandIsSentAlone : Prop :=
  ∀ (s : State) (i : Instr) (c : Byte) (w : Received) (rest : List (Answer Received)),
    (i, c) ∈ [(.pwrdn, s.cfg.cmdPd), (.cal, s.cfg.cmdCal)] ∨ (∃ r : BitVec 4, i = .conv r ∧ c = 8#4 ++ r) →
    Serving s → Answers s (.ok w :: rest) →
    exec i s = .next { s with
      script := rest, calls := s.calls + 1, log := s.log ++ [.w [c] (.ok ())],
      responses := s.responses ++ [.ok .empty], op := Transient.idle }

/-- `REG.READ` sends the placeholders and returns the bytes after the echo (R64, R140). -/
def Obligations.RegisterReadReturnsBytesAfterEcho : Prop :=
  ∀ (s : State) (a : Addr) (w : Received) (rest : List (Answer Received)),
    Serving s → Answers s (.ok w :: rest) →
    exec (.rreg a 1) s = .next { s with
      script := rest, calls := s.calls + 1, log := s.log ++ [.x [rdByte a, 0] (.ok [w.r0, w.r1])],
      responses := s.responses ++ [.ok (.raw 1 (w.r1.setWidth 32))], op := Transient.idle } ∧
    exec (.rreg a 2) s = .next { s with
      script := rest, calls := s.calls + 1, log := s.log ++ [.x [rdByte a, 0, 0] (.ok [w.r0, w.r1, w.r2])],
      responses := s.responses ++ [.ok (.raw 2 ((w.r1 ++ w.r2).setWidth 32))], op := Transient.idle } ∧
    exec (.rreg a 3) s = .next { s with
      script := rest, calls := s.calls + 1,
      log := s.log ++ [.x [rdByte a, 0, 0, 0] (.ok [w.r0, w.r1, w.r2, w.r3])],
      responses := s.responses ++ [.ok (.raw 3 ((w.r1 ++ w.r2 ++ w.r3).setWidth 32))], op := Transient.idle } ∧
    exec (.rreg a 4) s = .next { s with
      script := rest, calls := s.calls + 1,
      log := s.log ++ [.x [rdByte a, 0, 0, 0, 0] (.ok [w.r0, w.r1, w.r2, w.r3, w.r4])],
      responses := s.responses ++ [.ok (.raw 4 (w.r1 ++ w.r2 ++ w.r3 ++ w.r4))], op := Transient.idle }

/-- `REG.WRITE` sends the value's bytes, most significant first (R65, R141). -/
def Obligations.RegisterWriteSendsValueBytes : Prop :=
  ∀ (s : State) (a : Addr) (n : Nat) (v : BitVec 32) (w : Received) (rest : List (Answer Received)),
    Serving s → 1 ≤ n → n ≤ 4 → Answers s (.ok w :: rest) →
    exec (.wreg a n v) s = .next { s with
      script := rest, calls := s.calls + 1, log := s.log ++ [.w (wrByte a :: beBytes n v) (.ok ())],
      responses := s.responses ++ [.ok .empty], op := Transient.idle }

/-! The mode transitions. -/

/-- `INTO_STANDBY` and `INTO_SLEEP` (R148, R149): read `CTRL1`, write it only if the power bits change, send the
power-down command, then set the tag; the first error ends the operation with the tag as it was; where the mode makes
them illegal, the mode gate's fault (R145 step 5, R146, R166, R172; the spec's decisions D18 and D19, log entry 20). -/
def Obligations.IntoStandbyAndSleepResult : Prop :=
  ∀ (s : State) (i : Instr) (m : Mode) (c : Byte) (rx w1 w2 : Received) (e : TransportError)
      (rest : List (Answer Received)),
    (i, m, c) ∈ [(Instr.intoStandby, Mode.standby, 0x10), (Instr.intoSleep, Mode.sleep, 0x11)] → Serving s →
    (s.mode = .conversion → s.cfg.allowConvExit = false →
      exec i s = .next { s with
        fault := some .illegalInMode, causes := s.causes ++ [.illegalInMode c .conversion],
        responses := s.responses ++ [.faulted .illegalInMode], op := Transient.idle }) ∧
    ((s.mode ≠ .conversion ∨ s.cfg.allowConvExit = true) →
    (withPower s.cfg rx.r1 m ≠ rx.r1 → Answers s (.ok rx :: .ok w1 :: .ok w2 :: rest) →
      exec i s = .next { s with
        mode := m, script := rest, calls := s.calls + 3,
        log := s.log ++ [.x [rdByte s.cfg.aCtrl1, 0] (.ok [rx.r0, rx.r1]),
          .w [wrByte s.cfg.aCtrl1, withPower s.cfg rx.r1 m] (.ok ()), .w [s.cfg.cmdPd] (.ok ())],
        responses := s.responses ++ [.ok .empty], op := Transient.idle }) ∧
    (withPower s.cfg rx.r1 m = rx.r1 → Answers s (.ok rx :: .ok w2 :: rest) →
      exec i s = .next { s with
        mode := m, script := rest, calls := s.calls + 2,
        log := s.log ++ [.x [rdByte s.cfg.aCtrl1, 0] (.ok [rx.r0, rx.r1]), .w [s.cfg.cmdPd] (.ok ())],
        responses := s.responses ++ [.ok .empty], op := Transient.idle }) ∧
    (Answers s (.err e :: rest) →
      exec i s = .next { s with
        script := rest, calls := s.calls + 1, log := s.log ++ [.x [rdByte s.cfg.aCtrl1, 0] (.err e)],
        causes := s.causes ++ [.transportError e], responses := s.responses ++ [.err e], op := Transient.idle }) ∧
    (withPower s.cfg rx.r1 m ≠ rx.r1 → Answers s (.ok rx :: .err e :: rest) →
      exec i s = .next { s with
        script := rest, calls := s.calls + 2,
        log := s.log ++ [.x [rdByte s.cfg.aCtrl1, 0] (.ok [rx.r0, rx.r1]),
          .w [wrByte s.cfg.aCtrl1, withPower s.cfg rx.r1 m] (.err e)],
        causes := s.causes ++ [.transportError e], responses := s.responses ++ [.err e], op := Transient.idle }) ∧
    (withPower s.cfg rx.r1 m ≠ rx.r1 → Answers s (.ok rx :: .ok w1 :: .err e :: rest) →
      exec i s = .next { s with
        script := rest, calls := s.calls + 3,
        log := s.log ++ [.x [rdByte s.cfg.aCtrl1, 0] (.ok [rx.r0, rx.r1]),
          .w [wrByte s.cfg.aCtrl1, withPower s.cfg rx.r1 m] (.ok ()), .w [s.cfg.cmdPd] (.err e)],
        causes := s.causes ++ [.transportError e], responses := s.responses ++ [.err e], op := Transient.idle }) ∧
    (withPower s.cfg rx.r1 m = rx.r1 → Answers s (.ok rx :: .err e :: rest) →
      exec i s = .next { s with
        script := rest, calls := s.calls + 2,
        log := s.log ++ [.x [rdByte s.cfg.aCtrl1, 0] (.ok [rx.r0, rx.r1]), .w [s.cfg.cmdPd] (.err e)],
        causes := s.causes ++ [.transportError e], responses := s.responses ++ [.err e], op := Transient.idle }))

/-- `INTO_CONVERSION` (R150): the rate is carried by the command byte `0x80 | rate`. -/
def Obligations.IntoConversionResult : Prop :=
  ∀ (s : State) (rate : Rate) (cont : Bool) (rx w1 w2 : Received) (rest : List (Answer Received)),
    Serving s → s.mode ≠ .conversion →
    (withContinuous s.cfg (withPower s.cfg rx.r1 .conversion) cont ≠ rx.r1 →
      Answers s (.ok rx :: .ok w1 :: .ok w2 :: rest) →
      exec (.intoConversion rate cont) s = .next { s with
        mode := .conversion, script := rest, calls := s.calls + 3,
        log := s.log ++ [.x [rdByte s.cfg.aCtrl1, 0] (.ok [rx.r0, rx.r1]),
          .w [wrByte s.cfg.aCtrl1, withContinuous s.cfg (withPower s.cfg rx.r1 .conversion) cont] (.ok ()),
          .w [8#4 ++ rate.code] (.ok ())],
        responses := s.responses ++ [.ok .empty], op := Transient.idle }) ∧
    (withContinuous s.cfg (withPower s.cfg rx.r1 .conversion) cont = rx.r1 →
      Answers s (.ok rx :: .ok w2 :: rest) →
      exec (.intoConversion rate cont) s = .next { s with
        mode := .conversion, script := rest, calls := s.calls + 2,
        log := s.log ++ [.x [rdByte s.cfg.aCtrl1, 0] (.ok [rx.r0, rx.r1]), .w [8#4 ++ rate.code] (.ok ())],
        responses := s.responses ++ [.ok .empty], op := Transient.idle })

/-! The configuration operations. -/

/-- `SET_CLOCK`, `SET_FORMAT`, `SET_GAIN` (R151 to R153): one read, one write only if the value changes, no
command. -/
def Obligations.SettingResult : Prop :=
  ∀ (s : State) (i : Instr) (a : Addr) (f : Byte → Byte) (rx w1 : Received) (rest : List (Answer Received)),
    ((∃ src, i = .setClock src ∧ a = s.cfg.aCtrl1 ∧ f = fun v => withClock s.cfg v src) ∨
     (∃ fmt, i = .setFormat fmt ∧ a = s.cfg.aCtrl1 ∧ f = fun v => withFormat s.cfg v fmt) ∨
     (∃ g, i = .setGain g ∧ a = s.cfg.aCtrl2 ∧ f = fun v => withGain s.cfg v g)) →
    Serving s → s.mode ≠ .conversion →
    (f rx.r1 ≠ rx.r1 → Answers s (.ok rx :: .ok w1 :: rest) →
      exec i s = .next { s with
        script := rest, calls := s.calls + 2,
        log := s.log ++ [.x [rdByte a, 0] (.ok [rx.r0, rx.r1]), .w [wrByte a, f rx.r1] (.ok ())],
        responses := s.responses ++ [.ok .empty], op := Transient.idle }) ∧
    (f rx.r1 = rx.r1 → Answers s (.ok rx :: rest) →
      exec i s = .next { s with
        script := rest, calls := s.calls + 1,
        log := s.log ++ [.x [rdByte a, 0] (.ok [rx.r0, rx.r1])],
        responses := s.responses ++ [.ok .empty], op := Transient.idle })

/-- `CALIBRATE` (R154): update `CTRL5`, send the calibrate command, wait the settle time, then respond. -/
def Obligations.CalibrateResult : Prop :=
  ∀ (s : State) (k : CalKind) (rx w1 w2 : Received) (rest : List (Answer Received)),
    Serving s → s.mode ≠ .conversion →
    (withCal s.cfg rx.r1 k ≠ rx.r1 → Answers s (.ok rx :: .ok w1 :: .ok w2 :: rest) →
      exec (.calibrate k) s = .next { s with
        script := rest, calls := s.calls + 3,
        now := s.now + (if k = .selfCal then s.cfg.tSelfMs else s.cfg.tSysMs),
        log := s.log ++ [.x [rdByte s.cfg.aCtrl5, 0] (.ok [rx.r0, rx.r1]),
          .w [wrByte s.cfg.aCtrl5, withCal s.cfg rx.r1 k] (.ok ()), .w [s.cfg.cmdCal] (.ok ()),
          .d (if k = .selfCal then s.cfg.tSelfMs else s.cfg.tSysMs)],
        responses := s.responses ++ [.ok .empty], op := Transient.idle }) ∧
    (withCal s.cfg rx.r1 k = rx.r1 → Answers s (.ok rx :: .ok w2 :: rest) →
      exec (.calibrate k) s = .next { s with
        script := rest, calls := s.calls + 2,
        now := s.now + (if k = .selfCal then s.cfg.tSelfMs else s.cfg.tSysMs),
        log := s.log ++ [.x [rdByte s.cfg.aCtrl5, 0] (.ok [rx.r0, rx.r1]), .w [s.cfg.cmdCal] (.ok ()),
          .d (if k = .selfCal then s.cfg.tSelfMs else s.cfg.tSysMs)],
        responses := s.responses ++ [.ok .empty], op := Transient.idle })

/-! The reads. -/

/-- The four calibration reads return the unsigned widening of their own register (R155 to R158). -/
def Obligations.CalibrationReadResult : Prop :=
  ∀ (s : State) (i : Instr) (a : Addr) (w : Received) (rest : List (Answer Received)),
    (i, a) ∈ [(Instr.readSoc, s.cfg.aSoc), (Instr.readSgc, s.cfg.aSgc), (Instr.readScoc, s.cfg.aScoc),
      (Instr.readScgc, s.cfg.aScgc)] →
    Serving s → s.mode ≠ .conversion → Answers s (.ok w :: rest) →
    exec i s = .next { s with
      script := rest, calls := s.calls + 1,
      log := s.log ++ [.x [rdByte a, 0, 0, 0] (.ok [w.r0, w.r1, w.r2, w.r3])],
      responses := s.responses ++ [.ok (.word (0#8 ++ w.r1 ++ w.r2 ++ w.r3))], op := Transient.idle }

/-- `READ_DATA` (R159): in `Conversion`, one read of `DATA`, widened unsigned, whatever the format is and without a
test of data-ready; its transport error as it came; in the other two modes the mode gate's fault (R145
step 5, R146, R166, R172; the spec's decision D19, log entry 20). -/
def Obligations.ReadDataResult : Prop :=
  ∀ (s : State) (w : Received) (e : TransportError) (rest : List (Answer Received)), Serving s →
    (s.mode = .conversion → Answers s (.ok w :: rest) →
      exec .readData s = .next { s with
        script := rest, calls := s.calls + 1,
        log := s.log ++ [.x [rdByte s.cfg.aData, 0, 0, 0] (.ok [w.r0, w.r1, w.r2, w.r3])],
        responses := s.responses ++ [.ok (.word (0#8 ++ w.r1 ++ w.r2 ++ w.r3))], op := Transient.idle }) ∧
    (s.mode = .conversion → Answers s (.err e :: rest) →
      exec .readData s = .next { s with
        script := rest, calls := s.calls + 1, log := s.log ++ [.x [rdByte s.cfg.aData, 0, 0, 0] (.err e)],
        causes := s.causes ++ [.transportError e], responses := s.responses ++ [.err e], op := Transient.idle }) ∧
    (s.mode ≠ .conversion →
      exec .readData s = .next { s with
        fault := some .illegalInMode, causes := s.causes ++ [.illegalInMode 0x34 s.mode],
        responses := s.responses ++ [.faulted .illegalInMode], op := Transient.idle })

/-- `READ_STATUS` (R160): in every mode, one read of `STAT`; the view is the raw word, whatever it holds, and the tag
stays; its transport error as it came. -/
def Obligations.ReadStatusResult : Prop :=
  ∀ (s : State) (w : Received) (e : TransportError) (rest : List (Answer Received)), Serving s →
    (Answers s (.ok w :: rest) →
      exec .readStatus s = .next { s with
        script := rest, calls := s.calls + 1,
        log := s.log ++ [.x [rdByte s.cfg.aStat, 0, 0] (.ok [w.r0, w.r1, w.r2])],
        responses := s.responses ++ [.ok (.view (w.r1 ++ w.r2))], op := Transient.idle }) ∧
    (Answers s (.err e :: rest) →
      exec .readStatus s = .next { s with
        script := rest, calls := s.calls + 1, log := s.log ++ [.x [rdByte s.cfg.aStat, 0, 0] (.err e)],
        causes := s.causes ++ [.transportError e], responses := s.responses ++ [.err e], op := Transient.idle })

/-! Errors and call counts, in every environment. -/

/-- A failing first call ends the operation (R167): one event, the error as the transport gave it, and `S` as it
was. -/
def Obligations.FirstCallFailureAborts : Prop :=
  ∀ (s : State) (i : Instr) (e : TransportError) (rest : List (Answer Received)),
    Serving s → legalInMode s.cfg i s.mode = true → i.wellFormed = true → 1 ≤ (callCounts i).1 →
    Answers s (.err e :: rest) →
    ∃ ev : BusEvent, ev.failedWith e = true ∧
      exec i s = .next { s with
        script := rest, calls := s.calls + 1, log := s.log ++ [ev],
        causes := s.causes ++ [.transportError e], responses := s.responses ++ [.err e], op := Transient.idle }

/-- A transport error ends the operation (R167): the response is `Err(e)` if and only if a call of the operation
failed with `e`; then that call is the last event, every event before it is a call that succeeded, no delay was
performed, and `S` is as it was at entry. -/
def Obligations.TransportErrorKeepsBlockState : Prop :=
  ∀ (s u : State) (i : Instr) (e : TransportError), exec i s = .next u →
    ∃ es, u.log = s.log ++ es ∧
      ((∃ ev ∈ es, ev.failedWith e = true) ↔ u.responses = s.responses ++ [.err e]) ∧
      (u.responses = s.responses ++ [.err e] →
        u.alive = s.alive ∧ u.mode = s.mode ∧ u.fault = s.fault ∧ u.now = s.now ∧
        u.causes = s.causes ++ [.transportError e] ∧
        ∃ es0 last, es = es0 ++ [last] ∧ last.failedWith e = true ∧
          ∀ ev ∈ es0, ev.isCall = true ∧ ev.succeeded = true)

/-- The calls of an operation that answers `Ok` are within R165's counts, and each of them succeeded (R144, R165,
R50). -/
def Obligations.OkOperationCallCounts : Prop :=
  ∀ (s u : State) (i : Instr) (p : Payload), exec i s = .next u → u.responses = s.responses ++ [.ok p] →
    (callCounts i).1 ≤ u.calls - s.calls ∧ u.calls - s.calls ≤ (callCounts i).2 ∧
    ∃ es, u.log = s.log ++ es ∧ (∀ ev ∈ es, ev.succeeded = true) ∧ u.calls = s.calls + callsIn es

/-- The read-modify-write writes if and only if the value changes, and stops at the first error (R142). -/
def Obligations.UpdateWritesOnlyOnChange : Prop :=
  ∀ (a : Addr) (f : Byte → Byte) (s : State) (rx w : Received) (e : TransportError) (rest : List (Answer Received)),
    (Answers s (.err e :: rest) →
      (regUpdate a f s).2 = .err e ∧ (regUpdate a f s).1.log = s.log ++ [.x [rdByte a, 0] (.err e)]) ∧
    (Answers s (.ok rx :: rest) → f rx.r1 = rx.r1 →
      (regUpdate a f s).2 = .ok () ∧
      (regUpdate a f s).1.log = s.log ++ [.x [rdByte a, 0] (.ok [rx.r0, rx.r1])]) ∧
    (Answers s (.ok rx :: .ok w :: rest) → f rx.r1 ≠ rx.r1 →
      (regUpdate a f s).2 = .ok () ∧
      (regUpdate a f s).1.log =
        s.log ++ [.x [rdByte a, 0] (.ok [rx.r0, rx.r1]), .w [wrByte a, f rx.r1] (.ok ())]) ∧
    (Answers s (.ok rx :: .err e :: rest) → f rx.r1 ≠ rx.r1 →
      (regUpdate a f s).2 = .err e ∧
      (regUpdate a f s).1.log =
        s.log ++ [.x [rdByte a, 0] (.ok [rx.r0, rx.r1]), .w [wrByte a, f rx.r1] (.err e)])

/-- A calibration that answers `Ok` ends with the calibrate command and the settle delay, in every environment
(R154). -/
def Obligations.CalibrateOkWaitsSettleTime : Prop :=
  ∀ (s u : State) (k : CalKind), exec (.calibrate k) s = .next u → u.responses = s.responses ++ [.ok .empty] →
    u.now = s.now + (if k = .selfCal then s.cfg.tSelfMs else s.cfg.tSysMs) ∧
    ∃ pre, u.log = s.log ++ (pre ++ [.w [s.cfg.cmdCal] (.ok ()),
      .d (if k = .selfCal then s.cfg.tSelfMs else s.cfg.tSysMs)])

/-! Frames, in every environment. -/

/-- The reads and the commands store nothing: every cell of the mock, the tag, the liveness, the clock, the
configuration and the failure settings are as they were; the latch changes only by the mode gate (R34, R46, R58,
R160). -/
def Obligations.ReadsAndCommandsFrame : Prop :=
  ∀ (s u : State) (i : Instr),
    i ∈ [Instr.readSoc, .readSgc, .readScoc, .readScgc, .readData, .readStatus, .pwrdn, .cal] ∨
      (∃ r, i = .conv r) ∨ (∃ a n, i = .rreg a n) →
    exec i s = .next u →
    u.cfg = s.cfg ∧ u.alive = s.alive ∧ u.mode = s.mode ∧ u.now = s.now ∧ u.pending = s.pending ∧
    u.peer = s.peer ∧ u.failAt = s.failAt ∧ u.failValue = s.failValue ∧ u.failApplies = s.failApplies ∧
    (u.fault = s.fault ∨ (s.fault = none ∧ legalInMode s.cfg i s.mode = false)) ∧
    ∀ k, u.dev.readByte k = s.dev.readByte k

/-- The operations that update a control register leave every cell outside that register alone, and of the block
they change at most the tag and, through the mode gate, the latch (R142, R163). -/
def Obligations.UpdatingOperationsFrame : Prop :=
  ∀ (s u : State) (i : Instr) (a : Addr),
    ((i = .intoStandby ∨ i = .intoSleep ∨ (∃ r c, i = .intoConversion r c) ∨ (∃ c, i = .setClock c) ∨
        (∃ f, i = .setFormat f)) ∧ a = s.cfg.aCtrl1) ∨
      ((∃ g, i = .setGain g) ∧ a = s.cfg.aCtrl2) ∨ ((∃ k, i = .calibrate k) ∧ a = s.cfg.aCtrl5) →
    exec i s = .next u →
    u.cfg = s.cfg ∧ u.alive = s.alive ∧ u.pending = s.pending ∧ u.peer = s.peer ∧ u.failAt = s.failAt ∧
    u.failValue = s.failValue ∧ u.failApplies = s.failApplies ∧
    (u.mode = s.mode ∨ i = .intoStandby ∨ i = .intoSleep ∨ ∃ r c, i = .intoConversion r c) ∧
    (u.now = s.now ∨ ∃ k, i = .calibrate k) ∧
    (u.fault = s.fault ∨ (s.fault = none ∧ legalInMode s.cfg i s.mode = false)) ∧
    ∀ k, ¬ inRegister a k → u.dev.readByte k = s.dev.readByte k

/-- A register write leaves every cell outside its register alone and nothing of the block changes (R58, R141). -/
def Obligations.RegisterWriteFrame : Prop :=
  ∀ (s u : State) (a : Addr) (n : Nat) (v : BitVec 32), exec (.wreg a n v) s = .next u →
    u.cfg = s.cfg ∧ u.alive = s.alive ∧ u.mode = s.mode ∧ u.fault = s.fault ∧ u.now = s.now ∧
    u.pending = s.pending ∧ u.peer = s.peer ∧ u.failAt = s.failAt ∧ u.failValue = s.failValue ∧
    u.failApplies = s.failApplies ∧
    ∀ k, ¬ inRegister a k → u.dev.readByte k = s.dev.readByte k

/-! The mock device. -/

/-- On the mock a register write stores its value in that register and completes (R58, R141). -/
def Obligations.MockStoresRegisterWrite : Prop :=
  ∀ (s : State) (a : Addr) (n : Nat) (v : BitVec 32),
    Serving s → MockReady s → (Instr.wreg a n v).wellFormed = true →
    ∃ u, exec (.wreg a n v) s = .next u ∧ u.dev.readReg a = v ∧
      (∀ k, ¬ inRegister a k → u.dev.readByte k = s.dev.readByte k) ∧
      u = { s with
        dev := u.dev, calls := s.calls + 1, log := s.log ++ [.w (wrByte a :: beBytes n v) (.ok ())],
        responses := s.responses ++ [.ok .empty], op := Transient.idle }

/-- The mock's injected failure of a register write (R59): the error value given, and the register written anyway if
and only if `fail_applies`. That the failing call is the one whose index is `calls` is log entry 18 (DEDUCED); the frame
request and the cells are the model's choices (log entries 4 and 7). -/
def Obligations.MockInjectedWriteFailure : Prop :=
  ∀ (s : State) (a : Addr) (n : Nat) (v : BitVec 32),
    Serving s → s.peer = .mock → s.failAt = some s.calls → (Instr.wreg a n v).wellFormed = true →
    ∃ u, exec (.wreg a n v) s = .next u ∧
      u.dev.readReg a = (if s.failApplies = true then v else s.dev.readReg a) ∧
      (∀ k, ¬ inRegister a k → u.dev.readByte k = s.dev.readByte k) ∧
      u = { s with
        dev := u.dev, calls := s.calls + 1, log := s.log ++ [.w (wrByte a :: beBytes n v) (.err s.failValue)],
        causes := s.causes ++ [.transportError s.failValue], responses := s.responses ++ [.err s.failValue],
        op := Transient.idle }

/-- On the mock a register read returns the register's low bytes, after the echo 0x00 (R58, R140). -/
def Obligations.MockAnswersRegisterRead : Prop :=
  ∀ (s : State) (a : Addr) (n : Nat), Serving s → MockReady s → 1 ≤ n → n ≤ 4 →
    ∃ sent, exec (.rreg a n) s = .next { s with
      calls := s.calls + 1, log := s.log ++ [.x sent (.ok (0 :: beBytes n (s.dev.readReg a)))],
      responses := s.responses ++ [.ok (.raw n (beValue (beBytes n (s.dev.readReg a))))], op := Transient.idle }

/-- On the mock a transition changes at most the power bits, and `INTO_CONVERSION` the single-cycle bit besides, of
`CTRL1`, and no other register (R163). -/
def Obligations.MockTransitionKeepsOtherBits : Prop :=
  ∀ (s : State) (i : Instr),
    (i = .intoStandby ∨ i = .intoSleep ∨ ∃ r c, i = .intoConversion r c) →
    Serving s → MockReady s → legalInMode s.cfg i s.mode = true →
    ∃ u, exec i s = .next u ∧ u.responses = s.responses ++ [.ok .empty] ∧
      (∀ j, j < 8 → j ≠ s.cfg.c1Pd1.val → j ≠ s.cfg.c1Pd0.val →
        (j ≠ s.cfg.c1Scycle.val ∨ i = .intoStandby ∨ i = .intoSleep) →
        (u.dev.readReg s.cfg.aCtrl1).getLsbD j = (s.dev.readReg s.cfg.aCtrl1).getLsbD j) ∧
      ∀ c, c ≠ s.cfg.aCtrl1 → u.dev.readReg c = s.dev.readReg c

/-- On the mock, repeating a `SET_*` operation at once adds one read and no write (R142, R151). -/
def Obligations.MockRepeatedSettingWritesNothing : Prop :=
  ∀ (s u : State) (i : Instr),
    (∃ src, i = .setClock src) ∨ (∃ fmt, i = .setFormat fmt) ∨ (∃ g, i = .setGain g) →
    Serving s → MockReady s → s.mode ≠ .conversion → exec i s = .next u →
    ∃ v sent got, exec i u = .next v ∧ v.log = u.log ++ [.x sent (.ok got)] ∧ v.dev = u.dev

/-! Whole-machine rules. -/

/-- A run has ended successfully if and only if its last request is answered, nothing is latched and no response was
`Faulted` (R199): a run with a request still at the port, one that hangs among them, has not ended. -/
def Obligations.RunEndsSuccessfully : Prop :=
  (∀ s u : State, step s = .next u →
    (RunSucceeded u ↔ s.pending.length = 1 ∧ u.fault = none ∧ (∀ x, Response.faulted x ∉ s.responses) ∧
      ∃ r, u.responses = s.responses ++ [r] ∧ ∀ x, r ≠ .faulted x)) ∧
  ∀ s : State, s.pending ≠ [] → ¬ RunSucceeded s

/-- The tag changes only by `NEW` or by a completed transition along an edge of the state graph (R147, R164). -/
def Obligations.ModeChangesOnlyAlongGraph : Prop :=
  ∀ s u : State, step s = .next u → u.mode ≠ s.mode →
    (NextAsksNew s ∧ u.mode = s.cfg.resetMode) ∨
    (∃ i, NextIs s i ∧ u.responses = s.responses ++ [.ok .empty] ∧ legalInMode s.cfg i s.mode = true ∧
      ((i = .intoStandby ∧ u.mode = .standby) ∨ (i = .intoSleep ∧ u.mode = .sleep) ∨
       (∃ r c, i = .intoConversion r c) ∧ s.mode ≠ .conversion ∧ u.mode = .conversion))

/-- The latch is set only from empty, by the mode gate or by the reserved power state, and cleared only by `NEW`
(R16, R169). -/
def Obligations.LatchSetOnceClearedByNew : Prop :=
  ∀ s u : State, step s = .next u → u.fault ≠ s.fault →
    (NextAsksNew s ∧ u.fault = none) ∨
    (s.fault = none ∧ s.alive = true ∧
      ((∃ i, NextIs s i ∧ legalInMode s.cfg i s.mode = false ∧ u.fault = some .illegalInMode) ∨
       (∃ v rest, s.pending = .evalState v :: rest ∧ v.extractLsb' s.cfg.stPdLsb 2 = 3 ∧
         u.fault = some .reservedPowerState)))

/-- Every step keeps the invariant: canonical registers, a call index that counts the log, only legal frames on the
bus, no operation left outstanding, a latch that never holds `NotAlive` (R18, R57, R59, R71, R166). -/
def Obligations.StepKeepsInvariant : Prop :=
  ∀ s u : State, s.Inv → step s = .next u → u.Inv

/-- The reset state meets the invariant (R33). -/
def Obligations.ResetMeetsInvariant : Prop := State.reset.Inv
end

