-- ==== Sys2Proof/Laws/Operands.lean ====
section
/-! SUPPORT. Laws/Operands.lean: the byte order helpers of Machine/Operands.lean are inverse to each other
(spec/20_memory.md R41). -/

namespace Sys2Proof

theorem beValue_append (bs : List Byte) (b : Byte) :
    beValue (bs ++ [b]) = (beValue bs <<< 8) ||| b.setWidth 32 := by
  simp [beValue]

theorem beBytes_length (n : Nat) (v : BitVec 32) : (beBytes n v).length = n := by
  induction n with
  | zero => rfl
  | succ n ih => simp [beBytes, ih]

theorem beBytes_beValue (bs : List Byte) (h : bs.length ≤ 4) : beBytes bs.length (beValue bs) = bs := by
  match bs, h with
  | [], _ => rfl
  | [a], _ => simp [beBytes, beValue]
  | [a, b], _ | [a, b, c], _ | [a, b, c, d], _ =>
    simp only [beBytes, beValue, List.length_cons, List.length_nil, List.cons.injEq, List.foldl, and_true]
    and_intros <;> (apply BitVec.eq_of_getLsbD_eq; intro i hi; interval_cases i <;> simp)

theorem getLsbD_beValue_beBytes {n : Nat} (hn : n ≤ 4) (v : BitVec 32) (i : Nat) (hi : i < 32) :
    (beValue (beBytes n v)).getLsbD i = (decide (i < 8 * n) && v.getLsbD i) := by
  interval_cases n <;> interval_cases i <;> simp [beBytes, beValue]

theorem beValue_beBytes {n : Nat} (hn : n ≤ 4) (v : BitVec 32) (hv : v.toNat < 2 ^ (8 * n)) :
    beValue (beBytes n v) = v := by
  apply BitVec.eq_of_getLsbD_eq
  intro i hi
  rw [getLsbD_beValue_beBytes hn v i hi]
  by_cases h : i < 8 * n
  · simp [h]
  · have : v.getLsbD i = false :=
      Nat.testBit_lt_two_pow (Nat.lt_of_lt_of_le hv (Nat.pow_le_pow_right (by decide) (by omega)))
    simp [h, this]

theorem beValue_lt (bs : List Byte) (h : bs.length ≤ 4) : (beValue bs).toNat < 2 ^ (8 * bs.length) := by
  have key : ∀ bs : List Byte, bs.length ≤ 4 → (beValue bs).toNat < 2 ^ (8 * bs.length) := by
    intro bs
    induction bs using List.reverseRecOn with
    | nil => intro; decide
    | append_singleton bs b ih =>
      intro h
      rw [beValue_append]
      simp only [List.length_append, List.length_cons, List.length_nil] at h ⊢
      have := ih (by omega)
      rw [BitVec.toNat_or]
      apply Nat.or_lt_two_pow
      · rw [BitVec.toNat_shiftLeft]
        refine Nat.lt_of_le_of_lt (Nat.mod_le _ _) ?_
        rw [Nat.shiftLeft_eq]
        have e : 2 ^ (8 * (bs.length + (0 + 1))) = 2 ^ (8 * bs.length) * 2 ^ 8 := by
          rw [← Nat.pow_add]; congr 1
        rw [e]
        exact Nat.mul_lt_mul_of_pos_right this (by decide)
      · rw [BitVec.toNat_setWidth]
        refine Nat.lt_of_le_of_lt (Nat.mod_le _ _) (Nat.lt_of_lt_of_le b.isLt ?_)
        exact Nat.pow_le_pow_right (by decide) (by omega)
  exact key bs h
end Sys2Proof
end

