-- ==== Sys2Proof/Laws/Memory.lean ====
section
/-! SUPPORT. Laws/Memory.lean: the mock's registers. Read after write, writes elsewhere, and that every operation
keeps the canonical form. The read laws hold for every list, canonical or not. -/

namespace Sys2Proof

theorem Memory.readByte_erase_self (m : Memory) (a : Nat) : (m.erase a).readByte a = Memory.unlisted := by
  induction m with
  | nil => rfl
  | cons c rest ih =>
    obtain ⟨k, b⟩ := c
    by_cases h : k = a <;> simp [Memory.erase, Memory.readByte, h, ih]

theorem Memory.readByte_erase_other (m : Memory) {a k : Nat} (h : k ≠ a) :
    (m.erase a).readByte k = m.readByte k := by
  induction m with
  | nil => rfl
  | cons c rest ih =>
    obtain ⟨j, b⟩ := c
    by_cases hj : j = a
    · have : j ≠ k := fun e => h (e ▸ hj)
      simp [Memory.erase, Memory.readByte, hj, ih, show a ≠ k from fun e => h e.symm]
    · rw [Memory.erase, if_neg hj, Memory.readByte, Memory.readByte, ih]

theorem Memory.mem_erase {m : Memory} {a : Nat} {c : Host.Cell} (h : c ∈ m.erase a) : c ∈ m ∧ c.1 ≠ a := by
  induction m with
  | nil => simp [Memory.erase] at h
  | cons d rest ih =>
    obtain ⟨j, b⟩ := d
    by_cases hj : j = a
    · rw [Memory.erase, if_pos hj] at h
      exact ⟨List.mem_cons_of_mem _ (ih h).1, (ih h).2⟩
    · rw [Memory.erase, if_neg hj] at h
      rcases List.mem_cons.mp h with rfl | h
      · exact ⟨List.mem_cons_self, hj⟩
      · exact ⟨List.mem_cons_of_mem _ (ih h).1, (ih h).2⟩

theorem Memory.readByte_insert_self (m : Memory) {a : Nat} (x : Byte) (h : ∀ c ∈ m, c.1 ≠ a) :
    (m.insert a x).readByte a = x := by
  induction m with
  | nil => simp [Memory.insert, Memory.readByte]
  | cons c rest ih =>
    obtain ⟨k, b⟩ := c
    have hk : k ≠ a := h (k, b) List.mem_cons_self
    by_cases hlt : a < k
    · simp [Memory.insert, Memory.readByte, hlt]
    · simp [Memory.insert, Memory.readByte, hlt, hk, ih fun c hc => h c (List.mem_cons_of_mem _ hc)]

theorem Memory.readByte_insert_other (m : Memory) {a k : Nat} (x : Byte) (h : k ≠ a) :
    (m.insert a x).readByte k = m.readByte k := by
  have h' : a ≠ k := fun e => h e.symm
  induction m with
  | nil => simp [Memory.insert, Memory.readByte, h']
  | cons c rest ih =>
    obtain ⟨j, b⟩ := c
    by_cases hlt : a < j
    · simp [Memory.insert, Memory.readByte, hlt, h']
    · simp [Memory.insert, Memory.readByte, hlt, ih]

@[simp] theorem Memory.readByte_writeByte_self (m : Memory) (a : Nat) (x : Byte) :
    (m.writeByte a x).readByte a = x := by
  unfold Memory.writeByte
  split
  · rename_i h; rw [Memory.readByte_erase_self, h]
  · exact Memory.readByte_insert_self _ x fun c hc => (Memory.mem_erase hc).2

theorem Memory.readByte_writeByte_other (m : Memory) {a k : Nat} (x : Byte) (h : k ≠ a) :
    (m.writeByte a x).readByte k = m.readByte k := by
  unfold Memory.writeByte
  split
  · exact Memory.readByte_erase_other m h
  · rw [Memory.readByte_insert_other _ x h, Memory.readByte_erase_other m h]

/-! The canonical form. -/

theorem Memory.rises_erase {m : Memory} {lo : Option Nat} (a : Nat) (h : Memory.rises lo m = true) :
    Memory.rises lo (m.erase a) = true := by
  induction m generalizing lo with
  | nil => rfl
  | cons c rest ih =>
    obtain ⟨k, b⟩ := c
    simp only [Memory.rises, Bool.and_eq_true] at h
    by_cases hk : k = a
    · rw [Memory.erase, if_pos hk]
      refine ih ?_
      cases rest with
      | nil => rfl
      | cons d rest =>
        have h2 := h.2
        have h1 := h.1
        simp only [Memory.rises, Bool.and_eq_true] at h2 ⊢
        refine ⟨?_, h2.2⟩
        have h3 := h2.1
        cases lo with
        | none => rfl
        | some l => simp only [Memory.above, decide_eq_true_eq] at h1 h3 ⊢; omega
    · rw [Memory.erase, if_neg hk]
      simp only [Memory.rises, Bool.and_eq_true]
      exact ⟨h.1, ih h.2⟩

theorem Memory.rises_insert {m : Memory} {lo : Option Nat} {a : Nat} (x : Byte) (h : Memory.rises lo m = true)
    (ha : ∀ c ∈ m, c.1 ≠ a) (hlo : Memory.above lo a = true) : Memory.rises lo (m.insert a x) = true := by
  induction m generalizing lo with
  | nil => simp only [Memory.insert, Memory.rises, Bool.and_true]; exact hlo
  | cons c rest ih =>
    obtain ⟨k, b⟩ := c
    simp only [Memory.rises, Bool.and_eq_true] at h
    have hk : k ≠ a := ha (k, b) List.mem_cons_self
    by_cases hlt : a < k
    · simp only [Memory.insert, if_pos hlt, Memory.rises, Memory.above, Bool.and_eq_true, decide_eq_true_eq]
      exact ⟨hlo, hlt, h.2⟩
    · simp only [Memory.insert, if_neg hlt, Memory.rises, Bool.and_eq_true]
      refine ⟨h.1, ih h.2 (fun c hc => ha c (List.mem_cons_of_mem _ hc)) ?_⟩
      simp only [Memory.above, decide_eq_true_eq]; omega

theorem Memory.mem_insert {m : Memory} {a : Nat} {x : Byte} {c : Host.Cell} (h : c ∈ m.insert a x) :
    c = (a, x) ∨ c ∈ m := by
  induction m with
  | nil => exact .inl (List.mem_singleton.mp h)
  | cons d rest ih =>
    obtain ⟨k, b⟩ := d
    by_cases hlt : a < k
    · rw [Memory.insert, if_pos hlt] at h
      exact List.mem_cons.mp h
    · rw [Memory.insert, if_neg hlt] at h
      rcases List.mem_cons.mp h with rfl | h
      · exact .inr List.mem_cons_self
      · exact (ih h).imp_right (List.mem_cons_of_mem _)

/-- Writing a cell of the space keeps the canonical form. -/
theorem Memory.wf_writeByte {m : Memory} {a : Nat} (x : Byte) (h : m.wf = true) (ha : a < 128) :
    (m.writeByte a x).wf = true := by
  simp only [Memory.wf, Bool.and_eq_true, List.all_eq_true] at h ⊢
  unfold Memory.writeByte
  split
  · exact ⟨Memory.rises_erase a h.1, fun c hc => h.2 c (Memory.mem_erase hc).1⟩
  · rename_i hx
    refine ⟨Memory.rises_insert x (Memory.rises_erase a h.1) (fun c hc => (Memory.mem_erase hc).2) rfl, ?_⟩
    intro c hc
    rcases Memory.mem_insert hc with rfl | hc
    · simpa [ha] using hx
    · exact h.2 c (Memory.mem_erase hc).1

theorem Memory.wf_writeBytes {m : Memory} {k : Nat} (bs : List Byte) (h : m.wf = true) (hk : k + bs.length ≤ 128) :
    (m.writeBytes k bs).wf = true := by
  induction bs generalizing m k with
  | nil => exact h
  | cons b bs ih =>
    simp only [List.length_cons] at hk
    exact ih (Memory.wf_writeByte b h (by omega)) (by omega)

theorem regBase_lt (a : Addr) : regBase a + 4 ≤ 128 := by
  have := a.isLt
  unfold regBase; omega

/-- Writing a register keeps the canonical form. -/
theorem Memory.wf_writeReg {m : Memory} (a : Addr) (v : BitVec 32) (h : m.wf = true) :
    (m.writeReg a v).wf = true := by
  refine Memory.wf_writeBytes _ h ?_
  rw [beBytes_length]
  exact regBase_lt a

theorem Memory.readByte_writeBytes_other (m : Memory) (k : Nat) (bs : List Byte) {j : Nat}
    (h : j < k ∨ k + bs.length ≤ j) : (m.writeBytes k bs).readByte j = m.readByte j := by
  induction bs generalizing m k with
  | nil => rfl
  | cons b bs ih =>
    simp only [List.length_cons] at h
    rw [Memory.writeBytes, ih _ _ (by omega), Memory.readByte_writeByte_other _ _ (by omega)]

/-- Writing a register leaves every cell of every other register alone. -/
theorem Memory.readByte_writeReg_other (m : Memory) (a : Addr) (v : BitVec 32) {j : Nat}
    (h : j < regBase a ∨ regBase a + 4 ≤ j) : (m.writeReg a v).readByte j = m.readByte j :=
  Memory.readByte_writeBytes_other m _ _ (by rwa [beBytes_length])

/-- A register reads back as the value written (R58). -/
@[simp] theorem Memory.readReg_writeReg_self (m : Memory) (a : Addr) (v : BitVec 32) :
    (m.writeReg a v).readReg a = v := by
  have hb : beValue (beBytes 4 v) = v := beValue_beBytes (by decide) v v.isLt
  conv_rhs => rw [← hb]
  unfold Memory.readReg Memory.writeReg
  simp only [beBytes, Memory.writeBytes, Nat.add_assoc]
  congr 1
  simp [Memory.readByte_writeByte_other]

theorem Memory.readReg_writeReg_other (m : Memory) {a c : Addr} (v : BitVec 32) (h : c ≠ a) :
    (m.writeReg a v).readReg c = m.readReg c := by
  have hne : c.toNat ≠ a.toNat := fun e => h (BitVec.eq_of_toNat_eq e)
  have hb : ∀ i, i < 4 → regBase c + i < regBase a ∨ regBase a + 4 ≤ regBase c + i := by
    intro i hi; unfold regBase; omega
  have h0 := hb 0 (by decide)
  have h1 := hb 1 (by decide)
  have h2 := hb 2 (by decide)
  have h3 := hb 3 (by decide)
  simp only [Nat.add_zero] at h0
  simp only [Memory.readReg, Memory.readByte_writeReg_other m a v h0, Memory.readByte_writeReg_other m a v h1,
    Memory.readByte_writeReg_other m a v h2, Memory.readByte_writeReg_other m a v h3]

end Sys2Proof
end

