-- ==== Sys2Proof/Laws/State.lean ====
section
/-! SUPPORT. Laws/State.lean: one lemma per field per update of the state, each true by unfolding the update. -/

namespace Sys2Proof.Machine

/-! `respond`. -/

@[simp] theorem respond_cfg (r : Response) (s : State) : (respond r s).cfg = s.cfg := rfl
@[simp] theorem respond_alive (r : Response) (s : State) : (respond r s).alive = s.alive := rfl
@[simp] theorem respond_mode (r : Response) (s : State) : (respond r s).mode = s.mode := rfl
@[simp] theorem respond_fault (r : Response) (s : State) : (respond r s).fault = s.fault := rfl
@[simp] theorem respond_op (r : Response) (s : State) : (respond r s).op = Transient.idle := rfl
@[simp] theorem respond_causes (r : Response) (s : State) : (respond r s).causes = s.causes := rfl
@[simp] theorem respond_pending (r : Response) (s : State) : (respond r s).pending = s.pending := rfl
@[simp] theorem respond_responses (r : Response) (s : State) : (respond r s).responses = s.responses ++ [r] := rfl
@[simp] theorem respond_log (r : Response) (s : State) : (respond r s).log = s.log := rfl
@[simp] theorem respond_calls (r : Response) (s : State) : (respond r s).calls = s.calls := rfl
@[simp] theorem respond_now (r : Response) (s : State) : (respond r s).now = s.now := rfl
@[simp] theorem respond_peer (r : Response) (s : State) : (respond r s).peer = s.peer := rfl
@[simp] theorem respond_script (r : Response) (s : State) : (respond r s).script = s.script := rfl
@[simp] theorem respond_hangAfter (r : Response) (s : State) : (respond r s).hangAfter = s.hangAfter := rfl
@[simp] theorem respond_dev (r : Response) (s : State) : (respond r s).dev = s.dev := rfl
@[simp] theorem respond_failAt (r : Response) (s : State) : (respond r s).failAt = s.failAt := rfl
@[simp] theorem respond_failValue (r : Response) (s : State) : (respond r s).failValue = s.failValue := rfl
@[simp] theorem respond_failApplies (r : Response) (s : State) : (respond r s).failApplies = s.failApplies := rfl

/-! `recordCause`. -/

@[simp] theorem recordCause_cfg (c : CauseRecord) (s : State) : (recordCause c s).cfg = s.cfg := rfl
@[simp] theorem recordCause_alive (c : CauseRecord) (s : State) : (recordCause c s).alive = s.alive := rfl
@[simp] theorem recordCause_mode (c : CauseRecord) (s : State) : (recordCause c s).mode = s.mode := rfl
@[simp] theorem recordCause_fault (c : CauseRecord) (s : State) : (recordCause c s).fault = s.fault := rfl
@[simp] theorem recordCause_op (c : CauseRecord) (s : State) : (recordCause c s).op = s.op := rfl
@[simp] theorem recordCause_causes (c : CauseRecord) (s : State) : (recordCause c s).causes = s.causes ++ [c] := rfl
@[simp] theorem recordCause_pending (c : CauseRecord) (s : State) : (recordCause c s).pending = s.pending := rfl
@[simp] theorem recordCause_responses (c : CauseRecord) (s : State) : (recordCause c s).responses = s.responses := rfl
@[simp] theorem recordCause_log (c : CauseRecord) (s : State) : (recordCause c s).log = s.log := rfl
@[simp] theorem recordCause_calls (c : CauseRecord) (s : State) : (recordCause c s).calls = s.calls := rfl
@[simp] theorem recordCause_now (c : CauseRecord) (s : State) : (recordCause c s).now = s.now := rfl
@[simp] theorem recordCause_peer (c : CauseRecord) (s : State) : (recordCause c s).peer = s.peer := rfl
@[simp] theorem recordCause_script (c : CauseRecord) (s : State) : (recordCause c s).script = s.script := rfl
@[simp] theorem recordCause_hangAfter (c : CauseRecord) (s : State) : (recordCause c s).hangAfter = s.hangAfter := rfl
@[simp] theorem recordCause_dev (c : CauseRecord) (s : State) : (recordCause c s).dev = s.dev := rfl
@[simp] theorem recordCause_failAt (c : CauseRecord) (s : State) : (recordCause c s).failAt = s.failAt := rfl
@[simp] theorem recordCause_failValue (c : CauseRecord) (s : State) : (recordCause c s).failValue = s.failValue := rfl
@[simp] theorem recordCause_failApplies (c : CauseRecord) (s : State) : (recordCause c s).failApplies = s.failApplies := rfl

/-! `raiseFault`. -/

@[simp] theorem raiseFault_cfg (r : FaultReason) (c : CauseRecord) (s : State) : (raiseFault r c s).cfg = s.cfg := rfl
@[simp] theorem raiseFault_alive (r : FaultReason) (c : CauseRecord) (s : State) : (raiseFault r c s).alive = s.alive := rfl
@[simp] theorem raiseFault_mode (r : FaultReason) (c : CauseRecord) (s : State) : (raiseFault r c s).mode = s.mode := rfl
@[simp] theorem raiseFault_fault (r : FaultReason) (c : CauseRecord) (s : State) : (raiseFault r c s).fault = (s.fault <|> some r) := rfl
@[simp] theorem raiseFault_op (r : FaultReason) (c : CauseRecord) (s : State) : (raiseFault r c s).op = Transient.idle := rfl
@[simp] theorem raiseFault_causes (r : FaultReason) (c : CauseRecord) (s : State) : (raiseFault r c s).causes = s.causes ++ [c] := rfl
@[simp] theorem raiseFault_pending (r : FaultReason) (c : CauseRecord) (s : State) : (raiseFault r c s).pending = s.pending := rfl
@[simp] theorem raiseFault_responses (r : FaultReason) (c : CauseRecord) (s : State) : (raiseFault r c s).responses = s.responses ++ [.faulted r] := rfl
@[simp] theorem raiseFault_log (r : FaultReason) (c : CauseRecord) (s : State) : (raiseFault r c s).log = s.log := rfl
@[simp] theorem raiseFault_calls (r : FaultReason) (c : CauseRecord) (s : State) : (raiseFault r c s).calls = s.calls := rfl
@[simp] theorem raiseFault_now (r : FaultReason) (c : CauseRecord) (s : State) : (raiseFault r c s).now = s.now := rfl
@[simp] theorem raiseFault_peer (r : FaultReason) (c : CauseRecord) (s : State) : (raiseFault r c s).peer = s.peer := rfl
@[simp] theorem raiseFault_script (r : FaultReason) (c : CauseRecord) (s : State) : (raiseFault r c s).script = s.script := rfl
@[simp] theorem raiseFault_hangAfter (r : FaultReason) (c : CauseRecord) (s : State) : (raiseFault r c s).hangAfter = s.hangAfter := rfl
@[simp] theorem raiseFault_dev (r : FaultReason) (c : CauseRecord) (s : State) : (raiseFault r c s).dev = s.dev := rfl
@[simp] theorem raiseFault_failAt (r : FaultReason) (c : CauseRecord) (s : State) : (raiseFault r c s).failAt = s.failAt := rfl
@[simp] theorem raiseFault_failValue (r : FaultReason) (c : CauseRecord) (s : State) : (raiseFault r c s).failValue = s.failValue := rfl
@[simp] theorem raiseFault_failApplies (r : FaultReason) (c : CauseRecord) (s : State) : (raiseFault r c s).failApplies = s.failApplies := rfl

/-! `reinit`. -/

@[simp] theorem reinit_cfg (s : State) : (reinit s).cfg = s.cfg := rfl
@[simp] theorem reinit_alive (s : State) : (reinit s).alive = true := rfl
@[simp] theorem reinit_mode (s : State) : (reinit s).mode = s.cfg.resetMode := rfl
@[simp] theorem reinit_fault (s : State) : (reinit s).fault = none := rfl
@[simp] theorem reinit_op (s : State) : (reinit s).op = Transient.idle := rfl
@[simp] theorem reinit_causes (s : State) : (reinit s).causes = s.causes := rfl
@[simp] theorem reinit_pending (s : State) : (reinit s).pending = s.pending := rfl
@[simp] theorem reinit_responses (s : State) : (reinit s).responses = s.responses ++ [.ok .empty] := rfl
@[simp] theorem reinit_log (s : State) : (reinit s).log = s.log := rfl
@[simp] theorem reinit_calls (s : State) : (reinit s).calls = s.calls := rfl
@[simp] theorem reinit_now (s : State) : (reinit s).now = s.now := rfl
@[simp] theorem reinit_peer (s : State) : (reinit s).peer = s.peer := rfl
@[simp] theorem reinit_script (s : State) : (reinit s).script = s.script := rfl
@[simp] theorem reinit_hangAfter (s : State) : (reinit s).hangAfter = s.hangAfter := rfl
@[simp] theorem reinit_dev (s : State) : (reinit s).dev = s.dev := rfl
@[simp] theorem reinit_failAt (s : State) : (reinit s).failAt = s.failAt := rfl
@[simp] theorem reinit_failValue (s : State) : (reinit s).failValue = s.failValue := rfl
@[simp] theorem reinit_failApplies (s : State) : (reinit s).failApplies = s.failApplies := rfl

/-! `reportError`. -/

@[simp] theorem reportError_cfg (e : TransportError) (s : State) : (reportError e s).cfg = s.cfg := rfl
@[simp] theorem reportError_alive (e : TransportError) (s : State) : (reportError e s).alive = s.alive := rfl
@[simp] theorem reportError_mode (e : TransportError) (s : State) : (reportError e s).mode = s.mode := rfl
@[simp] theorem reportError_fault (e : TransportError) (s : State) : (reportError e s).fault = s.fault := rfl
@[simp] theorem reportError_op (e : TransportError) (s : State) : (reportError e s).op = Transient.idle := rfl
@[simp] theorem reportError_causes (e : TransportError) (s : State) : (reportError e s).causes = s.causes ++ [.transportError e] := rfl
@[simp] theorem reportError_pending (e : TransportError) (s : State) : (reportError e s).pending = s.pending := rfl
@[simp] theorem reportError_responses (e : TransportError) (s : State) : (reportError e s).responses = s.responses ++ [.err e] := rfl
@[simp] theorem reportError_log (e : TransportError) (s : State) : (reportError e s).log = s.log := rfl
@[simp] theorem reportError_calls (e : TransportError) (s : State) : (reportError e s).calls = s.calls := rfl
@[simp] theorem reportError_now (e : TransportError) (s : State) : (reportError e s).now = s.now := rfl
@[simp] theorem reportError_peer (e : TransportError) (s : State) : (reportError e s).peer = s.peer := rfl
@[simp] theorem reportError_script (e : TransportError) (s : State) : (reportError e s).script = s.script := rfl
@[simp] theorem reportError_hangAfter (e : TransportError) (s : State) : (reportError e s).hangAfter = s.hangAfter := rfl
@[simp] theorem reportError_dev (e : TransportError) (s : State) : (reportError e s).dev = s.dev := rfl
@[simp] theorem reportError_failAt (e : TransportError) (s : State) : (reportError e s).failAt = s.failAt := rfl
@[simp] theorem reportError_failValue (e : TransportError) (s : State) : (reportError e s).failValue = s.failValue := rfl
@[simp] theorem reportError_failApplies (e : TransportError) (s : State) : (reportError e s).failApplies = s.failApplies := rfl

/-! `refuse`. -/

@[simp] theorem refuse_cfg (q : Request) (s : State) : (refuse q s).cfg = s.cfg := rfl
@[simp] theorem refuse_alive (q : Request) (s : State) : (refuse q s).alive = s.alive := rfl
@[simp] theorem refuse_mode (q : Request) (s : State) : (refuse q s).mode = s.mode := rfl
@[simp] theorem refuse_fault (q : Request) (s : State) : (refuse q s).fault = s.fault := rfl
@[simp] theorem refuse_op (q : Request) (s : State) : (refuse q s).op = Transient.idle := rfl
@[simp] theorem refuse_causes (q : Request) (s : State) : (refuse q s).causes = s.causes ++ [.badRequest q] := rfl
@[simp] theorem refuse_pending (q : Request) (s : State) : (refuse q s).pending = s.pending := rfl
@[simp] theorem refuse_responses (q : Request) (s : State) : (refuse q s).responses = s.responses ++ [.refused] := rfl
@[simp] theorem refuse_log (q : Request) (s : State) : (refuse q s).log = s.log := rfl
@[simp] theorem refuse_calls (q : Request) (s : State) : (refuse q s).calls = s.calls := rfl
@[simp] theorem refuse_now (q : Request) (s : State) : (refuse q s).now = s.now := rfl
@[simp] theorem refuse_peer (q : Request) (s : State) : (refuse q s).peer = s.peer := rfl
@[simp] theorem refuse_script (q : Request) (s : State) : (refuse q s).script = s.script := rfl
@[simp] theorem refuse_hangAfter (q : Request) (s : State) : (refuse q s).hangAfter = s.hangAfter := rfl
@[simp] theorem refuse_dev (q : Request) (s : State) : (refuse q s).dev = s.dev := rfl
@[simp] theorem refuse_failAt (q : Request) (s : State) : (refuse q s).failAt = s.failAt := rfl
@[simp] theorem refuse_failValue (q : Request) (s : State) : (refuse q s).failValue = s.failValue := rfl
@[simp] theorem refuse_failApplies (q : Request) (s : State) : (refuse q s).failApplies = s.failApplies := rfl

/-! `answerNotAlive`. -/

@[simp] theorem answerNotAlive_cfg (op : Byte) (s : State) : (answerNotAlive op s).cfg = s.cfg := rfl
@[simp] theorem answerNotAlive_alive (op : Byte) (s : State) : (answerNotAlive op s).alive = s.alive := rfl
@[simp] theorem answerNotAlive_mode (op : Byte) (s : State) : (answerNotAlive op s).mode = s.mode := rfl
@[simp] theorem answerNotAlive_fault (op : Byte) (s : State) : (answerNotAlive op s).fault = s.fault := rfl
@[simp] theorem answerNotAlive_op (op : Byte) (s : State) : (answerNotAlive op s).op = Transient.idle := rfl
@[simp] theorem answerNotAlive_causes (op : Byte) (s : State) : (answerNotAlive op s).causes = s.causes ++ [.notAlive op] := rfl
@[simp] theorem answerNotAlive_pending (op : Byte) (s : State) : (answerNotAlive op s).pending = s.pending := rfl
@[simp] theorem answerNotAlive_responses (op : Byte) (s : State) : (answerNotAlive op s).responses = s.responses ++ [.faulted .notAlive] := rfl
@[simp] theorem answerNotAlive_log (op : Byte) (s : State) : (answerNotAlive op s).log = s.log := rfl
@[simp] theorem answerNotAlive_calls (op : Byte) (s : State) : (answerNotAlive op s).calls = s.calls := rfl
@[simp] theorem answerNotAlive_now (op : Byte) (s : State) : (answerNotAlive op s).now = s.now := rfl
@[simp] theorem answerNotAlive_peer (op : Byte) (s : State) : (answerNotAlive op s).peer = s.peer := rfl
@[simp] theorem answerNotAlive_script (op : Byte) (s : State) : (answerNotAlive op s).script = s.script := rfl
@[simp] theorem answerNotAlive_hangAfter (op : Byte) (s : State) : (answerNotAlive op s).hangAfter = s.hangAfter := rfl
@[simp] theorem answerNotAlive_dev (op : Byte) (s : State) : (answerNotAlive op s).dev = s.dev := rfl
@[simp] theorem answerNotAlive_failAt (op : Byte) (s : State) : (answerNotAlive op s).failAt = s.failAt := rfl
@[simp] theorem answerNotAlive_failValue (op : Byte) (s : State) : (answerNotAlive op s).failValue = s.failValue := rfl
@[simp] theorem answerNotAlive_failApplies (op : Byte) (s : State) : (answerNotAlive op s).failApplies = s.failApplies := rfl

/-! `delay`. -/

@[simp] theorem delay_cfg (ms : Nat) (s : State) : (delay ms s).cfg = s.cfg := rfl
@[simp] theorem delay_alive (ms : Nat) (s : State) : (delay ms s).alive = s.alive := rfl
@[simp] theorem delay_mode (ms : Nat) (s : State) : (delay ms s).mode = s.mode := rfl
@[simp] theorem delay_fault (ms : Nat) (s : State) : (delay ms s).fault = s.fault := rfl
@[simp] theorem delay_op (ms : Nat) (s : State) : (delay ms s).op = s.op := rfl
@[simp] theorem delay_causes (ms : Nat) (s : State) : (delay ms s).causes = s.causes := rfl
@[simp] theorem delay_pending (ms : Nat) (s : State) : (delay ms s).pending = s.pending := rfl
@[simp] theorem delay_responses (ms : Nat) (s : State) : (delay ms s).responses = s.responses := rfl
@[simp] theorem delay_log (ms : Nat) (s : State) : (delay ms s).log = s.log ++ [.d ms] := rfl
@[simp] theorem delay_calls (ms : Nat) (s : State) : (delay ms s).calls = s.calls := rfl
@[simp] theorem delay_now (ms : Nat) (s : State) : (delay ms s).now = s.now + ms := rfl
@[simp] theorem delay_peer (ms : Nat) (s : State) : (delay ms s).peer = s.peer := rfl
@[simp] theorem delay_script (ms : Nat) (s : State) : (delay ms s).script = s.script := rfl
@[simp] theorem delay_hangAfter (ms : Nat) (s : State) : (delay ms s).hangAfter = s.hangAfter := rfl
@[simp] theorem delay_dev (ms : Nat) (s : State) : (delay ms s).dev = s.dev := rfl
@[simp] theorem delay_failAt (ms : Nat) (s : State) : (delay ms s).failAt = s.failAt := rfl
@[simp] theorem delay_failValue (ms : Nat) (s : State) : (delay ms s).failValue = s.failValue := rfl
@[simp] theorem delay_failApplies (ms : Nat) (s : State) : (delay ms s).failApplies = s.failApplies := rfl

/-! `placeRequest`. -/

@[simp] theorem placeRequest_cfg (q : Request) (s : State) : (placeRequest q s).cfg = s.cfg := rfl
@[simp] theorem placeRequest_alive (q : Request) (s : State) : (placeRequest q s).alive = s.alive := rfl
@[simp] theorem placeRequest_mode (q : Request) (s : State) : (placeRequest q s).mode = s.mode := rfl
@[simp] theorem placeRequest_fault (q : Request) (s : State) : (placeRequest q s).fault = s.fault := rfl
@[simp] theorem placeRequest_op (q : Request) (s : State) : (placeRequest q s).op = s.op := rfl
@[simp] theorem placeRequest_causes (q : Request) (s : State) : (placeRequest q s).causes = s.causes := rfl
@[simp] theorem placeRequest_pending (q : Request) (s : State) : (placeRequest q s).pending = q :: s.pending := rfl
@[simp] theorem placeRequest_responses (q : Request) (s : State) : (placeRequest q s).responses = s.responses := rfl
@[simp] theorem placeRequest_log (q : Request) (s : State) : (placeRequest q s).log = s.log := rfl
@[simp] theorem placeRequest_calls (q : Request) (s : State) : (placeRequest q s).calls = s.calls := rfl
@[simp] theorem placeRequest_now (q : Request) (s : State) : (placeRequest q s).now = s.now := rfl
@[simp] theorem placeRequest_peer (q : Request) (s : State) : (placeRequest q s).peer = s.peer := rfl
@[simp] theorem placeRequest_script (q : Request) (s : State) : (placeRequest q s).script = s.script := rfl
@[simp] theorem placeRequest_hangAfter (q : Request) (s : State) : (placeRequest q s).hangAfter = s.hangAfter := rfl
@[simp] theorem placeRequest_dev (q : Request) (s : State) : (placeRequest q s).dev = s.dev := rfl
@[simp] theorem placeRequest_failAt (q : Request) (s : State) : (placeRequest q s).failAt = s.failAt := rfl
@[simp] theorem placeRequest_failValue (q : Request) (s : State) : (placeRequest q s).failValue = s.failValue := rfl
@[simp] theorem placeRequest_failApplies (q : Request) (s : State) : (placeRequest q s).failApplies = s.failApplies := rfl

/-! `issue`: the fields the environment does not touch. -/

@[simp] theorem issue_cfg (c : Call) (e : BusEvent) (s : State) : (issue c e s).cfg = s.cfg := by
  unfold issue envAfter; cases s.peer <;> rfl
@[simp] theorem issue_alive (c : Call) (e : BusEvent) (s : State) : (issue c e s).alive = s.alive := by
  unfold issue envAfter; cases s.peer <;> rfl
@[simp] theorem issue_mode (c : Call) (e : BusEvent) (s : State) : (issue c e s).mode = s.mode := by
  unfold issue envAfter; cases s.peer <;> rfl
@[simp] theorem issue_fault (c : Call) (e : BusEvent) (s : State) : (issue c e s).fault = s.fault := by
  unfold issue envAfter; cases s.peer <;> rfl
@[simp] theorem issue_op (c : Call) (e : BusEvent) (s : State) : (issue c e s).op = Transient.issue s.op c.bytes := rfl
@[simp] theorem issue_causes (c : Call) (e : BusEvent) (s : State) : (issue c e s).causes = s.causes := by
  unfold issue envAfter; cases s.peer <;> rfl
@[simp] theorem issue_pending (c : Call) (e : BusEvent) (s : State) : (issue c e s).pending = s.pending := by
  unfold issue envAfter; cases s.peer <;> rfl
@[simp] theorem issue_responses (c : Call) (e : BusEvent) (s : State) : (issue c e s).responses = s.responses := by
  unfold issue envAfter; cases s.peer <;> rfl
@[simp] theorem issue_log (c : Call) (e : BusEvent) (s : State) : (issue c e s).log = s.log ++ [e] := rfl
@[simp] theorem issue_calls (c : Call) (e : BusEvent) (s : State) : (issue c e s).calls = s.calls + 1 := rfl
@[simp] theorem issue_now (c : Call) (e : BusEvent) (s : State) : (issue c e s).now = s.now := by
  unfold issue envAfter; cases s.peer <;> rfl
@[simp] theorem issue_peer (c : Call) (e : BusEvent) (s : State) : (issue c e s).peer = s.peer := by
  unfold issue envAfter; split <;> rfl
@[simp] theorem issue_hangAfter (c : Call) (e : BusEvent) (s : State) : (issue c e s).hangAfter = s.hangAfter := by
  unfold issue envAfter; cases s.peer <;> rfl
@[simp] theorem issue_failAt (c : Call) (e : BusEvent) (s : State) : (issue c e s).failAt = s.failAt := by
  unfold issue envAfter; cases s.peer <;> rfl
@[simp] theorem issue_failValue (c : Call) (e : BusEvent) (s : State) : (issue c e s).failValue = s.failValue := by
  unfold issue envAfter; cases s.peer <;> rfl
@[simp] theorem issue_failApplies (c : Call) (e : BusEvent) (s : State) : (issue c e s).failApplies = s.failApplies := by
  unfold issue envAfter; cases s.peer <;> rfl

/-! `answer`. -/

@[simp] theorem answer_cfg (p : State × Res Payload) : (answer p).cfg = p.1.cfg := by
  unfold answer; split <;> rfl
@[simp] theorem answer_alive (p : State × Res Payload) : (answer p).alive = p.1.alive := by
  unfold answer; split <;> rfl
@[simp] theorem answer_mode (p : State × Res Payload) : (answer p).mode = p.1.mode := by
  unfold answer; split <;> rfl
@[simp] theorem answer_fault (p : State × Res Payload) : (answer p).fault = p.1.fault := by
  unfold answer; split <;> rfl
@[simp] theorem answer_pending (p : State × Res Payload) : (answer p).pending = p.1.pending := by
  unfold answer; split <;> rfl
@[simp] theorem answer_log (p : State × Res Payload) : (answer p).log = p.1.log := by
  unfold answer; split <;> rfl
@[simp] theorem answer_calls (p : State × Res Payload) : (answer p).calls = p.1.calls := by
  unfold answer; split <;> rfl
@[simp] theorem answer_now (p : State × Res Payload) : (answer p).now = p.1.now := by
  unfold answer; split <;> rfl
@[simp] theorem answer_peer (p : State × Res Payload) : (answer p).peer = p.1.peer := by
  unfold answer; split <;> rfl
@[simp] theorem answer_script (p : State × Res Payload) : (answer p).script = p.1.script := by
  unfold answer; split <;> rfl
@[simp] theorem answer_hangAfter (p : State × Res Payload) : (answer p).hangAfter = p.1.hangAfter := by
  unfold answer; split <;> rfl
@[simp] theorem answer_dev (p : State × Res Payload) : (answer p).dev = p.1.dev := by
  unfold answer; split <;> rfl
@[simp] theorem answer_failAt (p : State × Res Payload) : (answer p).failAt = p.1.failAt := by
  unfold answer; split <;> rfl
@[simp] theorem answer_failValue (p : State × Res Payload) : (answer p).failValue = p.1.failValue := by
  unfold answer; split <;> rfl
@[simp] theorem answer_failApplies (p : State × Res Payload) : (answer p).failApplies = p.1.failApplies := by
  unfold answer; split <;> rfl
@[simp] theorem answer_op (p : State × Res Payload) : (answer p).op = Transient.idle := by
  unfold answer; split <;> rfl

end Sys2Proof.Machine
end

