-- ==== Sys2Proof/Laws/Ops.lean ====
section
/-! SUPPORT. Laws/Ops.lean: what each shared operation can do, said once. `Ran s p es` is the whole effect of a
computation of the block on the state: it appended the events `es` to the bus log and changed nothing else but what
goes with them (spec/10_state.md R17, R18, spec/20_memory.md R49, R50, R57). -/

namespace Sys2Proof.Machine

theorem BusOnly.refl (s : State) : BusOnly s s := by constructor <;> rfl

theorem BusOnly.trans {s t u : State} (h : BusOnly s t) (k : BusOnly t u) : BusOnly s u :=
  ⟨k.cfg.trans h.cfg, k.alive.trans h.alive, k.mode.trans h.mode, k.fault.trans h.fault, k.causes.trans h.causes,
   k.pending.trans h.pending, k.responses.trans h.responses, k.peer.trans h.peer, k.hangAfter.trans h.hangAfter,
   k.failAt.trans h.failAt, k.failValue.trans h.failValue, k.failApplies.trans h.failApplies⟩

/-- The milliseconds of delay in a log (R178). -/
def delaysIn : List BusEvent → Nat
  | [] => 0
  | .d ms :: es => ms + delaysIn es
  | _ :: es => delaysIn es

theorem delaysIn_append (es fs : List BusEvent) : delaysIn (es ++ fs) = delaysIn es + delaysIn fs := by
  induction es with
  | nil => simp [delaysIn]
  | cons e es ih => cases e <;> simp [delaysIn, ih, Nat.add_assoc]

/-- Transport calls alone take no time (R32: only `Delay` advances the clock). -/
theorem delaysIn_calls {es : List BusEvent} (h : es.all BusEvent.isCall = true) : delaysIn es = 0 := by
  induction es with
  | nil => rfl
  | cons e es ih =>
    simp only [List.all_cons, Bool.and_eq_true] at h
    cases e with
    | w _ _ => exact ih h.2
    | x _ _ => exact ih h.2
    | d _ => cases h.1

theorem callsIn_append (es fs : List BusEvent) : callsIn (es ++ fs) = callsIn es + callsIn fs := by
  simp [callsIn]

@[simp] theorem callsIn_nil : callsIn [] = 0 := rfl

@[simp] theorem callsIn_w (bs : List Byte) (r : Answer Unit) (es : List BusEvent) :
    callsIn (.w bs r :: es) = callsIn es + 1 := List.countP_cons_of_pos rfl

@[simp] theorem callsIn_x (bs : List Byte) (r : Answer (List Byte)) (es : List BusEvent) :
    callsIn (.x bs r :: es) = callsIn es + 1 := List.countP_cons_of_pos rfl

@[simp] theorem callsIn_d (ms : Nat) (es : List BusEvent) : callsIn (.d ms :: es) = callsIn es :=
  List.countP_cons_of_neg Bool.false_ne_true

/-- The whole effect of a computation of the block (R167: an error is the last event of the computation). -/
structure Ran {α : Type} (s : State) (p : State × Res α) (es : List BusEvent) : Prop where
  quiet : BusOnly s p.1
  log : p.1.log = s.log ++ es
  calls : p.1.calls = s.calls + callsIn es
  now : p.1.now = s.now + delaysIn es
  ok : ∀ a, p.2 = .ok a → ∀ e ∈ es, e.succeeded = true
  err : ∀ x, p.2 = .err x → ∃ es0 last, es = es0 ++ [last] ∧ (∀ e ∈ es0, e.succeeded = true) ∧
    last.failedWith x = true
  refuse : ∀ q, p.2 = .refuse q → ∀ e ∈ es, e.succeeded = true
  devWf : s.dev.wf = true → p.1.dev.wf = true

theorem Ran.pure {α : Type} (s : State) (a : α) : Ran s (s, Res.ok a) [] :=
  ⟨BusOnly.refl s, by simp, by simp [callsIn], by simp [delaysIn], by simp, by simp, by simp, id⟩

theorem Ran.refused {α : Type} (s : State) (q : Request) : Ran s (s, (Res.refuse q : Res α)) [] :=
  ⟨BusOnly.refl s, by simp, by simp [callsIn], by simp [delaysIn], by simp, by simp, by simp, id⟩

theorem tryDo_of_ok {α β : Type} {p : State × Res α} {f : α → State → State × Res β} {a : α} (h : p.2 = .ok a) :
    tryDo p f = f a p.1 := by simp [tryDo, h]

/-- `try` runs the first part, and the second only after `Ok` (R11, R50). -/
theorem Ran.tryDo_ok {α β : Type} {s : State} {p : State × Res α} {f : α → State → State × Res β}
    {es fs : List BusEvent} {a : α} (h : Ran s p es) (ha : p.2 = .ok a) (k : Ran p.1 (f a p.1) fs) :
    Ran s (tryDo p f) (es ++ fs) := by
  rw [tryDo_of_ok ha]
  refine ⟨h.quiet.trans k.quiet, by rw [k.log, h.log, List.append_assoc], by rw [k.calls, h.calls, callsIn_append]; omega,
    by rw [k.now, h.now, delaysIn_append]; omega, ?_, ?_, ?_, fun hd => k.devWf (h.devWf hd)⟩
  · intro b hb ev hev
    rcases List.mem_append.mp hev with hev | hev
    · exact h.ok a ha ev hev
    · exact k.ok b hb ev hev
  · intro x hx
    obtain ⟨es0, last, rfl, h0, hl⟩ := k.err x hx
    refine ⟨es ++ es0, last, by rw [List.append_assoc], ?_, hl⟩
    intro ev hev
    rcases List.mem_append.mp hev with hev | hev
    · exact h.ok a ha ev hev
    · exact h0 ev hev
  · intro q hq ev hev
    rcases List.mem_append.mp hev with hev | hev
    · exact h.ok a ha ev hev
    · exact k.refuse q hq ev hev

/-- `try` stops at an error or a refusal (R11, R167). -/
theorem Ran.tryDo_stop {α β : Type} {s : State} {p : State × Res α} {f : α → State → State × Res β}
    {es : List BusEvent} (h : Ran s p es) (hn : ∀ a, p.2 ≠ .ok a) : Ran s (tryDo p f) es := by
  unfold tryDo
  split
  · rename_i a ha; exact absurd ha (hn a)
  · rename_i e he
    exact ⟨h.quiet, h.log, h.calls, h.now, by simp, fun x hx => h.err x (by rw [he]; cases hx; rfl), by simp, h.devWf⟩
  · rename_i q hq
    exact ⟨h.quiet, h.log, h.calls, h.now, by simp, by simp, fun _ _ => h.refuse q hq, h.devWf⟩

/-- The two cases of `try`. -/
theorem Ran.tryDo_cases {α β : Type} {s : State} {p : State × Res α} {f : α → State → State × Res β}
    {es : List BusEvent} (h : Ran s p es) (k : ∀ a, p.2 = .ok a → ∃ fs, Ran p.1 (f a p.1) fs) :
    (Ran s (tryDo p f) es ∧ (∀ a, p.2 ≠ .ok a)) ∨
    ∃ a fs, p.2 = .ok a ∧ Ran p.1 (f a p.1) fs ∧ tryDo p f = f a p.1 ∧ Ran s (tryDo p f) (es ++ fs) := by
  by_cases hp : ∃ a, p.2 = .ok a
  · obtain ⟨a, ha⟩ := hp
    obtain ⟨fs, hfs⟩ := k a ha
    exact .inr ⟨a, fs, ha, hfs, tryDo_of_ok ha, h.tryDo_ok ha hfs⟩
  · exact .inl ⟨h.tryDo_stop fun a ha => hp ⟨a, ha⟩, fun a ha => hp ⟨a, ha⟩⟩

/-- A computation that only returns a value after another (R143). -/
theorem Ran.tryDo_map {α β : Type} {s : State} {p : State × Res α} {g : α → β} {es : List BusEvent}
    (h : Ran s p es) : Ran s (tryDo p fun a t => (t, .ok (g a))) es := by
  by_cases hp : ∃ a, p.2 = .ok a
  · obtain ⟨a, ha⟩ := hp
    simpa using h.tryDo_ok (f := fun a t => (t, Res.ok (g a))) ha (Ran.pure p.1 (g a))
  · exact h.tryDo_stop fun a ha => hp ⟨a, ha⟩

/-! One call. -/

theorem mockStore_wf {m : Memory} (c : Call) (h : m.wf = true) : (mockStore m c).wf = true := by
  unfold mockStore
  split
  · split
    · exact Memory.wf_writeReg _ _ h
    · exact h
  · exact h

theorem issue_dev_wf (c : Call) (e : BusEvent) {s : State} (h : s.dev.wf = true) : (issue c e s).dev.wf = true := by
  have : (envAfter c s).dev.wf = true := by
    unfold envAfter
    cases s.peer with
    | oracle => exact h
    | mock => dsimp only; split <;> [exact h; exact mockStore_wf c h]
  exact this

theorem issue_busOnly (c : Call) (e : BusEvent) (s : State) : BusOnly s (issue c e s) := by
  constructor <;> simp

/-- `T.write` issues one call and logs it with its result (R38, R57). -/
theorem tWrite_ran (bs : List Byte) (s : State) : ∃ r, Ran s (tWrite bs s) [.w bs r] := by
  unfold tWrite
  split
  · exact ⟨.ok (), issue_busOnly _ _ _, by simp, by simp [callsIn, BusEvent.isCall], by simp [delaysIn],
      by simp [BusEvent.succeeded], by simp, by simp, issue_dev_wf _ _⟩
  · rename_i e _
    refine ⟨.err e, issue_busOnly _ _ _, by simp, by simp [callsIn, BusEvent.isCall], by simp [delaysIn], by simp,
      fun x hx => ⟨[], _, rfl, by simp, ?_⟩, by simp, issue_dev_wf _ _⟩
    cases hx; simp [BusEvent.failedWith]

/-- `T.exchange` issues one call and logs it with its result; what comes back has the length of what went out
(R39, R57). -/
theorem tExchange_ran (bs : List Byte) (s : State) :
    ∃ r, Ran s (tExchange bs s) [.x bs r] ∧
      ∀ rx, (tExchange bs s).2 = .ok rx → r = .ok rx ∧ ∃ w, rx = receivedBytes bs.length w := by
  unfold tExchange
  split
  · rename_i w _
    refine ⟨.ok (receivedBytes bs.length w), ?_, ?_⟩
    · have h := issue_busOnly (.exchange bs) (.x bs (.ok (receivedBytes bs.length w))) s
      exact ⟨⟨h.cfg, h.alive, h.mode, h.fault, h.causes, h.pending, h.responses, h.peer, h.hangAfter, h.failAt,
        h.failValue, h.failApplies⟩, by simp, by simp [callsIn, BusEvent.isCall], by simp [delaysIn],
        by simp [BusEvent.succeeded], by simp, by simp,
        issue_dev_wf (.exchange bs) (.x bs (.ok (receivedBytes bs.length w)))⟩
    · intro rx hrx; cases hrx; exact ⟨rfl, w, rfl⟩
  · rename_i e _
    refine ⟨.err e, ⟨issue_busOnly _ _ _, by simp, by simp [callsIn, BusEvent.isCall], by simp [delaysIn], by simp,
      fun x hx => ⟨[], _, rfl, by simp, ?_⟩, by simp, issue_dev_wf _ _⟩, by simp⟩
    cases hx; simp [BusEvent.failedWith]

/-! The bus transactions (R139 to R143), with their call counts (R144). -/

theorem cmdSend_ran (c : Byte) (s : State) : ∃ r, Ran s (cmdSend c s) [.w [c] r] := tWrite_ran _ s

theorem regRead_ran {n : Nat} (hn : validWidth n = true) (a : Addr) (s : State) :
    ∃ r, Ran s (regRead a n s) [.x (frameRd a n) r] := by
  obtain ⟨r, hr, _⟩ := tExchange_ran (frameRd a n) s
  refine ⟨r, ?_⟩
  rw [regRead, if_neg (by simp [hn])]
  by_cases hp : ∃ rx, (tExchange (frameRd a n) s).2 = .ok rx
  · obtain ⟨rx, hrx⟩ := hp
    have k : Ran (tExchange (frameRd a n) s).1
        ({ (tExchange (frameRd a n) s).1 with
            op := { (tExchange (frameRd a n) s).1.op with lastRead := some (beValue rx.tail) } },
          Res.ok (beValue rx.tail)) [] :=
      ⟨by constructor <;> rfl, by simp, by simp [callsIn], by simp [delaysIn], by simp, by simp, by simp, id⟩
    simpa using hr.tryDo_ok
      (f := fun rx s' => ({ s' with op := { s'.op with lastRead := some (beValue rx.tail) } }, Res.ok (beValue rx.tail)))
      hrx k
  · exact hr.tryDo_stop fun a ha => hp ⟨a, ha⟩

theorem regWrite_ran {n : Nat} (hn : validWidth n = true) (a : Addr) (v : BitVec 32) (s : State) :
    ∃ r, Ran s (regWrite a n v s) [.w (frameWr a n v) r] := by
  rw [regWrite, if_neg (by simp [hn])]
  exact tWrite_ran _ s

/-- `REG.UPDATE` reads once, and writes at most once, a value that differs from the one read (R142). -/
theorem regUpdate_ran (a : Addr) (f : Byte → Byte) (s : State) :
    (∃ r, Ran s (regUpdate a f s) [.x (frameRd a 1) r]) ∨
    (∃ r r' old, f old ≠ old ∧
      Ran s (regUpdate a f s) [.x (frameRd a 1) r, .w (frameWr a 1 ((f old).setWidth 32)) r']) := by
  obtain ⟨r, hr⟩ := regRead_ran (n := 1) rfl a s
  unfold regUpdate
  by_cases hp : ∃ v, (regRead a 1 s).2 = .ok v
  · obtain ⟨v, hv⟩ := hp
    by_cases hf : f (v.setWidth 8) = v.setWidth 8
    · left
      refine ⟨r, ?_⟩
      have k : Ran (regRead a 1 s).1 ((regRead a 1 s).1, Res.ok ()) [] := Ran.pure _ _
      have := hr.tryDo_ok (f := fun v s' =>
        if f (v.setWidth 8) = v.setWidth 8 then (s', Res.ok ())
        else regWrite a 1 ((f (v.setWidth 8)).setWidth 32) s') hv (fs := []) (by simpa [hf] using k)
      simpa using this
    · right
      obtain ⟨r', hr'⟩ := regWrite_ran (n := 1) rfl a ((f (v.setWidth 8)).setWidth 32) (regRead a 1 s).1
      refine ⟨r, r', v.setWidth 8, hf, ?_⟩
      have := hr.tryDo_ok (f := fun v s' =>
        if f (v.setWidth 8) = v.setWidth 8 then (s', Res.ok ())
        else regWrite a 1 ((f (v.setWidth 8)).setWidth 32) s') hv (by simpa [hf] using hr')
      simpa using this
  · left
    exact ⟨r, hr.tryDo_stop fun a ha => hp ⟨a, ha⟩⟩

theorem readCodec_ran {w : Nat} {T : Type} (hw : validWidth w = true) (k : RegCodec w T) (s : State) :
    ∃ r, Ran s (readCodec k s) [.x (frameRd k.addr w) r] := by
  obtain ⟨r, hr⟩ := regRead_ran hw k.addr s
  exact ⟨r, hr.tryDo_map⟩

/-- `Delay` is logged and advances the clock; nothing else changes (R178). -/
theorem delay_ran {α : Type} (ms : Nat) (s : State) (a : α) : Ran s (delay ms s, Res.ok a) [.d ms] :=
  ⟨by constructor <;> rfl, rfl, by simp [callsIn, BusEvent.isCall], by simp [delaysIn],
    by simp [BusEvent.succeeded], by simp, by simp, id⟩

/-! Entry and delivery (R145). -/

/-- What entry can answer (R145, steps 2 to 6). -/
theorem enter_cases (op : Byte) (gate : Cfg → Mode → Bool) (body : State → State × Res Payload) (s : State) :
    (s.alive = false ∧ enter op gate body s = answerNotAlive op s) ∨
    (s.alive = true ∧ ∃ r, s.fault = some r ∧ enter op gate body s = respond (.faulted r) s) ∨
    (s.alive = true ∧ s.fault = none ∧ gate s.cfg s.mode = false ∧
      enter op gate body s = raiseFault .illegalInMode (.illegalInMode op s.mode) s) ∨
    (s.alive = true ∧ s.fault = none ∧ gate s.cfg s.mode = true ∧ enter op gate body s = answer (body s)) := by
  unfold enter whenServing
  cases ha : s.alive
  · simp
  · cases hf : s.fault with
    | some r => simp
    | none => cases hg : gate s.cfg s.mode <;> simp [hg]

/-- A delivered outcome that is a next state is the state computed, but for the calls left before the transport
hangs (R195). -/
theorem deliver_next {s t u : State} (h : deliver s t = .next u) :
    (s.hangAfter = none ∧ u = t) ∨
    (∃ k, s.hangAfter = some k ∧ t.calls - s.calls ≤ k ∧ u = { t with hangAfter := some (k - (t.calls - s.calls)) }) := by
  unfold deliver at h
  split at h
  · cases h; exact .inl ⟨by assumption, rfl⟩
  · split at h
    · cases h; exact .inr ⟨_, by assumption, by assumption, rfl⟩
    · cases h

theorem accept_next {run : State → State} {s u : State} (h : accept run s = .next u) :
    s.cfg.wf = true ∧ deliver s (run s) = .next u := by
  unfold accept at h
  split at h
  · exact ⟨by assumption, h⟩
  · cases h

/-- With a transport that returns from every call, every accepted request ends in its response (R12, R56). -/
theorem accept_eq {run : State → State} {s : State} (hw : s.cfg.wf = true) (hh : s.hangAfter = none) :
    accept run s = .next (run s) := by
  simp [accept, deliver, hw, hh]

/-- A delivered outcome differs from the state computed in `hangAfter` at most. -/
theorem deliver_eq {s t u : State} (h : deliver s t = .next u) :
    ∃ k, u = { t with hangAfter := k } := by
  rcases deliver_next h with ⟨_, rfl⟩ | ⟨k, _, _, rfl⟩
  · exact ⟨_, rfl⟩
  · exact ⟨_, rfl⟩

/-- An outcome reached without a call is delivered as it is. -/
theorem deliver_quiet {s t : State} (h : t.calls = s.calls) (k : t.hangAfter = s.hangAfter) :
    deliver s t = .next t := by
  unfold deliver
  cases hs : s.hangAfter with
  | none => rfl
  | some n =>
    simp only [h, Nat.sub_self, Nat.zero_le, if_true, Nat.sub_zero]
    rw [← h, ← hs, ← k]

/-- A request answered without a call completes whatever the transport does. -/
theorem accept_quiet {run : State → State} {s : State} (hw : s.cfg.wf = true) (h : (run s).calls = s.calls)
    (k : (run s).hangAfter = s.hangAfter) : accept run s = .next (run s) := by
  rw [accept, if_pos hw, deliver_quiet h k]

/-- A served, legal request runs its body (R145, step 6). -/
theorem operate_eq {op : Byte} {gate : Cfg → Mode → Bool} {body : State → State × Res Payload} {s : State}
    (h : Serving s) (hg : gate s.cfg s.mode = true) : operate op gate body s = .next (answer (body s)) := by
  obtain ⟨hw, hh, ha, hf⟩ := h
  rw [operate, accept_eq hw hh]
  simp [enter, whenServing, ha, hf, hg]

end Sys2Proof.Machine
end

