-- ==== Sys2Proof/Laws/Exec.lean ====
section
/-! SUPPORT. Laws/Exec.lean: what an instruction can do, said once. Every instruction but `NEW` is operation entry
around a body (spec/44_mode_machine.md R145), and every body is a run of bus transactions followed, on success only,
by the one write the instruction makes to `S` (R164). -/

namespace Sys2Proof.Machine

/-- The body of each instruction; `NEW` has none (R145 step 1). -/
def execBody (cfg : Cfg) : Instr → State → State × Res Payload
  | .conv r => commandBody (cmdConv r)
  | .pwrdn => commandBody (cmdPwrdn cfg)
  | .cal => commandBody (cmdCal cfg)
  | .wreg a n v => writeBody a n v
  | .rreg a n => readBody a n
  | .new => fun s => (s, .ok .empty)
  | .release => releaseBody
  | .intoStandby => transitionBody cfg.aCtrl1 (fun v => withPower cfg v .standby) (cmdPwrdn cfg) .standby
  | .intoSleep => transitionBody cfg.aCtrl1 (fun v => withPower cfg v .sleep) (cmdPwrdn cfg) .sleep
  | .intoConversion rate cont =>
    transitionBody cfg.aCtrl1 (fun v => withContinuous cfg (withPower cfg v .conversion) cont)
      (cmdConv rate.code) .conversion
  | .setClock src => settingBody cfg.aCtrl1 fun v => withClock cfg v src
  | .setFormat fmt => settingBody cfg.aCtrl1 fun v => withFormat cfg v fmt
  | .setGain g => settingBody cfg.aCtrl2 fun v => withGain cfg v g
  | .calibrate kind => calibrateBody cfg kind
  | .readSoc => read24Body (socCodec cfg)
  | .readSgc => read24Body (sgcCodec cfg)
  | .readScoc => read24Body (scocCodec cfg)
  | .readScgc => read24Body (scgcCodec cfg)
  | .readData => read24Body (dataCodec cfg)
  | .readStatus => readStatusBody cfg

theorem hostOp_hostWord (op arg : Byte) : hostOp (hostWord op arg) = op := by
  apply BitVec.eq_of_getLsbD_eq
  intro i hi
  rw [hostOp, hostWord, BitVec.getLsbD_extractLsb', BitVec.getLsbD_append, if_neg (by omega)]
  simp [hi]

theorem hostArg_hostWord (op arg : Byte) : hostArg (hostWord op arg) = arg := by
  apply BitVec.eq_of_getLsbD_eq
  intro i hi
  rw [hostArg, hostWord, BitVec.getLsbD_extractLsb', BitVec.getLsbD_append, if_pos (by omega)]
  simp [hi]

/-- Every instruction but `NEW` is operation entry around its body, gated by the table of R146. -/
theorem exec_eq_operate {i : Instr} (h : i ≠ .new) (s : State) :
    exec i s = operate (instrCode s.cfg i) (fun c m => legalInMode c i m) (execBody s.cfg i) s := by
  cases i <;> first
    | exact absurd rfl h
    | simp only [instrCode, encode, requestOp, hostOp_hostWord]; rfl

/-- The one write to `S` an instruction makes after its last call has returned `Ok` (R164, R161). -/
def commit : Instr → State → State
  | .intoStandby, s => { s with mode := .standby }
  | .intoSleep, s => { s with mode := .sleep }
  | .intoConversion _ _, s => { s with mode := .conversion }
  | .release, s => { s with alive := false }
  | _, s => s

/-- What a body does: bus traffic within the counts of R165, and then its one write, on success only (R164). -/
structure BodyRan (i : Instr) (s : State) (p : State × Res Payload) (t : State) (es : List BusEvent) : Prop where
  ran : Ran s (t, p.2) es
  done : ∀ x, p.2 = .ok x → p.1 = commit i t
  stopped : (∀ x, p.2 ≠ .ok x) → p.1 = t
  most : callsIn es ≤ (callCounts i).2
  least : ∀ x, p.2 = .ok x → (callCounts i).1 ≤ callsIn es
  first : i.wellFormed = true → 1 ≤ (callCounts i).1 → 1 ≤ callsIn es
  still : (∀ x, p.2 ≠ .ok x) ∨ (∀ k, i ≠ .calibrate k) → es.all BusEvent.isCall = true

/-- The state a body leaves is the one its bus traffic left, with or without the instruction's one write. -/
theorem BodyRan.left {i : Instr} {s t : State} {p : State × Res Payload} {es : List BusEvent} (h : BodyRan i s p t es) :
    (p.1 = commit i t ∧ ∃ x, p.2 = .ok x) ∨ (p.1 = t ∧ ∀ x, p.2 ≠ .ok x) := by
  by_cases hx : ∃ x, p.2 = .ok x
  · exact .inl ⟨h.done _ hx.choose_spec, hx⟩
  · exact .inr ⟨h.stopped fun x k => hx ⟨x, k⟩, fun x k => hx ⟨x, k⟩⟩

theorem commit_log (i : Instr) (t : State) : (commit i t).log = t.log := by cases i <;> rfl

theorem commit_calls (i : Instr) (t : State) : (commit i t).calls = t.calls := by cases i <;> rfl

theorem commit_now (i : Instr) (t : State) : (commit i t).now = t.now := by cases i <;> rfl

theorem commit_dev (i : Instr) (t : State) : (commit i t).dev = t.dev := by cases i <;> rfl

theorem commit_responses (i : Instr) (t : State) : (commit i t).responses = t.responses := by cases i <;> rfl

theorem BodyRan.of_ran {i : Instr} {s : State} {p : State × Res Payload} {es : List BusEvent} (h : Ran s p es)
    (hc : commit i p.1 = p.1) (hm : callsIn es ≤ (callCounts i).2) (hl : (callCounts i).1 ≤ callsIn es)
    (hd : es.all BusEvent.isCall = true) :
    BodyRan i s p p.1 es :=
  ⟨h, fun _ _ => hc.symm, fun _ => rfl, hm, fun _ _ => hl, fun _ h1 => Nat.le_trans h1 hl, fun _ => hd⟩

/-- `CMD.SEND` as a body. -/
theorem commandBody_ran (c : Byte) (s : State) : ∃ r, Ran s (commandBody c s) [.w [c] r] := by
  obtain ⟨r, hr⟩ := cmdSend_ran c s
  exact ⟨r, hr.tryDo_map⟩

/-- A 24-bit read as a body. -/
theorem read24Body_ran (k : RegCodec 3 Value24) (s : State) :
    ∃ r, Ran s (read24Body k s) [.x (frameRd k.addr 3) r] := by
  obtain ⟨r, hr⟩ := readCodec_ran (w := 3) rfl k s
  exact ⟨r, hr.tryDo_map⟩

/-- A read-modify-write as a body. -/
theorem settingBody_ran (a : Addr) (f : Byte → Byte) (s : State) :
    (∃ r, Ran s (settingBody a f s) [.x (frameRd a 1) r]) ∨
    (∃ r r' old, f old ≠ old ∧
      Ran s (settingBody a f s) [.x (frameRd a 1) r, .w (frameWr a 1 ((f old).setWidth 32)) r']) := by
  rcases regUpdate_ran a f s with ⟨r, hr⟩ | ⟨r, r', old, ho, hr⟩
  · exact .inl ⟨r, hr.tryDo_map⟩
  · exact .inr ⟨r, r', old, ho, hr.tryDo_map⟩

/-- A successful run of `REG.UPDATE` made one or two calls (R144). -/
theorem regUpdate_calls (a : Addr) (f : Byte → Byte) (s : State) :
    ∃ es, Ran s (regUpdate a f s) es ∧ 1 ≤ callsIn es ∧ callsIn es ≤ 2 ∧ es.all BusEvent.isCall = true := by
  rcases regUpdate_ran a f s with ⟨r, hr⟩ | ⟨r, r', old, _, hr⟩
  · exact ⟨_, hr, by simp, by simp, rfl⟩
  · exact ⟨_, hr, by simp, by simp, rfl⟩

/-- The computation of a transition or calibration up to its last call: an update, then a command (R148, R154). -/
theorem updateThenSend_ran (a : Addr) (f : Byte → Byte) (c : Byte) (s : State) :
    ∃ es, Ran s (tryDo (regUpdate a f s) fun _ s1 => cmdSend c s1) es ∧ 1 ≤ callsIn es ∧ callsIn es ≤ 3 ∧
      es.all BusEvent.isCall = true ∧
      ∀ x, (tryDo (regUpdate a f s) fun _ s1 => cmdSend c s1).2 = .ok x → 2 ≤ callsIn es := by
  obtain ⟨es, hes, h1, h2, h3⟩ := regUpdate_calls a f s
  by_cases hp : ∃ u, (regUpdate a f s).2 = .ok u
  · obtain ⟨u, hu⟩ := hp
    obtain ⟨r, hr⟩ := cmdSend_ran c (regUpdate a f s).1
    refine ⟨_, hes.tryDo_ok (f := fun _ s1 => cmdSend c s1) hu hr, ?_, ?_,
      by rw [List.all_append, h3]; rfl, fun _ _ => ?_⟩
    all_goals rw [callsIn_append, show callsIn [BusEvent.w [c] r] = 1 from rfl]; omega
  · have hn : ∀ u, (regUpdate a f s).2 ≠ .ok u := fun u hu => hp ⟨u, hu⟩
    refine ⟨es, hes.tryDo_stop hn, h1, by omega, h3, ?_⟩
    intro x hx
    unfold tryDo at hx
    split at hx
    · rename_i u hu; exact absurd hu (hn u)
    · cases hx
    · cases hx

/-- `try` is associative. -/
theorem tryDo_assoc {α β γ : Type} (p : State × Res α) (f : α → State → State × Res β)
    (g : β → State → State × Res γ) :
    tryDo (tryDo p f) g = tryDo p fun a s => tryDo (f a s) g := by
  rcases p with ⟨s, _ | _ | _⟩ <;> rfl

/-- Finishing a computation with one write on success. -/
theorem tryDo_finish {i : Instr} {s : State} {p : State × Res Unit} {es : List BusEvent} {g : State → State}
    (h : Ran s p es) (hg : ∀ t, g t = commit i t) (hm : callsIn es ≤ (callCounts i).2)
    (hl : ∀ x, p.2 = .ok x → (callCounts i).1 ≤ callsIn es) (h1 : 1 ≤ callsIn es)
    (hd : es.all BusEvent.isCall = true) :
    BodyRan i s (tryDo p fun _ t => (g t, .ok .empty)) p.1 es := by
  rcases p with ⟨t, u | e | q⟩
  · refine ⟨⟨h.quiet, h.log, h.calls, h.now, fun _ _ => h.ok u rfl, ?_, ?_, h.devWf⟩, fun _ _ => hg t,
      fun hn => absurd rfl (hn .empty), hm, fun _ _ => hl u rfl, fun _ _ => h1, fun _ => hd⟩
    · intro x hx; cases hx
    · intro x hx; cases hx
  · refine ⟨⟨h.quiet, h.log, h.calls, h.now, ?_, ?_, ?_, h.devWf⟩, ?_, fun _ => rfl, hm, ?_, fun _ _ => h1, fun _ => hd⟩
    · intro x hx; cases hx
    · intro x hx; cases hx; exact h.err e rfl
    · intro x hx; cases hx
    · intro x hx; cases hx
    · intro x hx; cases hx
  · refine ⟨⟨h.quiet, h.log, h.calls, h.now, ?_, ?_, ?_, h.devWf⟩, ?_, fun _ => rfl, hm, ?_, fun _ _ => h1, fun _ => hd⟩
    · intro x hx; cases hx
    · intro x hx; cases hx
    · intro x hx; cases hx; exact h.refuse q rfl
    · intro x hx; cases hx
    · intro x hx; cases hx

/-- A transition as a body (R148 to R150). -/
theorem transitionBody_ran {i : Instr} {m : Mode} (a : Addr) (f : Byte → Byte) (c : Byte) (s : State)
    (hi : ∀ t, commit i t = { t with mode := m }) (hc : callCounts i = (2, 3)) :
    ∃ t es, BodyRan i s (transitionBody a f c m s) t es := by
  obtain ⟨es, hes, h0, h1, h3, h2⟩ := updateThenSend_ran a f c s
  have e : transitionBody a f c m s =
      tryDo (tryDo (regUpdate a f s) fun _ s1 => cmdSend c s1) fun _ t => ({ t with mode := m }, .ok .empty) :=
    (tryDo_assoc _ _ _).symm
  rw [e]
  exact ⟨_, es, tryDo_finish hes (fun t => (hi t).symm) (by rw [hc]; exact h1) (by rw [hc]; exact h2) h0 h3⟩

/-- `CALIBRATE` as a body (R154). -/
theorem calibrateBody_ran (cfg : Cfg) (kind : CalKind) (s : State) :
    ∃ es, Ran s (calibrateBody cfg kind s) es ∧ 1 ≤ callsIn es ∧ callsIn es ≤ 3 ∧
      (∀ x, (calibrateBody cfg kind s).2 = .ok x → 2 ≤ callsIn es) ∧
      ((∀ x, (calibrateBody cfg kind s).2 ≠ .ok x) → es.all BusEvent.isCall = true) := by
  obtain ⟨es, hes, h0, h1, h3, h2⟩ := updateThenSend_ran cfg.aCtrl5 (fun v => withCal cfg v kind) (cmdCal cfg) s
  have e : calibrateBody cfg kind s =
      tryDo (tryDo (regUpdate cfg.aCtrl5 (fun v => withCal cfg v kind) s) fun _ s1 => cmdSend (cmdCal cfg) s1)
        fun _ t => (delay (kind.settleMs cfg) t, .ok .empty) := (tryDo_assoc _ _ _).symm
  rw [e]
  by_cases hp : ∃ u, (tryDo (regUpdate cfg.aCtrl5 (fun v => withCal cfg v kind) s) fun _ s1 =>
      cmdSend (cmdCal cfg) s1).2 = .ok u
  · obtain ⟨u, hu⟩ := hp
    refine ⟨_, hes.tryDo_ok hu (delay_ran _ _ _), ?_, ?_, fun _ _ => ?_, fun hx => ?_⟩
    · rw [callsIn_append]; omega
    · rw [callsIn_append, show callsIn [BusEvent.d (kind.settleMs cfg)] = 0 from rfl]; omega
    · rw [callsIn_append]; have := h2 u hu; omega
    · refine absurd ?_ (hx .empty); rw [tryDo_of_ok hu]
  · have hn := fun u hu => hp ⟨u, hu⟩
    refine ⟨es, hes.tryDo_stop hn, h0, h1, ?_, fun _ => h3⟩
    intro x hx
    generalize tryDo (regUpdate cfg.aCtrl5 (fun v => withCal cfg v kind) s) (fun _ s1 =>
      cmdSend (cmdCal cfg) s1) = p at hn hx
    rcases p with ⟨t, u | e | q⟩
    · exact absurd rfl (hn u)
    · cases hx
    · cases hx

/-- A transaction whose width may be refused (R140, R141). -/
theorem writeBody_ran (a : Addr) (n : Nat) (v : BitVec 32) (s : State) :
    ∃ es, Ran s (writeBody a n v s) es ∧ callsIn es ≤ 1 ∧
      (∀ x, (writeBody a n v s).2 = .ok x → 1 ≤ callsIn es) ∧ (validWidth n = true → 1 ≤ callsIn es) ∧
      es.all BusEvent.isCall = true := by
  by_cases hn : validWidth n = true
  · obtain ⟨r, hr⟩ := regWrite_ran hn a v s
    exact ⟨_, hr.tryDo_map, by simp, fun _ _ => by simp, fun _ => by simp, rfl⟩
  · have e : writeBody a n v s = (s, .refuse (.frame (frameWr a n v))) := by
      simp [writeBody, regWrite, hn, tryDo]
    rw [e]
    exact ⟨[], Ran.refused _ _, by decide, by simp, fun h => absurd h hn, rfl⟩

theorem readBody_ran (a : Addr) (n : Nat) (s : State) :
    ∃ es, Ran s (readBody a n s) es ∧ callsIn es ≤ 1 ∧
      (∀ x, (readBody a n s).2 = .ok x → 1 ≤ callsIn es) ∧ (validWidth n = true → 1 ≤ callsIn es) ∧
      es.all BusEvent.isCall = true := by
  by_cases hn : validWidth n = true
  · obtain ⟨r, hr⟩ := regRead_ran hn a s
    exact ⟨_, hr.tryDo_map, by simp, fun _ _ => by simp, fun _ => by simp, rfl⟩
  · have e : readBody a n s = (s, .refuse (.frame (frameRd a n))) := by
      simp [readBody, regRead, hn, tryDo]
    rw [e]
    exact ⟨[], Ran.refused _ _, by decide, by simp, fun h => absurd h hn, rfl⟩

theorem release_ran (s : State) : BodyRan .release s (releaseBody s) s [] :=
  ⟨Ran.pure s _, fun _ _ => rfl, fun hn => absurd rfl (hn .empty), by decide, fun _ _ => by decide,
    fun _ h => absurd h (by decide), fun _ => rfl⟩

/-- What the body of each instruction can do. -/
theorem execBody_ran (cfg : Cfg) (i : Instr) (s : State) : ∃ t es, BodyRan i s (execBody cfg i s) t es := by
  have one : ∀ {i : Instr} {p : State × Res Payload} {e : BusEvent}, Ran s p [e] → e.isCall = true → [e].all BusEvent.isCall = true →
      (∀ t, commit i t = t) → callCounts i = (1, 1) → ∃ t es, BodyRan i s p t es := by
    intro i p e h he hd hc hk
    refine ⟨_, _, BodyRan.of_ran h (hc _) ?_ ?_ hd⟩ <;> simp [callsIn, he, hk]
  have setting : ∀ {i : Instr} (a : Addr) (f : Byte → Byte), (∀ t, commit i t = t) → callCounts i = (1, 2) →
      ∃ t es, BodyRan i s (settingBody a f s) t es := by
    intro i a f hc hk
    rcases settingBody_ran a f s with ⟨r, hr⟩ | ⟨r, r', old, _, hr⟩
    · exact ⟨_, _, BodyRan.of_ran hr (hc _) (by simp [hk]) (by simp [hk]) rfl⟩
    · exact ⟨_, _, BodyRan.of_ran hr (hc _) (by simp [hk]) (by simp [hk]) rfl⟩
  cases i with
  | conv r => obtain ⟨w, h⟩ := commandBody_ran (cmdConv r) s; exact one h rfl rfl (fun _ => rfl) rfl
  | pwrdn => obtain ⟨w, h⟩ := commandBody_ran (cmdPwrdn cfg) s; exact one h rfl rfl (fun _ => rfl) rfl
  | cal => obtain ⟨w, h⟩ := commandBody_ran (cmdCal cfg) s; exact one h rfl rfl (fun _ => rfl) rfl
  | wreg a n v =>
    obtain ⟨es, h, h1, h2, h3, h4⟩ := writeBody_ran a n v s
    refine ⟨_, es, h, fun _ _ => rfl, fun _ => rfl, h1, h2, fun hw _ => h3 ?_, fun _ => h4⟩
    simp only [Instr.wellFormed, Bool.and_eq_true] at hw
    exact hw.1
  | rreg a n =>
    obtain ⟨es, h, h1, h2, h3, h4⟩ := readBody_ran a n s
    exact ⟨_, es, h, fun _ _ => rfl, fun _ => rfl, h1, h2, fun hw _ => h3 hw, fun _ => h4⟩
  | new => exact ⟨s, [], BodyRan.of_ran (Ran.pure s _) rfl (by decide) (by decide) rfl⟩
  | release => exact ⟨s, [], release_ran s⟩
  | intoStandby => exact transitionBody_ran _ _ _ s (fun _ => rfl) rfl
  | intoSleep => exact transitionBody_ran _ _ _ s (fun _ => rfl) rfl
  | intoConversion rate cont => exact transitionBody_ran _ _ _ s (fun _ => rfl) rfl
  | setClock src => exact setting _ _ (fun _ => rfl) rfl
  | setFormat fmt => exact setting _ _ (fun _ => rfl) rfl
  | setGain g => exact setting _ _ (fun _ => rfl) rfl
  | calibrate kind =>
    obtain ⟨es, h, h0, h1, h2, h3⟩ := calibrateBody_ran cfg kind s
    refine ⟨_, es, h, fun _ _ => rfl, fun _ => rfl, h1, h2, fun _ _ => h0, fun hx => h3 ?_⟩
    exact hx.resolve_right fun hk => hk kind rfl
  | readSoc => obtain ⟨w, h⟩ := read24Body_ran (socCodec cfg) s; exact one h rfl rfl (fun _ => rfl) rfl
  | readSgc => obtain ⟨w, h⟩ := read24Body_ran (sgcCodec cfg) s; exact one h rfl rfl (fun _ => rfl) rfl
  | readScoc => obtain ⟨w, h⟩ := read24Body_ran (scocCodec cfg) s; exact one h rfl rfl (fun _ => rfl) rfl
  | readScgc => obtain ⟨w, h⟩ := read24Body_ran (scgcCodec cfg) s; exact one h rfl rfl (fun _ => rfl) rfl
  | readData => obtain ⟨w, h⟩ := read24Body_ran (dataCodec cfg) s; exact one h rfl rfl (fun _ => rfl) rfl
  | readStatus =>
    obtain ⟨w, h⟩ := readCodec_ran (w := 2) rfl (statCodec cfg) s
    exact one h.tryDo_map rfl rfl (fun _ => rfl) rfl

/-- WHAT AN INSTRUCTION CAN DO when it answers a next state (R12, R145): `NEW` re-initialises; any other is turned
away at entry, or runs its body and responds. The last step, `deliver`, touches only `hangAfter`. -/
theorem exec_cases {i : Instr} {s u : State} (h : exec i s = .next u) :
    s.cfg.wf = true ∧ ∃ v, deliver s v = .next u ∧
      ((i = .new ∧ v = reinit s) ∨
       (i ≠ .new ∧ s.alive = false ∧ v = answerNotAlive (instrCode s.cfg i) s) ∨
       (i ≠ .new ∧ s.alive = true ∧ ∃ r, s.fault = some r ∧ v = respond (.faulted r) s) ∨
       (i ≠ .new ∧ s.alive = true ∧ s.fault = none ∧ legalInMode s.cfg i s.mode = false ∧
         v = raiseFault .illegalInMode (.illegalInMode (instrCode s.cfg i) s.mode) s) ∨
       (i ≠ .new ∧ s.alive = true ∧ s.fault = none ∧ legalInMode s.cfg i s.mode = true ∧
         ∃ t es, BodyRan i s (execBody s.cfg i s) t es ∧ v = answer (execBody s.cfg i s))) := by
  by_cases hi : i = .new
  · subst hi
    obtain ⟨hw, hd⟩ := accept_next (run := reinit) h
    exact ⟨hw, _, hd, .inl ⟨rfl, rfl⟩⟩
  · rw [exec_eq_operate hi] at h
    obtain ⟨hw, hd⟩ := accept_next h
    refine ⟨hw, _, hd, ?_⟩
    rcases enter_cases (instrCode s.cfg i) (fun c m => legalInMode c i m) (execBody s.cfg i) s with
      ⟨ha, e⟩ | ⟨ha, r, hf, e⟩ | ⟨ha, hf, hg, e⟩ | ⟨ha, hf, hg, e⟩
    · exact .inr (.inl ⟨hi, ha, e⟩)
    · exact .inr (.inr (.inl ⟨hi, ha, r, hf, e⟩))
    · exact .inr (.inr (.inr (.inl ⟨hi, ha, hf, hg, e⟩)))
    · obtain ⟨t, es, hb⟩ := execBody_ran s.cfg i s
      exact .inr (.inr (.inr (.inr ⟨hi, ha, hf, hg, t, es, hb, e⟩)))

/-- A legal instruction other than `NEW`, in a live block with no fault latched, delivers its body's response. -/
theorem exec_entered {i : Instr} {s : State} (hw : s.cfg.wf = true) (ha : s.alive = true) (hf : s.fault = none)
    (hi : i ≠ .new) (hl : legalInMode s.cfg i s.mode = true) :
    exec i s = deliver s (answer (execBody s.cfg i s)) := by
  rw [exec_eq_operate hi, operate, accept, if_pos hw]
  simp [enter, whenServing, ha, hf, hl]

/-- A served, legal instruction other than `NEW` answers with its body's response (R145, step 6). -/
theorem exec_served {i : Instr} {s : State} (h : Serving s) (hi : i ≠ .new)
    (hl : legalInMode s.cfg i s.mode = true) : exec i s = .next (answer (execBody s.cfg i s)) := by
  rw [exec_eq_operate hi]
  exact operate_eq h hl

end Sys2Proof.Machine
end

