-- ==== Sys2Proof/Laws/Flags.lean ====
section
/-! SUPPORT. Laws/Flags.lean: each function of the flag-register value model (spec/42_register_codecs.md R103) bit by
bit, and the code maps of Machine/Operands.lean as inverses (R127 to R129). -/

namespace Sys2Proof

theorem Flags.getLsbD_mask {n : Nat} (i j : Nat) :
    (Flags.mask i : BitVec n).getLsbD j = (decide (j < n) && decide (j = i)) := by
  simp only [Flags.mask, BitVec.getLsbD_shiftLeft, BitVec.getLsbD_one]
  by_cases hj : j < n <;> by_cases hi : j = i <;> simp [hj, hi] <;> omega

theorem Flags.getLsbD_set {n : Nat} (v : BitVec n) (i j : Nat) (hj : j < n) :
    (Flags.set v i).getLsbD j = (decide (j = i) || v.getLsbD j) := by
  simp only [Flags.set, BitVec.getLsbD_or, Flags.getLsbD_mask, hj, decide_true, Bool.true_and]
  exact Bool.or_comm _ _

theorem Flags.getLsbD_clear {n : Nat} (v : BitVec n) (i j : Nat) (hj : j < n) :
    (Flags.clear v i).getLsbD j = (!decide (j = i) && v.getLsbD j) := by
  simp only [Flags.clear, BitVec.getLsbD_and, BitVec.getLsbD_not, Flags.getLsbD_mask, hj, decide_true, Bool.true_and]
  exact Bool.and_comm _ _

theorem Flags.getLsbD_assign {n : Nat} (v : BitVec n) (i : Nat) (b : Bool) (j : Nat) (hj : j < n) :
    (Flags.assign v i b).getLsbD j = if j = i then b else v.getLsbD j := by
  cases b
  · rw [Flags.assign, if_neg (by decide), Flags.getLsbD_clear v i j hj]
    by_cases h : j = i <;> simp [h]
  · rw [Flags.assign, if_pos rfl, Flags.getLsbD_set v i j hj]
    by_cases h : j = i <;> simp [h]

/-- `has` reads one bit and no other (R103, R126). -/
theorem Flags.has_eq_getLsbD {n : Nat} (v : BitVec n) (i : Nat) : Flags.has v i = v.getLsbD i := by
  rw [Flags.has]
  cases h : v.getLsbD i
  · have : v &&& Flags.mask i = 0 := by
      apply BitVec.eq_of_getLsbD_eq
      intro j hj
      rw [BitVec.getLsbD_and, Flags.getLsbD_mask]
      by_cases hji : j = i
      · subst hji; simp [h]
      · simp [hji]
    simp [this]
  · have hi : i < n := BitVec.lt_of_getLsbD h
    have : v &&& Flags.mask i ≠ 0 := by
      intro e
      have := congrArg (fun w => w.getLsbD i) e
      rw [BitVec.getLsbD_and, Flags.getLsbD_mask, h] at this
      simp [hi] at this
    simpa using this

theorem Flags.getLsbD_ones {n : Nat} (k j : Nat) :
    ((1#n <<< k) - 1).getLsbD j = (decide (j < n) && decide (j < k)) := by
  by_cases hj : j < n
  swap
  · simp [hj, BitVec.getLsbD_of_ge _ _ (Nat.le_of_not_lt hj)]
  have hn : 0 < n := by omega
  by_cases hk : k < n
  · have hpow : (2 : Nat) ^ k < 2 ^ n := Nat.pow_lt_pow_right (by decide) hk
    have hpos : 0 < (2 : Nat) ^ k := Nat.two_pow_pos k
    have h1 : (1 : Nat) % 2 ^ n = 1 := Nat.mod_eq_of_lt (Nat.one_lt_two_pow (by omega))
    have : ((1#n <<< k) - 1).toNat = 2 ^ k - 1 := by
      rw [BitVec.toNat_sub, BitVec.toNat_shiftLeft]
      simp only [BitVec.ofNat_eq_ofNat, BitVec.toNat_ofNat, h1, Nat.shiftLeft_eq, Nat.one_mul]
      rw [Nat.mod_eq_of_lt hpow, show 2 ^ n - 1 + 2 ^ k = 2 ^ k - 1 + 2 ^ n by omega, Nat.add_mod_right,
        Nat.mod_eq_of_lt (by omega)]
    rw [BitVec.getLsbD, this, Nat.testBit_two_pow_sub_one]
    simp [hj]
  · have hz : (1#n <<< k) = 0#n := by
      apply BitVec.eq_of_getLsbD_eq
      intro i hi
      simp [BitVec.getLsbD_shiftLeft]; omega
    have hone : (0#n - 1) = BitVec.allOnes n := by simp [BitVec.neg_one_eq_allOnes]
    rw [hz]
    rw [hone, BitVec.getLsbD_allOnes]
    simp [hj]; omega

theorem Flags.getLsbD_fieldMask {n : Nat} (lsb k j : Nat) (hj : j < n) :
    (Flags.fieldMask lsb k : BitVec n).getLsbD j = (decide (lsb ≤ j) && decide (j < lsb + k)) := by
  rw [Flags.fieldMask, BitVec.getLsbD_shiftLeft, Flags.getLsbD_ones]
  by_cases h1 : lsb ≤ j <;> by_cases h2 : j < lsb + k <;> simp [h1, h2, hj] <;> omega

/-- A field reads the bits from its least significant one on (R103). -/
theorem Flags.get_eq_extract {n : Nat} (v : BitVec n) (lsb k : Nat) : Flags.get v lsb k = v.extractLsb' lsb k := by
  apply BitVec.eq_of_getLsbD_eq
  intro j hj
  rw [Flags.get, BitVec.getLsbD_setWidth, BitVec.getLsbD_and, Flags.getLsbD_ones, BitVec.getLsbD_ushiftRight,
    BitVec.getLsbD_extractLsb']
  by_cases h : j < n
  · simp [h, hj]
  · simp [h, hj, BitVec.getLsbD_of_ge v (lsb + j) (by omega)]

theorem Flags.getLsbD_put {n k : Nat} (v : BitVec n) (lsb : Nat) (x : BitVec k) (j : Nat) (hj : j < n) :
    (Flags.put v lsb x).getLsbD j = if lsb ≤ j ∧ j < lsb + k then x.getLsbD (j - lsb) else v.getLsbD j := by
  simp only [Flags.put, BitVec.getLsbD_or, BitVec.getLsbD_and, BitVec.getLsbD_not, BitVec.getLsbD_shiftLeft,
    BitVec.getLsbD_setWidth, Flags.getLsbD_fieldMask lsb k j hj, hj, decide_true, Bool.true_and]
  by_cases h1 : lsb ≤ j <;> by_cases h2 : j < lsb + k
  · have : j - lsb < n := by omega
    simp [h1, h2, this, Nat.not_lt.mpr h1]
  · simp [h1, h2]
  · simp [h1]
  · simp [h1]

/-- A field reads back as written (R103). -/
theorem Flags.get_put {n k : Nat} (v : BitVec n) (lsb : Nat) (x : BitVec k) (h : lsb + k ≤ n) :
    Flags.get (Flags.put v lsb x) lsb k = x := by
  rw [Flags.get_eq_extract]
  apply BitVec.eq_of_getLsbD_eq
  intro j hj
  rw [BitVec.getLsbD_extractLsb', Flags.getLsbD_put _ _ _ _ (by omega)]
  simp [hj]

theorem rateOfCode_code (r : Rate) : rateOfCode r.code = r := by cases r <;> rfl

theorem code_rateOfCode (c : BitVec 4) : (rateOfCode c).code = c := by revert c; decide

theorem gainOfCode_code (g : Gain) : gainOfCode g.code = g := by cases g <;> rfl

theorem code_gainOfCode (c : BitVec 3) : (gainOfCode c).code = c := by revert c; decide

end Sys2Proof
end

