-- ==== Sys2Proof/Laws/Hang.lean ====
section
/-! SUPPORT. Laws/Hang.lean: how many calls the transport still answers (spec/70_reset_and_hazards.md R195) plays no part
in what an operation computes: only `deliver` looks at it. -/

namespace Sys2Proof.Machine

/-- The state on a transport that answers this many calls more. -/
def State.withHang (s : State) (h : Option Nat) : State := { s with hangAfter := h }

@[simp] theorem State.withHang_cfg (s : State) (h : Option Nat) : (s.withHang h).cfg = s.cfg := rfl
@[simp] theorem State.withHang_calls (s : State) (h : Option Nat) : (s.withHang h).calls = s.calls := rfl
@[simp] theorem State.withHang_hangAfter (s : State) (h : Option Nat) : (s.withHang h).hangAfter = h := rfl
@[simp] theorem State.withHang_withHang (s : State) (h k : Option Nat) : (s.withHang h).withHang k = s.withHang k := rfl

/-- A computation that does not look at the bound. -/
def Unhung {α : Type} (f : State → State × Res α) : Prop :=
  ∀ s h, f (s.withHang h) = ((f s).1.withHang h, (f s).2)

theorem Unhung.pure {α : Type} (g : State → State) (hg : ∀ s h, g (s.withHang h) = (g s).withHang h) (r : Res α) :
    Unhung fun s => (g s, r) := fun s h => by simp [hg]

theorem Unhung.tryDo {α β : Type} {f : State → State × Res α} {g : α → State → State × Res β} (hf : Unhung f)
    (hg : ∀ a, Unhung (g a)) : Unhung fun s => tryDo (f s) g := by
  intro s h
  simp only [Sys2Proof.Machine.tryDo, hf s h]
  cases (f s).2 with
  | ok a => exact hg a _ h
  | err e => rfl
  | refuse q => rfl

theorem issue_withHang (c : Call) (e : BusEvent) (s : State) (h : Option Nat) :
    issue c e (s.withHang h) = (issue c e s).withHang h := by
  cases hp : s.peer <;> simp [issue, envAfter, State.withHang, hp, mockFails]

theorem callResult_withHang (c : Call) (s : State) (h : Option Nat) :
    callResult c (s.withHang h) = callResult c s := rfl

theorem tWrite_unhung (bs : List Byte) : Unhung (tWrite bs) := fun s h => by
  unfold tWrite
  rw [callResult_withHang]
  split <;> simp only [issue_withHang]

theorem tExchange_unhung (bs : List Byte) : Unhung (tExchange bs) := fun s h => by
  unfold tExchange
  rw [callResult_withHang]
  split
  · simp only [issue_withHang]; rfl
  · simp only [issue_withHang]

theorem cmdSend_unhung (c : Byte) : Unhung (cmdSend c) := tWrite_unhung _

theorem regRead_unhung (a : Addr) (n : Nat) : Unhung (regRead a n) := by
  unfold regRead
  split
  · exact Unhung.pure id (fun _ _ => rfl) _
  · exact (tExchange_unhung _).tryDo fun rx => Unhung.pure _ (fun _ _ => rfl) _

theorem regWrite_unhung (a : Addr) (n : Nat) (v : BitVec 32) : Unhung (regWrite a n v) := by
  unfold regWrite
  split
  · exact Unhung.pure id (fun _ _ => rfl) _
  · exact tWrite_unhung _

theorem regUpdate_unhung (a : Addr) (f : Byte → Byte) : Unhung (regUpdate a f) :=
  (regRead_unhung a 1).tryDo fun v => by
    dsimp only
    split
    · exact Unhung.pure id (fun _ _ => rfl) _
    · exact regWrite_unhung _ _ _

theorem readCodec_unhung {w : Nat} {T : Type} (k : RegCodec w T) : Unhung (readCodec k) :=
  (regRead_unhung _ _).tryDo fun _ => Unhung.pure id (fun _ _ => rfl) _

/-- No body looks at the bound. -/
theorem execBody_unhung (cfg : Cfg) (i : Instr) : Unhung (execBody cfg i) := by
  have last : ∀ {α : Type} (r : Res α), Unhung fun s => (s, r) := fun r => Unhung.pure id (fun _ _ => rfl) r
  have cmd : ∀ c, Unhung (commandBody c) := fun c => (cmdSend_unhung c).tryDo fun _ => last _
  have trans : ∀ a f c m, Unhung (transitionBody a f c m) := fun a f c m =>
    (regUpdate_unhung a f).tryDo fun _ => (cmdSend_unhung c).tryDo fun _ => Unhung.pure _ (fun _ _ => rfl) _
  have setting : ∀ a f, Unhung (settingBody a f) := fun a f => (regUpdate_unhung a f).tryDo fun _ => last _
  have read : ∀ k, Unhung (read24Body k) := fun k => (readCodec_unhung k).tryDo fun _ => last _
  cases i with
  | conv | pwrdn | cal => exact cmd _
  | wreg a n v => exact (regWrite_unhung a n v).tryDo fun _ => last _
  | rreg a n => exact (regRead_unhung a n).tryDo fun _ => last _
  | new => exact last _
  | release => exact Unhung.pure _ (fun _ _ => rfl) _
  | intoStandby | intoSleep | intoConversion => exact trans _ _ _ _
  | setClock | setFormat | setGain => exact setting _ _
  | calibrate k =>
    exact (regUpdate_unhung _ _).tryDo fun _ => (cmdSend_unhung _).tryDo fun _ => Unhung.pure _ (fun _ _ => rfl) _
  | readSoc | readSgc | readScoc | readScgc | readData => exact read _
  | readStatus => exact (readCodec_unhung _).tryDo fun _ => last _

theorem answer_withHang (p : State × Res Payload) (h : Option Nat) :
    answer (p.1.withHang h, p.2) = (answer p).withHang h := by
  obtain ⟨s, r⟩ := p
  cases r <;> rfl

/-- Operation entry does not look at the bound, if its body does not. -/
theorem enter_withHang {op : Byte} {gate : Cfg → Mode → Bool} {body : State → State × Res Payload} (hb : Unhung body)
    (s : State) (h : Option Nat) : enter op gate body (s.withHang h) = (enter op gate body s).withHang h := by
  unfold enter whenServing
  by_cases ha : s.alive = false
  · rw [if_pos (show (s.withHang h).alive = false from ha), if_pos ha]; rfl
  · rw [if_neg (show ¬ (s.withHang h).alive = false from ha), if_neg ha]
    cases hf : s.fault with
    | some r => rw [show (s.withHang h).fault = some r from hf]; rfl
    | none =>
      rw [show (s.withHang h).fault = none from hf]
      show (if gate s.cfg s.mode then _ else _) = _
      dsimp only
      split
      · rw [hb s h, answer_withHang]
      · rfl

end Sys2Proof.Machine
end

