-- ==== Sys2Proof/Laws/Scripted.lean ====
section
/-! SUPPORT. Laws/Scripted.lean: the transport primitives and the bus transactions when the oracle's next answers are
known (spec/20_memory.md R56), and when the mock answers (R58): the exact state each leaves. -/

namespace Sys2Proof.Machine

theorem Answers.tWrite_ok {s : State} {w : Received} {rest : List (Answer Received)} (h : Answers s (.ok w :: rest))
    (bs : List Byte) :
    tWrite bs s = ({ s with
      script := rest, log := s.log ++ [.w bs (.ok ())], calls := s.calls + 1,
      op := Transient.issue s.op bs }, .ok ()) := by
  obtain ⟨hp, hs⟩ := h
  simp [tWrite, callResult, issue, envAfter, hp, hs, Call.bytes]

theorem Answers.tWrite_err {s : State} {e : TransportError} {rest : List (Answer Received)}
    (h : Answers s (.err e :: rest)) (bs : List Byte) :
    tWrite bs s = ({ s with
      script := rest, log := s.log ++ [.w bs (.err e)], calls := s.calls + 1,
      op := Transient.issue s.op bs }, .err e) := by
  obtain ⟨hp, hs⟩ := h
  simp [tWrite, callResult, issue, envAfter, hp, hs, Call.bytes]

theorem Answers.tExchange_ok {s : State} {w : Received} {rest : List (Answer Received)}
    (h : Answers s (.ok w :: rest)) (bs : List Byte) :
    tExchange bs s = ({ s with
      script := rest, log := s.log ++ [.x bs (.ok (receivedBytes bs.length w))], calls := s.calls + 1,
      op := ⟨receivedBytes bs.length w, s.op.lastRead, s.op.position + 1⟩ },
      .ok (receivedBytes bs.length w)) := by
  obtain ⟨hp, hs⟩ := h
  simp [tExchange, callResult, issue, envAfter, hp, hs, Call.bytes, Transient.issue]

theorem Answers.tExchange_err {s : State} {e : TransportError} {rest : List (Answer Received)}
    (h : Answers s (.err e :: rest)) (bs : List Byte) :
    tExchange bs s = ({ s with
      script := rest, log := s.log ++ [.x bs (.err e)], calls := s.calls + 1,
      op := Transient.issue s.op bs }, .err e) := by
  obtain ⟨hp, hs⟩ := h
  simp [tExchange, callResult, issue, envAfter, hp, hs, Call.bytes]

theorem Answers.regRead_ok {s : State} {w : Received} {rest : List (Answer Received)}
    (h : Answers s (.ok w :: rest)) (a : Addr) {n : Nat} (hn : validWidth n = true) :
    regRead a n s = ({ s with
      script := rest, log := s.log ++ [.x (frameRd a n) (.ok (receivedBytes (n + 1) w))], calls := s.calls + 1,
      op := ⟨receivedBytes (n + 1) w, some (beValue (receivedBytes (n + 1) w).tail), s.op.position + 1⟩ },
      .ok (beValue (receivedBytes (n + 1) w).tail)) := by
  have hl : (frameRd a n).length = n + 1 := by simp [frameRd]
  simp only [regRead, hn, if_neg, Bool.true_eq_false, not_false_eq_true, h.tExchange_ok, tryDo, hl]

theorem Answers.regRead_err {s : State} {e : TransportError} {rest : List (Answer Received)}
    (h : Answers s (.err e :: rest)) (a : Addr) {n : Nat} (hn : validWidth n = true) :
    regRead a n s = ({ s with
      script := rest, log := s.log ++ [.x (frameRd a n) (.err e)], calls := s.calls + 1,
      op := Transient.issue s.op (frameRd a n) }, .err e) := by
  simp only [regRead, hn, if_neg, Bool.true_eq_false, not_false_eq_true, h.tExchange_err, tryDo]

theorem Answers.regWrite_ok {s : State} {w : Received} {rest : List (Answer Received)}
    (h : Answers s (.ok w :: rest)) (a : Addr) {n : Nat} (hn : validWidth n = true) (v : BitVec 32) :
    regWrite a n v s = ({ s with
      script := rest, log := s.log ++ [.w (frameWr a n v) (.ok ())], calls := s.calls + 1,
      op := Transient.issue s.op (frameWr a n v) }, .ok ()) := by
  simp only [regWrite, hn, if_neg, Bool.true_eq_false, not_false_eq_true, h.tWrite_ok]

theorem Answers.regWrite_err {s : State} {e : TransportError} {rest : List (Answer Received)}
    (h : Answers s (.err e :: rest)) (a : Addr) {n : Nat} (hn : validWidth n = true) (v : BitVec 32) :
    regWrite a n v s = ({ s with
      script := rest, log := s.log ++ [.w (frameWr a n v) (.err e)], calls := s.calls + 1,
      op := Transient.issue s.op (frameWr a n v) }, .err e) := by
  simp only [regWrite, hn, if_neg, Bool.true_eq_false, not_false_eq_true, h.tWrite_err]

/-- The value of a one-byte read, as the read-modify-write sees it (R142). -/
theorem setWidth_oneByte (w : Received) : (beValue (receivedBytes (1 + 1) w).tail).setWidth 8 = w.r1 := by
  apply BitVec.eq_of_getLsbD_eq
  intro i hi
  simp [receivedBytes, beValue, hi]

/-- The transient state a one-byte read leaves. -/
def Transient.afterRead (t : Transient) (w : Received) : Transient :=
  ⟨receivedBytes 2 w, some (beValue (receivedBytes 2 w).tail), t.position + 1⟩

theorem Answers.regUpdate_readErr {s : State} {e : TransportError} {rest : List (Answer Received)}
    (h : Answers s (.err e :: rest)) (a : Addr) (f : Byte → Byte) :
    regUpdate a f s = ({ s with
      script := rest, log := s.log ++ [.x (frameRd a 1) (.err e)], calls := s.calls + 1,
      op := Transient.issue s.op (frameRd a 1) }, .err e) := by
  rw [regUpdate, h.regRead_err a (n := 1) rfl]
  rfl

theorem Answers.regUpdate_same {s : State} {w : Received} {rest : List (Answer Received)}
    (h : Answers s (.ok w :: rest)) (a : Addr) {f : Byte → Byte} (hf : f w.r1 = w.r1) :
    regUpdate a f s = ({ s with
      script := rest, log := s.log ++ [.x (frameRd a 1) (.ok (receivedBytes 2 w))], calls := s.calls + 1,
      op := Transient.afterRead s.op w }, .ok ()) := by
  rw [regUpdate, h.regRead_ok a (n := 1) rfl]
  simp only [tryDo, setWidth_oneByte, hf, if_true]
  rfl

theorem Answers.regUpdate_changed {s : State} {w w' : Received} {rest : List (Answer Received)}
    (h : Answers s (.ok w :: .ok w' :: rest)) (a : Addr) {f : Byte → Byte} (hf : f w.r1 ≠ w.r1) :
    regUpdate a f s = ({ s with
      script := rest,
      log := s.log ++ [.x (frameRd a 1) (.ok (receivedBytes 2 w)), .w (frameWr a 1 ((f w.r1).setWidth 32)) (.ok ())],
      calls := s.calls + 2,
      op := Transient.issue (Transient.afterRead s.op w) (frameWr a 1 ((f w.r1).setWidth 32)) }, .ok ()) := by
  rw [regUpdate, h.regRead_ok a (n := 1) rfl]
  simp only [tryDo, setWidth_oneByte, hf, if_false]
  refine (Answers.regWrite_ok (w := w') (rest := rest) ?_ a (n := 1) rfl _).trans ?_
  · exact ⟨h.1, rfl⟩
  · simp [Transient.afterRead]

theorem Answers.regUpdate_writeErr {s : State} {w : Received} {e : TransportError} {rest : List (Answer Received)}
    (h : Answers s (.ok w :: .err e :: rest)) (a : Addr) {f : Byte → Byte} (hf : f w.r1 ≠ w.r1) :
    regUpdate a f s = ({ s with
      script := rest,
      log := s.log ++ [.x (frameRd a 1) (.ok (receivedBytes 2 w)), .w (frameWr a 1 ((f w.r1).setWidth 32)) (.err e)],
      calls := s.calls + 2,
      op := Transient.issue (Transient.afterRead s.op w) (frameWr a 1 ((f w.r1).setWidth 32)) }, .err e) := by
  rw [regUpdate, h.regRead_ok a (n := 1) rfl]
  simp only [tryDo, setWidth_oneByte, hf, if_false]
  refine (Answers.regWrite_err (e := e) (rest := rest) ?_ a (n := 1) rfl _).trans ?_
  · exact ⟨h.1, rfl⟩
  · simp [Transient.afterRead]

/-! The frames as R64 and R65 show them. -/

theorem cmdRreg_eq_rdByte (a : Addr) : cmdRreg (a.setWidth 8) = rdByte a := by revert a; decide

theorem cmdWreg_eq_wrByte (a : Addr) : cmdWreg (a.setWidth 8) = wrByte a := by revert a; decide

theorem frameRd_eq (a : Addr) (n : Nat) : frameRd a n = rdByte a :: List.replicate n 0 := by
  rw [frameRd, cmdRreg_eq_rdByte]

theorem frameWr_eq (a : Addr) (n : Nat) (v : BitVec 32) : frameWr a n v = wrByte a :: beBytes n v := by
  rw [frameWr, cmdWreg_eq_wrByte]

theorem frameWr_byte (a : Addr) (b : Byte) : frameWr a 1 (b.setWidth 32) = [wrByte a, b] := by
  rw [frameWr_eq]
  simp [beBytes]

end Sys2Proof.Machine
end

