-- ==== Sys2Proof/Laws/Mock.lean ====
section
/-! SUPPORT. Laws/Mock.lean: what each bus transaction does to the mock device's registers (spec/20_memory.md R58,
R59), and the exact state each leaves when the mock answers. -/

namespace Sys2Proof.Machine

/-! Which cells a transaction can change, in every environment. -/

theorem issue_dev (c : Call) (e : BusEvent) (s : State) :
    (issue c e s).dev = s.dev ∨ (issue c e s).dev = mockStore s.dev c := by
  show (envAfter c s).dev = _ ∨ (envAfter c s).dev = _
  unfold envAfter
  cases s.peer with
  | oracle => exact .inl rfl
  | mock => dsimp only; split <;> simp

/-- A command frame stores nothing (R58). -/
theorem cmdSend_dev (c : Byte) (s : State) : (cmdSend c s).1.dev = s.dev := by
  have h : ∀ e, (issue (.write [c]) e s).dev = s.dev := fun e => (issue_dev _ e s).elim id id
  unfold cmdSend tWrite
  split <;> exact h _

/-- An exchange stores nothing (R58). -/
theorem tExchange_dev (bs : List Byte) (s : State) : (tExchange bs s).1.dev = s.dev := by
  have h : ∀ e, (issue (.exchange bs) e s).dev = s.dev := fun e => (issue_dev _ e s).elim id id
  unfold tExchange
  split
  · rename_i r _; exact h (.x bs (.ok (receivedBytes bs.length r)))
  · exact h _

theorem regRead_dev (a : Addr) (n : Nat) (s : State) : (regRead a n s).1.dev = s.dev := by
  have h := tExchange_dev (frameRd a n) s
  unfold regRead
  split
  · rfl
  · unfold tryDo; split <;> exact h

theorem readCodec_dev {w : Nat} {T : Type} (k : RegCodec w T) (s : State) : (readCodec k s).1.dev = s.dev := by
  have h := regRead_dev k.addr w s
  unfold readCodec tryDo
  split <;> exact h

/-- The command byte of a register write names its register and is a write (R58, R94). -/
theorem wrByte_fields (a : Addr) :
    (wrByte a).extractLsb' 6 2 = 3 ∧ (wrByte a).getLsbD 0 = false ∧ (wrByte a).extractLsb' 1 5 = a := by
  revert a; decide

/-- The command byte of a register read names its register and is a read (R58, R95). -/
theorem rdByte_fields (a : Addr) :
    (rdByte a).extractLsb' 6 2 = 3 ∧ (rdByte a).getLsbD 0 = true ∧ (rdByte a).extractLsb' 1 5 = a := by
  revert a; decide

theorem mockStore_frameWr (dev : Memory) (a : Addr) {n : Nat} (hn : validWidth n = true) (v : BitVec 32) :
    mockStore dev (.write (frameWr a n v)) = dev.writeReg a (beValue (beBytes n v)) := by
  obtain ⟨h1, h2, h3⟩ := wrByte_fields a
  rw [frameWr_eq]
  cases n with
  | zero => cases hn
  | succ n => simp only [beBytes, mockStore, h1, h2, h3, and_self, if_true]

theorem readByte_writeReg_outside (m : Memory) (a : Addr) (v : BitVec 32) {k : Nat} (h : ¬ inRegister a k) :
    (m.writeReg a v).readByte k = m.readByte k := by
  apply Memory.readByte_writeReg_other
  unfold inRegister at h
  unfold regBase
  omega

/-- A register write changes no cell outside its register (R58). -/
theorem regWrite_dev (a : Addr) (n : Nat) (v : BitVec 32) (s : State) {k : Nat} (h : ¬ inRegister a k) :
    (regWrite a n v s).1.dev.readByte k = s.dev.readByte k := by
  unfold regWrite
  split
  · rfl
  · rename_i hn
    have key : ∀ e, (issue (.write (frameWr a n v)) e s).dev.readByte k = s.dev.readByte k := by
      intro e
      rcases issue_dev (.write (frameWr a n v)) e s with h' | h'
      · rw [h']
      · rw [h', mockStore_frameWr _ _ (by simpa using hn), readByte_writeReg_outside _ _ _ h]
    unfold tWrite
    split <;> exact key _

/-- A read-modify-write changes no cell outside its register (R142). -/
theorem regUpdate_dev (a : Addr) (f : Byte → Byte) (s : State) {k : Nat} (h : ¬ inRegister a k) :
    (regUpdate a f s).1.dev.readByte k = s.dev.readByte k := by
  have hr := regRead_dev a 1 s
  unfold regUpdate tryDo
  split
  · dsimp only
    split
    · rw [hr]
    · rw [regWrite_dev _ _ _ _ h, hr]
  · rw [hr]
  · rw [hr]

/-! The mock's answers. -/

theorem MockReady.call {s : State} (h : MockReady s) (c : Call) : callResult c s = .ok (mockAnswer s.dev c) := by
  simp [callResult, h.1, mockFails, h.2]

theorem MockReady.env {s : State} (h : MockReady s) (c : Call) :
    envAfter c s = { s with dev := mockStore s.dev c } := by
  simp [envAfter, h.1, mockFails, h.2]

theorem MockReady.tWrite {s : State} (h : MockReady s) (bs : List Byte) :
    tWrite bs s = ({ s with
      dev := mockStore s.dev (.write bs), log := s.log ++ [.w bs (.ok ())], calls := s.calls + 1,
      op := Transient.issue s.op bs }, .ok ()) := by
  simp [Machine.tWrite, h.call, issue, h.env, Call.bytes]

theorem MockReady.cmdSend {s : State} (h : MockReady s) (c : Byte) :
    cmdSend c s = ({ s with
      log := s.log ++ [.w [c] (.ok ())], calls := s.calls + 1, op := Transient.issue s.op [c] }, .ok ()) := by
  rw [Machine.cmdSend, frameCmd, h.tWrite]
  rfl

theorem MockReady.regWrite {s : State} (h : MockReady s) (a : Addr) {n : Nat} (hn : validWidth n = true)
    (v : BitVec 32) :
    regWrite a n v s = ({ s with
      dev := s.dev.writeReg a (beValue (beBytes n v)), log := s.log ++ [.w (frameWr a n v) (.ok ())],
      calls := s.calls + 1, op := Transient.issue s.op (frameWr a n v) }, .ok ()) := by
  rw [Machine.regWrite, if_neg (by simp [hn]), h.tWrite, mockStore_frameWr _ _ hn]

theorem receivedOf_take {bs : List Byte} (h : bs.length ≤ 5) : receivedBytes bs.length (receivedOf bs) = bs := by
  match bs, h with
  | [], _ | [_], _ | [_, _], _ | [_, _, _], _ | [_, _, _, _], _ | [_, _, _, _, _], _ => rfl

theorem mockAnswer_frameRd (dev : Memory) (a : Addr) {n : Nat} (hn : validWidth n = true) :
    receivedBytes (n + 1) (mockAnswer dev (.exchange (frameRd a n))) = 0 :: beBytes n (dev.readReg a) := by
  obtain ⟨h1, h2, h3⟩ := rdByte_fields a
  have hl : n ≤ 4 := by
    simp only [validWidth, Bool.and_eq_true, decide_eq_true_eq] at hn
    exact hn.2
  have e : mockAnswer dev (.exchange (frameRd a n)) = receivedOf (0 :: beBytes n (dev.readReg a)) := by
    rw [frameRd_eq]
    cases n with
    | zero => cases hn
    | succ n =>
      simp only [List.replicate_succ, mockAnswer, h1, h2, h3, and_self, if_true, List.length_cons,
        List.length_replicate]
  rw [e]
  have hb : (0 :: beBytes n (dev.readReg a)).length = n + 1 := by simp [beBytes_length]
  conv_lhs => rw [← hb]
  exact receivedOf_take (by rw [hb]; omega)

theorem MockReady.regRead {s : State} (h : MockReady s) (a : Addr) {n : Nat} (hn : validWidth n = true) :
    regRead a n s = ({ s with
      log := s.log ++ [.x (frameRd a n) (.ok (0 :: beBytes n (s.dev.readReg a)))], calls := s.calls + 1,
      op := ⟨0 :: beBytes n (s.dev.readReg a), some (beValue (beBytes n (s.dev.readReg a))), s.op.position + 1⟩ },
      .ok (beValue (beBytes n (s.dev.readReg a)))) := by
  have hl : (frameRd a n).length = n + 1 := by simp [frameRd]
  rw [Machine.regRead, if_neg (by simp [hn]), tExchange]
  simp only [h.call, hl, mockAnswer_frameRd _ _ hn]
  simp [tryDo, issue, h.env, mockStore, Transient.issue, Call.bytes]

/-- The byte a one-byte read of the mock returns (R58). -/
theorem mock_oneByte (v : BitVec 32) : (beValue (beBytes 1 v)).setWidth 8 = v.setWidth 8 := by
  simp [beBytes, beValue]

/-- A read-modify-write on the mock (R142, R58): whatever the register's upper bytes held, a write clears them. -/
theorem MockReady.regUpdate {s : State} (h : MockReady s) (a : Addr) (f : Byte → Byte) :
    ∃ t, regUpdate a f s = (t, .ok ()) ∧ BusOnly s t ∧ t.now = s.now ∧ t.script = s.script ∧
      (f ((s.dev.readReg a).setWidth 8) = (s.dev.readReg a).setWidth 8 → t.dev = s.dev ∧ ∃ sent got,
        t.log = s.log ++ [.x sent (.ok got)]) ∧
      (f ((s.dev.readReg a).setWidth 8) ≠ (s.dev.readReg a).setWidth 8 →
        t.dev = s.dev.writeReg a ((f ((s.dev.readReg a).setWidth 8)).setWidth 32)) := by
  rw [Machine.regUpdate, h.regRead a (n := 1) rfl]
  simp only [tryDo, mock_oneByte]
  by_cases hf : f ((s.dev.readReg a).setWidth 8) = (s.dev.readReg a).setWidth 8
  · rw [if_pos hf]
    exact ⟨_, rfl, by constructor <;> rfl, rfl, rfl, fun _ => ⟨rfl, _, _, rfl⟩, fun k => absurd hf k⟩
  · rw [if_neg hf]
    refine ⟨_, MockReady.regWrite (by exact ⟨h.1, h.2⟩) a (n := 1) rfl _, by constructor <;> rfl, rfl, rfl,
      fun k => absurd k hf, fun _ => ?_⟩
    have e : ∀ b : Byte, beValue (beBytes 1 (b.setWidth 32)) = b.setWidth 32 := by
      intro b; simp [beBytes, beValue]
    simp [e]

end Sys2Proof.Machine
end

