-- ==== Sys2Proof/Laws/PerInstr.lean ====
section
/-! SUPPORT. Laws/PerInstr.lean: one lemma per instruction on the shape of its encoding. -/

namespace Sys2Proof.Laws.EncodeShape

/-- A well-formed instruction is a host request word (R72), or one frame of one to five bytes whose first byte has the
start marker (R60 to R65). -/
def Statement (i : Instr) : Prop :=
  ∀ cfg : Cfg, cfg.wf = true → i.wellFormed = true →
    (∃ w, encode cfg i = .hreq w) ∨
    (∃ c bs, encode cfg i = .frame (c :: bs) ∧ c.getLsbD 7 = true ∧ bs.length ≤ 4)

/-- A host word. -/
theorem of_word {i : Instr} (h : ∀ cfg, ∃ w, encode cfg i = .hreq w) : Statement i :=
  fun cfg _ _ => .inl (h cfg)

/-- Bit 7 of both command constants (R8 (a)). -/
theorem startBits {cfg : Cfg} (h : cfg.wf = true) :
    cfg.cmdPd.getLsbD 7 = true ∧ cfg.cmdCal.getLsbD 7 = true := by
  simp only [Cfg.wf, Cfg.commandsWf, Bool.and_eq_true] at h
  exact ⟨h.1.1.1.1.1.1.1.1.1.1.1.1, h.1.1.1.1.1.1.1.1.1.1.1.2⟩

theorem wregStart (a : Byte) : (cmdWreg a).getLsbD 7 = true := by
  simp [cmdWreg]

theorem rregStart (a : Byte) : (cmdRreg a).getLsbD 7 = true := by
  simp [cmdRreg, cmdWreg]

theorem widthLe {n : Nat} (h : validWidth n = true) : n ≤ 4 := by
  simp [validWidth] at h
  exact h.2

theorem conv (r : BitVec 4) : Statement (.conv r) :=
  fun _ _ _ => .inr ⟨cmdConv r, [], rfl, by simp [cmdConv], by simp⟩

theorem pwrdn : Statement .pwrdn :=
  fun cfg h _ => .inr ⟨cfg.cmdPd, [], rfl, (startBits h).1, by simp⟩

theorem cal : Statement .cal :=
  fun cfg h _ => .inr ⟨cfg.cmdCal, [], rfl, (startBits h).2, by simp⟩

theorem wreg (a : Addr) (n : Nat) (v : BitVec 32) : Statement (.wreg a n v) := fun cfg _ hi => by
  simp only [Instr.wellFormed, Bool.and_eq_true] at hi
  exact .inr ⟨_, beBytes n v, rfl, wregStart _, (beBytes_length n v).le.trans (widthLe hi.1)⟩

theorem rreg (a : Addr) (n : Nat) : Statement (.rreg a n) := fun cfg _ hi =>
  .inr ⟨_, List.replicate n 0, rfl, rregStart _, by simpa using widthLe hi⟩

theorem new : Statement .new := of_word fun _ => ⟨_, rfl⟩
theorem release : Statement .release := of_word fun _ => ⟨_, rfl⟩
theorem intoStandby : Statement .intoStandby := of_word fun _ => ⟨_, rfl⟩
theorem intoSleep : Statement .intoSleep := of_word fun _ => ⟨_, rfl⟩
theorem intoConversion (rate : Rate) (cont : Bool) : Statement (.intoConversion rate cont) :=
  of_word fun _ => ⟨_, rfl⟩
theorem setClock (src : ClockSource) : Statement (.setClock src) := of_word fun _ => ⟨_, rfl⟩
theorem setFormat (fmt : DataFormat) : Statement (.setFormat fmt) := of_word fun _ => ⟨_, rfl⟩
theorem setGain (g : Option Gain) : Statement (.setGain g) := of_word fun _ => ⟨_, rfl⟩
theorem calibrate (kind : CalKind) : Statement (.calibrate kind) := of_word fun _ => ⟨_, rfl⟩
theorem readSoc : Statement .readSoc := of_word fun _ => ⟨_, rfl⟩
theorem readSgc : Statement .readSgc := of_word fun _ => ⟨_, rfl⟩
theorem readScoc : Statement .readScoc := of_word fun _ => ⟨_, rfl⟩
theorem readScgc : Statement .readScgc := of_word fun _ => ⟨_, rfl⟩
theorem readData : Statement .readData := of_word fun _ => ⟨_, rfl⟩
theorem readStatus : Statement .readStatus := of_word fun _ => ⟨_, rfl⟩

end Sys2Proof.Laws.EncodeShape
end

