-- ==== Sys2Proof/Laws/Port.lean ====
section
/-! SUPPORT. Laws/Port.lean: what a step can do, said once. A step takes the request at the head of the port; `NEW` is
told by its `OP` alone (spec/44_mode_machine.md R145 step 1); any other request runs as its instruction, or is a
host-side evaluation, or a reserved request. -/

namespace Sys2Proof.Machine

theorem asksNew_iff (q : Request) : asksNew q = true ↔ ∃ w, q = .hreq w ∧ hostOp w = 0x00 := by
  cases q <;> simp [asksNew, opNew]

theorem Entered.not_asksNew {q : Request} (h : Entered q) : asksNew q = false := by
  rw [← Bool.not_eq_true, asksNew_iff]
  rintro ⟨w, rfl, hw⟩
  exact h.1 w rfl hw

/-- A request whose `OP` is that of `NEW` decodes to `NEW`, if to anything. -/
theorem decode_of_asksNew {cfg : Cfg} {q : Request} {i : Instr} (h : asksNew q = true) (hd : decode cfg q = .ok i) :
    i = .new := by
  obtain ⟨w, rfl, hw⟩ := (asksNew_iff q).mp h
  simp only [decode, decodeHost, hw, opNew, if_true, decodeNoArg] at hd
  split at hd <;> cases hd
  rfl

theorem step_cons {s : State} {q : Request} {rest : List Request} (h : s.pending = q :: rest) :
    step s = runRequest q { s with pending := rest } := by
  simp [step, takeRequest, h]

/-- A request that asks for `NEW` runs it (R145 step 1). -/
theorem runRequest_new {q : Request} (h : asksNew q = true) (s : State) : runRequest q s = exec .new s := by
  simp [runRequest, h]

/-- A request that decodes runs as its instruction. -/
theorem runRequest_ok {s : State} {q : Request} {i : Instr} (h : decode s.cfg q = .ok i) :
    runRequest q s = exec i s := by
  by_cases hq : asksNew q = true
  · rw [runRequest_new hq, decode_of_asksNew hq h]
  · simp [runRequest, hq, h]

/-- A request that neither asks for `NEW` nor decodes is not an instruction. -/
theorem runRequest_error {s : State} {q : Request} {e : DecodeError} (hq : asksNew q = false)
    (h : decode s.cfg q = .error e) : runRequest q s = accept (runOther q) s := by
  simp [runRequest, hq, h]

/-- Everything a step that answers can have been. -/
theorem step_cases {s u : State} (h : step s = .next u) : ∃ q rest, s.pending = q :: rest ∧
    ((asksNew q = true ∧ exec .new { s with pending := rest } = .next u) ∨
     (∃ i, asksNew q = false ∧ decode s.cfg q = .ok i ∧ exec i { s with pending := rest } = .next u) ∨
     (∃ e, asksNew q = false ∧ decode s.cfg q = .error e ∧
       accept (runOther q) { s with pending := rest } = .next u)) := by
  cases hp : s.pending with
  | nil => simp [step, takeRequest, hp] at h
  | cons q rest =>
    rw [step_cons hp] at h
    refine ⟨q, rest, rfl, ?_⟩
    cases hq : asksNew q with
    | true => exact .inl ⟨rfl, by rwa [runRequest_new hq] at h⟩
    | false =>
      cases hd : decode s.cfg q with
      | ok i => exact .inr (.inl ⟨i, rfl, rfl, by rwa [runRequest_ok (s := { s with pending := rest }) hd] at h⟩)
      | error e => exact .inr (.inr ⟨e, rfl, rfl, by rwa [runRequest_error (s := { s with pending := rest }) hq hd] at h⟩)

/-- Running a request that is not an instruction: one response and at most one cause, and a latch only for the reserved
power state evaluated in a live block (R75, R171). -/
theorem runOther_cases (q : Request) (s : State) :
    (∃ r c, runOther q s = respond r { s with causes := s.causes ++ c }) ∨
    (∃ v c, q = .evalState v ∧ statState s.cfg v = none ∧ s.alive = true ∧
      runOther q s = raiseFault .reservedPowerState c s) := by
  have reserved : ∀ q, ∃ r c, answerReserved q s = respond r { s with causes := s.causes ++ c } := by
    intro q
    unfold answerReserved whenServing
    split
    · exact ⟨_, [_], rfl⟩
    · split
      · exact ⟨_, [], by simp; rfl⟩
      · exact ⟨_, [_], rfl⟩
  cases q with
  | hreq w => exact .inl (reserved _)
  | frame bs => exact .inl (reserved _)
  | evalState v =>
    simp only [runOther, evalState]
    split
    · exact .inl ⟨_, [], by simp; rfl⟩
    · split
      · exact .inr ⟨v, _, rfl, by assumption, by assumption, rfl⟩
      · exact .inl ⟨_, [_], rfl⟩

end Sys2Proof.Machine
end

