-- ==== Sys2Proof/Tests/Slice0.lean ====
section
/-! SUPPORT. Tests/Slice0.lean: the model's own tests. Expected values come from spec/95_test_vectors.md (V1 to V15, P1
to P8) or from the encoding tables of spec/30_encoding.md, never from the model. -/

namespace Sys2Proof.Tests

open Sys2Proof Sys2Proof.Machine

/-! Helpers. -/

/-- The next state, if there is one. -/
def nextOf : Host.Outcome State Fault Refusal → Option State
  | .next u => some u
  | .fault _ => none
  | .refused _ => none

/-- A block served by the mock device (R58), with these registers. -/
def onMock (m : Mode) (regs : List (Addr × BitVec 32)) : State :=
  { State.reset with
    mode := m, peer := .mock, responses := [], dev := regs.foldl (fun d r => d.writeReg r.1 r.2) [] }

/-- A block served by the oracle (R56), whose next answers are these. -/
def onScript (m : Mode) (rs : List (Answer Received)) : State :=
  { State.reset with mode := m, responses := [], script := rs }

/-- One step on one request. -/
def run (s : State) (q : Request) : Option State := nextOf (step { s with pending := [q] })

/-- What the host and a bus observer see of one request: the log, the responses, the tag. -/
def seen (s : State) (q : Request) : Option (List BusEvent × List Response × Mode) :=
  (run s q).map fun u => (u.log, u.responses, u.mode)

/-- The block's own state after one request: alive, tag, latch. -/
def blockAfter (s : State) (q : Request) : Option (Bool × Mode × Option FaultReason × List Response) :=
  (run s q).map fun u => (u.alive, u.mode, u.fault, u.responses)

/-- A register of the mock after one request. -/
def regAfter (s : State) (q : Request) (a : Addr) : Option (BitVec 32) := (run s q).map fun u => u.dev.readReg a

theorem exists_of_nextOf {o : Host.Outcome State Fault Refusal} {P : State → Bool}
    (h : (nextOf o).any P = true) : ∃ u, o = .next u ∧ P u = true := by
  cases o with
  | next u => exact ⟨u, rfl, h⟩
  | fault r => simp [nextOf] at h
  | refused r => simp [nextOf] at h

/-! Decoding: words written out from R70 and R73 (fields from the most significant down). -/

theorem test_decode_wire_commands :
    decode Cfg.default (.frame [0b1000_0000]) = .ok (.conv 0) ∧
    decode Cfg.default (.frame [0b1000_1111]) = .ok (.conv 15) ∧
    decode Cfg.default (.frame [0b1001_0000]) = .ok .pwrdn ∧
    decode Cfg.default (.frame [0b1010_0000]) = .ok .cal := by decide

theorem test_decode_register_frames :
    decode Cfg.default (.frame [0b11_00111_0, 0x12, 0x34, 0x56]) = .ok (.wreg 7 3 0x123456) ∧
    decode Cfg.default (.frame [0b11_11111_0, 0xDE, 0xAD, 0xBE, 0xEF]) = .ok (.wreg 31 4 0xDEADBEEF) ∧
    decode Cfg.default (.frame [0b11_00001_1, 0]) = .ok (.rreg 1 1) ∧
    decode Cfg.default (.frame [0b11_11111_1, 0, 0, 0, 0]) = .ok (.rreg 31 4) := by decide

theorem test_decode_ownership_and_transitions :
    decode Cfg.default (.hreq 0b00000000_00000000) = .ok .new ∧
    decode Cfg.default (.hreq 0b00000001_00000000) = .ok .release ∧
    decode Cfg.default (.hreq 0b00010000_00000000) = .ok .intoStandby ∧
    decode Cfg.default (.hreq 0b00010001_00000000) = .ok .intoSleep ∧
    decode Cfg.default (.hreq 0b00010010_000_0_1111) = .ok (.intoConversion .rate15 false) ∧
    decode Cfg.default (.hreq 0b00010010_000_1_1001) = .ok (.intoConversion .rate9 true) := by decide

theorem test_decode_settings :
    decode Cfg.default (.hreq 0b00100000_00000000) = .ok (.setClock .internalClock) ∧
    decode Cfg.default (.hreq 0b00100000_00000001) = .ok (.setClock .externalClock) ∧
    decode Cfg.default (.hreq 0b00100001_00000001) = .ok (.setFormat .offsetBinary) ∧
    decode Cfg.default (.hreq 0b00100010_0000_1_011) = .ok (.setGain (some .x8)) ∧
    decode Cfg.default (.hreq 0b00100010_0000_0_000) = .ok (.setGain none) ∧
    decode Cfg.default (.hreq 0b00100011_000000_10) = .ok (.calibrate .systemFullScale) := by decide

theorem test_decode_reads :
    decode Cfg.default (.hreq 0b00110000_00000000) = .ok .readSoc ∧
    decode Cfg.default (.hreq 0b00110001_00000000) = .ok .readSgc ∧
    decode Cfg.default (.hreq 0b00110010_00000000) = .ok .readScoc ∧
    decode Cfg.default (.hreq 0b00110011_00000000) = .ok .readScgc ∧
    decode Cfg.default (.hreq 0b00110100_00000000) = .ok .readData ∧
    decode Cfg.default (.hreq 0b00110101_00000000) = .ok .readStatus := by decide

/-- R75 and V15: the reserved host words. -/
theorem test_decode_refuses_reserved_words :
    decodeHost 0x4000 = .error .unknownOp ∧ decodeHost 0x1001 = .error .reservedArg ∧
    decodeHost 0x1220 = .error .reservedArg ∧ decodeHost 0x2205 = .error .reservedArg ∧
    decodeHost 0x2303 = .error .reservedArg ∧ decodeHost 0x3401 = .error .reservedArg ∧
    decodeHost 0x2002 = .error .reservedArg ∧ decodeHost 0x2210 = .error .reservedArg := by decide

/-- R71, R63 to R65: frames no table row has. -/
theorem test_decode_refuses_bad_frames :
    decodeFrame Cfg.default [] = .error .emptyFrame ∧
    decodeFrame Cfg.default [0x7F] = .error .startBitClear ∧
    decodeFrame Cfg.default [0x91] = .error .reservedCommand ∧
    decodeFrame Cfg.default [0x80, 0] = .error .badFrameLength ∧
    decodeFrame Cfg.default [0xC1] = .error .badFrameLength ∧
    decodeFrame Cfg.default [0xC0, 0, 0, 0, 0, 0] = .error .badFrameLength ∧
    decodeFrame Cfg.default [0xC3, 1] = .error .badPlaceholder ∧
    decode Cfg.default (.evalState 0) = .error .notAnInstruction := by decide

/-- The host's table words: the operand words after the command byte are zeros. -/
theorem test_decodeTableWord :
    decodeTableWord 8 0x90 = some .pwrdn ∧ decodeTableWord 8 0xC1 = some (.rreg 0 2) ∧
    decodeTableWord 8 0xC2 = some (.wreg 1 1 0) ∧ decodeTableWord 16 0x3400 = some .readData ∧
    decodeTableWord 16 0x4000 = none := by decide

/-! Well-formedness. -/

theorem test_wellFormed_refuses_wreg :
    (Instr.wreg 1 0 0).wellFormed = false ∧ (Instr.wreg 1 5 0).wellFormed = false ∧
    (Instr.wreg 1 1 256).wellFormed = false ∧ (Instr.wreg 1 3 0x1000000).wellFormed = false ∧
    (Instr.wreg 31 1 255).wellFormed = true ∧ (Instr.wreg 0 4 0xFFFFFFFF).wellFormed = true := by decide

theorem test_wellFormed_refuses_rreg :
    (Instr.rreg 1 0).wellFormed = false ∧ (Instr.rreg 1 5).wellFormed = false ∧
    (Instr.rreg 1 1).wellFormed = true ∧ (Instr.rreg 1 4).wellFormed = true := by decide

theorem test_cfg_defaults_wellFormed : Cfg.default.wf = true ∧ Cfg.lEx8.wf = true := by decide

/-- R8 (a), (b): one ill-formed `Cfg` per clause, the first three only so. -/
theorem test_cfg_refuses_commands :
    ({ Cfg.default with cmdPd := 0x10 } : Cfg).wf = false ∧
    ({ Cfg.default with cmdCal := 0xE0 } : Cfg).wf = false ∧
    ({ Cfg.default with cmdPd := 0x8F } : Cfg).wf = false ∧
    ({ Cfg.default with cmdPd := 0xA0 } : Cfg).wf = false ∧
    ({ Cfg.default with cmdPd := 0xB0 } : Cfg).wf = true := by decide

/-- R8 (c) to (h). -/
theorem test_cfg_refuses_layouts :
    ({ Cfg.default with aScgc := 0x19 } : Cfg).wf = false ∧
    ({ Cfg.default with aCtrl2 := 0x01 } : Cfg).wf = false ∧
    ({ Cfg.default with c1Pd0 := 5 } : Cfg).wf = false ∧
    ({ Cfg.default with c2Pgaen := 2 } : Cfg).wf = false ∧
    ({ Cfg.default with stPdLsb := 4 } : Cfg).wf = false ∧
    ({ Cfg.default with calSysOffset := 0 } : Cfg).wf = false ∧
    ({ Cfg.default with resetMode := .conversion } : Cfg).wf = false := by decide

/-! The combinational sub-blocks. -/

/-- V10. -/
theorem test_value24_widening :
    (Value24.fromBe 0x12 0x34 0x56).toU32 = 1193046 ∧ (Value24.fromBe 0xFF 0xFF 0xFE).toU32 = 16777214 ∧
    (Value24.fromBe 0x80 0x00 0x00).toI32.toInt = -8388608 ∧ (Value24.fromBe 0x80 0x00 0x01).toI32.toInt = -8388607 ∧
    (Value24.fromBe 0x7F 0xFF 0xFF).toI32.toInt = 8388607 ∧ (Value24.fromBe 0xFF 0x00 0x00).toI32 = 0xFFFF0000 := by
  decide

/-- V10, R85. -/
theorem test_value24_fromU32 :
    Value24.fromU32 0x12345678 = ⟨0x34, 0x56, 0x78⟩ ∧ Value24.fromU32 0x01000000 = ⟨0, 0, 0⟩ ∧
    (Value24.fromBe 1 2 3).toBe = [1, 2, 3] := by decide

/-- V11. -/
theorem test_encoder :
    cmdConv 9 = 0x89 ∧ cmdConv 15 = 0x8F ∧ cmdPwrdn Cfg.default = 0x90 ∧ cmdCal Cfg.default = 0xA0 ∧
    cmdWreg 0x01 = 0xC2 ∧ cmdWreg 0x20 = 0xC0 ∧ cmdWreg 0x80 = 0xC0 ∧ cmdWreg 0xFF = 0xFE ∧
    cmdRreg 0x18 = 0xF1 ∧ cmdRreg 0x20 = 0xC1 := by decide

/-- V11. -/
theorem test_classify :
    classify Cfg.default 0x7F = .invalid ∧ classify Cfg.default 0x8F = .convert 15 ∧
    classify Cfg.default 0x90 = .powerDown ∧ classify Cfg.default 0x91 = .reserved ∧
    classify Cfg.default 0xA0 = .calibrate ∧ classify Cfg.default 0xB0 = .reserved ∧
    classify Cfg.default 0xC3 = .regAccess 1 true ∧ classify Cfg.default 0xC0 = .regAccess 0 false ∧
    classify { Cfg.default with cmdPd := 0xB0 } 0x90 = .reserved ∧
    classify { Cfg.default with cmdPd := 0xB0 } 0xB0 = .powerDown := by decide

/-- V12, `CTRL1`. -/
theorem test_ctrl1_functions :
    withPower Cfg.default 0x30 .standby = 0x20 ∧ withPower Cfg.default 0xA6 .sleep = 0x96 ∧
    withPower Cfg.default 0xFF .conversion = 0xCF ∧ withContinuous Cfg.default 0xFF true = 0xFD ∧
    withContinuous Cfg.default 0x20 false = 0x22 ∧
    withContinuous { Cfg.default with scycleWhenContinuous := true } 0x00 true = 0x02 ∧
    withContinuous Cfg.default (withPower Cfg.default 0xB4 .conversion) false = 0x86 ∧
    withClock Cfg.default 0x20 .externalClock = 0xA0 ∧ withClock Cfg.default 0xA0 .internalClock = 0x20 ∧
    withFormat Cfg.default 0xA0 .offsetBinary = 0xA4 ∧ withFormat Cfg.default 0x24 .twosComplement = 0x20 := by decide

/-- V12, the accessors. -/
theorem test_accessors :
    ctrl1Power Cfg.default 0x30 = (true, true) ∧ ctrl1Clock Cfg.default 0xA0 = .externalClock ∧
    ctrl1Format Cfg.default 0xA4 = .offsetBinary ∧ ctrl2Gain Cfg.default 0xFF = some .x128 ∧
    ctrl2Gain Cfg.default 0x03 = none ∧ ctrl5Cal Cfg.default 0x4C = 1 ∧
    calKindOfCode Cfg.default (ctrl5Cal Cfg.default 0xCC) = none := by decide

/-- V12, `CTRL2` and `CTRL5`. -/
theorem test_ctrl2_ctrl5_functions :
    withGain Cfg.default 0xF7 (some .x1) = 0xF8 ∧ withGain Cfg.default 0xF0 (some .x2) = 0xF9 ∧
    withGain Cfg.default 0x0B none = 0x03 ∧ withCal Cfg.default 0xFF .selfCal = 0x3F ∧
    withCal Cfg.default 0x0C .systemOffset = 0x4C ∧ withCal Cfg.default 0x00 .systemFullScale = 0x80 := by decide

/-- V9 and V1, the power state under both named layouts. -/
theorem test_status_power_state :
    statState Cfg.default 0x0400 = some .powerDown ∧ statState Cfg.default 0x08A1 = some .standby ∧
    statState Cfg.default 0x0091 = some .conversion ∧ statState Cfg.default 0xFFFF = none ∧
    statState Cfg.default 0x4010 = some .conversion ∧ statState Cfg.lEx8 0x4010 = some .powerDown ∧
    statState Cfg.lEx8 0xC000 = none ∧ statState Cfg.lEx8 0x0C00 = some .conversion := by decide

/-- V9, the rate and the flags. -/
theorem test_status_rate_and_flags :
    statRate Cfg.default 0x08A1 = .rate10 ∧ statRate Cfg.default 0xFFFF = .rate15 ∧
    statRdy Cfg.default 0x0001 = true ∧ statMstat Cfg.default 0x0002 = true ∧ statDor Cfg.default 0x0004 = true ∧
    statSysgor Cfg.default 0x0008 = true ∧ statAor Cfg.default 0x0100 = true ∧ statRderr Cfg.default 0x0200 = true ∧
    statRdy Cfg.default 0xF0F0 = false ∧ statRderr Cfg.default 0xF0F0 = false := by decide

/-! The instructions, one step each (V13 to V15). -/

theorem test_conv :
    seen (onMock .standby []) (.frame [0x89]) = some ([.w [0x89] (.ok ())], [.ok .empty], .standby) := by decide

theorem test_pwrdn :
    seen (onMock .conversion []) (.frame [0x90]) = some ([.w [0x90] (.ok ())], [.ok .empty], .conversion) := by decide

theorem test_cal :
    seen (onMock .sleep []) (.frame [0xA0]) = some ([.w [0xA0] (.ok ())], [.ok .empty], .sleep) := by decide

/-- V13: three value bytes, most significant first. -/
theorem test_wreg :
    seen (onMock .standby []) (.frame [0xCE, 0x12, 0x34, 0x56]) =
      some ([.w [0xCE, 0x12, 0x34, 0x56] (.ok ())], [.ok .empty], .standby) ∧
    regAfter (onMock .standby []) (.frame [0xCE, 0x12, 0x34, 0x56]) 7 = some 0x123456 := by decide

/-- V13: the echo byte 0xFF is ignored. -/
theorem test_rreg :
    seen (onScript .standby [.ok ⟨0xFF, 0x80, 0x00, 0x01, 0x77⟩]) (.frame [0xCD, 0, 0, 0]) =
      some ([.x [0xCD, 0, 0, 0] (.ok [0xFF, 0x80, 0x00, 0x01])], [.ok (.raw 3 0x800001)], .standby) := by decide

/-- V13: a failing read gives no value. -/
theorem test_rreg_fails :
    seen (onScript .standby [.err ⟨7⟩]) (.frame [0xC3, 0]) =
      some ([.x [0xC3, 0] (.err ⟨7⟩)], [.err ⟨7⟩], .standby) := by decide

/-- V15, P7: `NEW` clears the latch and the tag; it also wakes a released block. -/
theorem test_new :
    blockAfter { onMock .conversion [] with fault := some .illegalInMode } (.hreq 0x0000) =
      some (true, .standby, none, [.ok .empty]) ∧
    blockAfter (State.powerOn .conversion) (.hreq 0x0000) = some (true, .standby, none, [.ok .empty]) := by decide

/-- R145 step 1 tests the `OP` alone: a nonzero `ARG` is no table row (R75), but it is entered as `NEW`. -/
theorem test_new_nonzero_arg :
    decodeHost 0x0001 = .error .reservedArg ∧ decodeHost 0x00FF = .error .reservedArg ∧
    blockAfter { onMock .conversion [] with fault := some .reservedPowerState } (.hreq 0x0001) =
      some (true, .standby, none, [.ok .empty]) ∧
    blockAfter (State.powerOn .sleep) (.hreq 0x00FF) = some (true, .standby, none, [.ok .empty]) := by
  and_intros <;> decide

/-- V14, P6. -/
theorem test_release :
    (run (onMock .conversion []) (.hreq 0x0100)).map (fun u => (u.alive, u.log, u.responses)) =
      some (false, [], [.ok .empty]) := by decide

theorem test_intoStandby :
    seen (onMock .sleep [(1, 0x10)]) (.hreq 0x1000) =
      some ([.x [0xC3, 0] (.ok [0, 0x10]), .w [0xC2, 0x20] (.ok ()), .w [0x90] (.ok ())], [.ok .empty], .standby) := by
  decide

/-- V2: nothing to change. -/
theorem test_intoStandby_skips_write :
    seen (onMock .sleep [(1, 0x20)]) (.hreq 0x1000) =
      some ([.x [0xC3, 0] (.ok [0, 0x20]), .w [0x90] (.ok ())], [.ok .empty], .standby) := by decide

theorem test_intoSleep :
    seen (onMock .standby [(1, 0x20)]) (.hreq 0x1100) =
      some ([.x [0xC3, 0] (.ok [0, 0x20]), .w [0xC2, 0x10] (.ok ()), .w [0x90] (.ok ())], [.ok .empty], .sleep) := by
  decide

theorem test_intoConversion :
    seen (onMock .standby [(1, 0x22)]) (.hreq 0x1219) =
      some ([.x [0xC3, 0] (.ok [0, 0x22]), .w [0xC2, 0x00] (.ok ()), .w [0x89] (.ok ())], [.ok .empty], .conversion) := by
  decide

theorem test_intoConversion_single :
    seen (onMock .sleep [(1, 0x10)]) (.hreq 0x120F) =
      some ([.x [0xC3, 0] (.ok [0, 0x10]), .w [0xC2, 0x02] (.ok ()), .w [0x8F] (.ok ())], [.ok .empty], .conversion) := by
  decide

theorem test_setClock :
    seen (onMock .standby [(1, 0x20)]) (.hreq 0x2001) =
      some ([.x [0xC3, 0] (.ok [0, 0x20]), .w [0xC2, 0xA0] (.ok ())], [.ok .empty], .standby) ∧
    seen (onMock .standby [(1, 0x20)]) (.hreq 0x2000) =
      some ([.x [0xC3, 0] (.ok [0, 0x20])], [.ok .empty], .standby) := by decide

theorem test_setFormat :
    seen (onMock .sleep [(1, 0xA0)]) (.hreq 0x2101) =
      some ([.x [0xC3, 0] (.ok [0, 0xA0]), .w [0xC2, 0xA4] (.ok ())], [.ok .empty], .sleep) ∧
    seen (onMock .sleep [(1, 0xA4)]) (.hreq 0x2100) =
      some ([.x [0xC3, 0] (.ok [0, 0xA4]), .w [0xC2, 0xA0] (.ok ())], [.ok .empty], .sleep) := by decide

theorem test_setGain :
    seen (onMock .standby []) (.hreq 0x220B) =
      some ([.x [0xC5, 0] (.ok [0, 0]), .w [0xC4, 0x0B] (.ok ())], [.ok .empty], .standby) ∧
    seen (onMock .standby [(2, 0x0B)]) (.hreq 0x2200) =
      some ([.x [0xC5, 0] (.ok [0, 0x0B]), .w [0xC4, 0x03] (.ok ())], [.ok .empty], .standby) := by decide

theorem test_calibrate :
    seen (onMock .standby [(5, 0x4C)]) (.hreq 0x2300) =
      some ([.x [0xCB, 0] (.ok [0, 0x4C]), .w [0xCA, 0x0C] (.ok ()), .w [0xA0] (.ok ()), .d 200],
        [.ok .empty], .standby) ∧
    (run (onMock .standby [(5, 0x4C)]) (.hreq 0x2301)).map (fun u => (u.log, u.now)) =
      some ([.x [0xCB, 0] (.ok [0, 0x4C]), .w [0xA0] (.ok ()), .d 100], 100) := by decide

/-- V15: no delay after a failed calibrate command. -/
theorem test_calibrate_fails :
    (run { onMock .standby [(5, 0x4C)] with failAt := some 2, failValue := ⟨9⟩ } (.hreq 0x2300)).map
        (fun u => (u.log, u.responses, u.now)) =
      some ([.x [0xCB, 0] (.ok [0, 0x4C]), .w [0xCA, 0x0C] (.ok ()), .w [0xA0] (.err ⟨9⟩)], [.err ⟨9⟩], 0) := by decide

theorem test_readSoc :
    seen (onMock .standby [(0x15, 0x000102)]) (.hreq 0x3000) =
      some ([.x [0xEB, 0, 0, 0] (.ok [0, 0, 1, 2])], [.ok (.word 258)], .standby) := by decide

theorem test_readSgc :
    seen (onMock .sleep [(0x16, 0x800000)]) (.hreq 0x3100) =
      some ([.x [0xED, 0, 0, 0] (.ok [0, 0x80, 0, 0])], [.ok (.word 8388608)], .sleep) := by decide

theorem test_readScoc :
    seen (onMock .standby [(0x17, 0xFFFFFE)]) (.hreq 0x3200) =
      some ([.x [0xEF, 0, 0, 0] (.ok [0, 0xFF, 0xFF, 0xFE])], [.ok (.word 16777214)], .standby) := by decide

theorem test_readScgc :
    seen (onMock .standby [(0x18, 0x7FFFFF)]) (.hreq 0x3300) =
      some ([.x [0xF1, 0, 0, 0] (.ok [0, 0x7F, 0xFF, 0xFF])], [.ok (.word 8388607)], .standby) := by decide

theorem test_readData :
    seen (onMock .conversion [(6, 0x800001)]) (.hreq 0x3400) =
      some ([.x [0xCD, 0, 0, 0] (.ok [0, 0x80, 0, 1])], [.ok (.word 8388609)], .conversion) := by decide

/-- V15, P7: outside `Conversion` the mode gate latches. -/
theorem test_readData_illegal :
    blockAfter (onMock .standby []) (.hreq 0x3400) =
      some (true, .standby, some .illegalInMode, [.faulted .illegalInMode]) := by decide

theorem test_readStatus :
    seen (onMock .conversion [(0, 0x0C91)]) (.hreq 0x3500) =
      some ([.x [0xC1, 0, 0] (.ok [0, 0x0C, 0x91])], [.ok (.view 0x0C91)], .conversion) := by decide

/-! Entry, faults, refusals (V15). -/

theorem test_entry_not_alive :
    blockAfter { onMock .standby [] with alive := false } (.hreq 0x3500) =
      some (false, .standby, none, [.faulted .notAlive]) ∧
    blockAfter { onMock .standby [] with alive := false } (.hreq 0x4000) =
      some (false, .standby, none, [.faulted .notAlive]) := by decide

theorem test_entry_latched :
    blockAfter { onMock .standby [] with fault := some .illegalInMode } (.hreq 0x0100) =
      some (true, .standby, some .illegalInMode, [.faulted .illegalInMode]) ∧
    blockAfter { onMock .standby [] with fault := some .reservedPowerState } (.hreq 0x4000) =
      some (true, .standby, some .reservedPowerState, [.faulted .reservedPowerState]) := by decide

theorem test_entry_reserved :
    blockAfter (onMock .standby []) (.hreq 0x4000) = some (true, .standby, none, [.refused]) ∧
    blockAfter (onMock .standby []) (.hreq 0x3401) = some (true, .standby, none, [.refused]) := by decide

/-- `ALLOW_CONV_EXIT` = false. -/
def noExit : State := { onMock .conversion [] with cfg := { Cfg.default with allowConvExit := false } }

theorem test_gate_conversion :
    blockAfter (onMock .conversion []) (.hreq 0x2001) =
      some (true, .conversion, some .illegalInMode, [.faulted .illegalInMode]) ∧
    blockAfter noExit (.hreq 0x1000) = some (true, .conversion, some .illegalInMode, [.faulted .illegalInMode]) ∧
    blockAfter (onMock .conversion []) (.hreq 0x1000) = some (true, .standby, none, [.ok .empty]) := by and_intros <;> decide

/-- P8, V15: the host's evaluation of the reserved power state. -/
theorem test_evalState :
    blockAfter (onMock .conversion []) (.evalState 0x0C91) =
      some (true, .conversion, some .reservedPowerState, [.faulted .reservedPowerState]) ∧
    blockAfter (onMock .conversion []) (.evalState 0x0091) =
      some (true, .conversion, none, [.ok (.power .conversion)]) := by decide

/-- P5: the mock fails the call with this index; what the block and the chip hold after `INTO_STANDBY`. -/
def failedAt (k : Nat) (applies : Bool) : Option (Mode × Nat × BitVec 32 × List Response) :=
  (run { onMock .sleep [(1, 0x10)] with failAt := some k, failValue := ⟨4⟩, failApplies := applies } (.hreq 0x1000)).map
    fun u => (u.mode, u.calls, u.dev.readReg 1, u.responses)

theorem test_transition_failures :
    failedAt 0 false = some (.sleep, 1, 0x10, [.err ⟨4⟩]) ∧ failedAt 1 false = some (.sleep, 2, 0x10, [.err ⟨4⟩]) ∧
    failedAt 1 true = some (.sleep, 2, 0x20, [.err ⟨4⟩]) ∧ failedAt 2 false = some (.sleep, 3, 0x20, [.err ⟨4⟩]) := by
  and_intros <;> decide

/-- R8: an ill-formed `Cfg` is refused; R195: a call that never returns leaves no step. -/
theorem test_stops :
    run { onMock .standby [] with cfg := { Cfg.default with cmdPd := 0xA0 } } (.hreq 0x0000) = none ∧
    run { onMock .standby [] with hangAfter := some 0 } (.hreq 0x3500) = none ∧
    (run { onMock .standby [] with hangAfter := some 1 } (.hreq 0x3500)).map (fun u => u.hangAfter) = some (some 0) := by
  decide

/-- The host's placing of a table word: it is the next request. -/
theorem test_withFetchWord :
    nextOf (step (State.reset.withFetchWord 16 0x0100)) |>.any (fun u => !u.alive) := by decide

/-! Witnesses: for each statement of Certificates/Slice0/Obligations.lean that has hypotheses, a state and operands that
meet them all, one per clause. -/

theorem serving_onMock (m : Mode) (regs : List (Addr × BitVec 32)) : Serving (onMock m regs) :=
  ⟨(by decide : Cfg.default.wf = true), rfl, rfl, rfl⟩

theorem serving_onScript (m : Mode) (rs : List (Answer Received)) : Serving (onScript m rs) :=
  ⟨(by decide : Cfg.default.wf = true), rfl, rfl, rfl⟩

theorem answers_onScript (m : Mode) (rs : List (Answer Received)) : Answers (onScript m rs) rs := ⟨rfl, rfl⟩

theorem mockReady_onMock (m : Mode) (regs : List (Addr × BitVec 32)) : MockReady (onMock m regs) := ⟨rfl, rfl⟩

/-- Bytes received: the echo, then this value byte. -/
def got (b : Byte) : Received := ⟨0, b, 0, 0, 0⟩

/-- For `DecodeOfEncodeIsInstruction`: the widest operands. -/
theorem test_witness_decode_of_encode :
    Cfg.default.wf = true ∧ (Instr.wreg 31 4 0xFFFFFFFF).wellFormed = true ∧ (Instr.wreg 0 1 255).wellFormed = true ∧
    (Instr.rreg 31 1).wellFormed = true ∧ (Instr.conv 15).wellFormed = true := by decide

/-- For `EncodeOfDecodeIsRequest`: a word and a frame that decode. -/
theorem test_witness_encode_of_decode :
    Cfg.lEx8.wf = true ∧ decode Cfg.lEx8 (.hreq 0x221F) = .error .reservedArg ∧
    decode Cfg.lEx8 (.hreq 0x220F) = .ok (.setGain (some .x128)) ∧
    decode Cfg.lEx8 (.frame [0xFE, 1, 2, 3, 4]) = .ok (.wreg 31 4 0x01020304) := by decide

/-- For `ClassifyInvertsEncoder`, `CommandByteStartAndModeBits` and `AccessorsReadBackSettings`: a second well-formed
`Cfg`, whose constants are not the defaults. -/
theorem test_witness_other_cfg :
    ({ Cfg.default with cmdPd := 0xBF, cmdCal := 0x91, c1Pd1 := 0, c1Extck := 3, resetMode := .sleep } : Cfg).wf = true := by
  decide

/-- For `WithPowerSetsPowerBits`: bits `PD1`, `PD0` and one on each side of them. -/
theorem test_witness_withPower_bits :
    (withPower Cfg.default 0xFF .sleep).getLsbD 5 = false ∧ (withPower Cfg.default 0xFF .sleep).getLsbD 4 = true ∧
    (withPower Cfg.default 0xFF .sleep).getLsbD 7 = true ∧ (withPower Cfg.default 0x00 .sleep).getLsbD 0 = false := by
  decide

/-- For `SettingFunctionsChangeOnlyTheirBits`: both ends of the two fields, and the bits next to them. -/
theorem test_witness_setting_bits :
    (withGain Cfg.default 0 (some .x32)).getLsbD 0 = true ∧ (withGain Cfg.default 0 (some .x32)).getLsbD 2 = true ∧
    (withGain Cfg.default 0 (some .x32)).getLsbD 3 = true ∧ (withGain Cfg.default 0x10 (some .x32)).getLsbD 4 = true ∧
    (withCal Cfg.default 0 .systemFullScale).getLsbD 7 = true ∧
    (withCal Cfg.default 0x60 .systemFullScale).getLsbD 6 = false ∧
    (withCal Cfg.default 0x60 .systemFullScale).getLsbD 5 = true := by decide

/-- For the third clause of `RateCodeIsShared`. -/
theorem test_witness_rate_shared :
    (0x0091#16).extractLsb' Cfg.default.stRateLsb 4 = Rate.rate9.code ∧
    (0x00F0#16).extractLsb' Cfg.default.stRateLsb 4 = Rate.rate15.code := by decide

/-- For `StepRunsDecodedInstruction`. -/
theorem test_witness_step_runs :
    ∃ s : State, s.pending = [.frame [0xC3, 0]] ∧ decode s.cfg (.frame [0xC3, 0]) = .ok (.rreg 1 1) :=
  ⟨{ onMock .standby [] with pending := [.frame [0xC3, 0]] }, rfl, by decide⟩

/-- For `NewIsEnteredByItsOpCode`: the two ends of `ARG`; the next `OP` is not that of `NEW`. -/
theorem test_witness_new_by_op :
    (∃ s : State, s.cfg.wf = true ∧ s.pending = [.hreq 0x0000] ∧ hostOp 0x0000 = 0x00) ∧
    (∃ s : State, s.cfg.wf = true ∧ s.pending = [.hreq 0x00FF] ∧ hostOp 0x00FF = 0x00) ∧ hostOp 0x0100 ≠ 0x00 :=
  ⟨⟨{ onMock .conversion [] with pending := [.hreq 0x0000] }, by decide, rfl, by decide⟩,
   ⟨{ State.powerOn .sleep with pending := [.hreq 0x00FF] }, by decide, rfl, by decide⟩, by decide⟩

theorem entered_hreq {w : BitVec 16} (h : hostOp w ≠ 0x00) : Entered (.hreq w) :=
  ⟨fun _ hv => Request.hreq.inj hv ▸ h, nofun⟩

theorem entered_frame (bs : List Byte) : Entered (.frame bs) := ⟨nofun, nofun⟩

/-- For `ReservedRequestIsRefused`: a reserved `OP`, a reserved `ARG` and a frame. -/
theorem test_witness_reserved :
    Entered (.hreq 0x4000) ∧ decode Cfg.default (.hreq 0x4000) = .error .unknownOp ∧
    Entered (.hreq 0x1001) ∧ decode Cfg.default (.hreq 0x1001) = .error .reservedArg ∧
    Entered (.frame [0x7F]) ∧ decode Cfg.default (.frame [0x7F]) = .error .startBitClear ∧
    ∀ q, Serving { onMock .standby [] with pending := [q] } :=
  ⟨entered_hreq (by decide), by decide, entered_hreq (by decide), by decide, entered_frame _, by decide,
   fun _ => ⟨(by decide : Cfg.default.wf = true), rfl, rfl, rfl⟩⟩

/-- For `NoRequestNoStep`. -/
theorem test_witness_no_request : (onMock .standby []).pending = [] := rfl

/-- For `EveryRequestIsAnswered`: a transport that always returns, and one that returns three more times. -/
theorem test_witness_answered :
    (∃ s : State, s.cfg.wf = true ∧ s.hangAfter = none ∧ s.pending = [.hreq 0x2300]) ∧
    (∃ s : State, s.cfg.wf = true ∧ (∃ k, s.hangAfter = some k ∧ 3 ≤ k) ∧ s.pending = [.hreq 0x2300]) :=
  ⟨⟨{ onMock .standby [] with pending := [.hreq 0x2300] }, by decide, rfl, rfl⟩,
   ⟨{ onMock .standby [] with pending := [.hreq 0x2300], hangAfter := some 3 }, by decide, ⟨3, rfl, by decide⟩, rfl⟩⟩

/-- For `NotAliveAnswersFaulted`: a reserved word, a reserved frame and a table row at the port, and the smallest `OP`
that is not that of `NEW`. -/
theorem test_witness_not_alive :
    (∀ q, ({ State.powerOn .sleep with pending := [q] } : State).cfg.wf = true ∧
      ({ State.powerOn .sleep with pending := [q] } : State).alive = false) ∧
    Entered (.hreq 0x4000) ∧ Entered (.frame [0x7F]) ∧ Entered (.frame []) ∧ Entered (.hreq 0x0100) ∧
    Instr.release ≠ .new :=
  ⟨fun _ => ⟨(by decide : Cfg.default.wf = true), rfl⟩, entered_hreq (by decide), entered_frame _, entered_frame _, entered_hreq (by decide),
   by decide⟩

/-- V15: a reserved frame and a reserved word at a block that is not alive. -/
theorem test_not_alive_reserved :
    (run (State.powerOn .sleep) (.frame [0x7F])).map (fun u => (u.responses, u.causes, u.fault)) =
      some ([.faulted .notAlive], [.notAlive 0x7F], none) ∧
    (run (State.powerOn .sleep) (.hreq 0x4000)).map (fun u => (u.responses, u.causes, u.fault)) =
      some ([.faulted .notAlive], [.notAlive 0x40], none) := by decide

/-- For `LatchedFaultAnswersEverything`: the same requests at a block with each latched reason. -/
theorem test_witness_latched :
    (∀ q r, ({ onMock .standby [] with fault := some r, pending := [q] } : State).cfg.wf = true ∧
      ({ onMock .standby [] with fault := some r, pending := [q] } : State).alive = true) ∧
    Entered (.hreq 0x4000) ∧ Entered (.frame [0x7F]) ∧ Entered (.frame [0x90]) ∧ Instr.pwrdn ≠ .new :=
  ⟨fun _ _ => ⟨(by decide : Cfg.default.wf = true), rfl⟩, entered_hreq (by decide), entered_frame _, entered_frame _, by decide⟩

/-- For `IllegalInModeLatches`: both sides of the table. -/
theorem test_witness_illegal :
    Serving (onMock .conversion []) ∧
    legalInMode (onMock .conversion []).cfg (.setGain none) (onMock .conversion []).mode = false ∧
    legalInMode (onMock .sleep []).cfg .readData (onMock .sleep []).mode = false ∧
    legalInMode noExit.cfg .intoSleep noExit.mode = false :=
  ⟨serving_onMock _ _, rfl, rfl, rfl⟩

/-- For `BadWidthIsRefused`: the widths next to the legal range. -/
theorem test_witness_bad_width :
    Serving (onMock .standby []) ∧ ((0 : Nat) = 0 ∨ 4 < 0) ∧ ((5 : Nat) = 0 ∨ 4 < 5) :=
  ⟨serving_onMock _ _, .inl rfl, .inr (by decide)⟩

/-- For `IllFormedCfgIsRefused`. -/
theorem test_witness_ill_formed_cfg :
    ∃ s : State, s.cfg.wf = false :=
  ⟨{ onMock .standby [] with cfg := { Cfg.default with aCtrl5 := 0 } }, by decide⟩

/-- An operation of three calls on a transport that answers this many. -/
def hungAfter (k : Nat) : State := { onMock .standby [(1, 0x22)] with hangAfter := some k }

/-- For `HungTransportHasNoStep`: the operation answers on a transport that always returns, and makes three calls; so a
transport that answers two, or none, is in the first clause, and one that answers three is in the second. -/
theorem test_witness_hung :
    (∀ k, (hungAfter k).hangAfter = some k) ∧
    (∃ u, exec (.intoConversion .rate9 true) { hungAfter 2 with hangAfter := none } = .next u ∧
      decide (u.calls - (hungAfter 2).calls = 3) = true) ∧
    (hungAfter 0).cfg.wf = true ∧ legalInMode (hungAfter 0).cfg .readStatus (hungAfter 0).mode = true ∧
    Instr.readStatus.wellFormed = true ∧ 1 ≤ (callCounts .readStatus).1 :=
  ⟨fun _ => rfl, exists_of_nextOf (P := fun u => decide (u.calls - (hungAfter 2).calls = 3)) (by decide), by decide, rfl,
   rfl, by decide⟩

/-- R195: a hang at the first, second and third call, and none. -/
theorem test_hung_at_each_call :
    run (hungAfter 0) (.hreq 0x1219) = none ∧ run (hungAfter 1) (.hreq 0x1219) = none ∧
    run (hungAfter 2) (.hreq 0x1219) = none ∧
    (run (hungAfter 3) (.hreq 0x1219)).map (fun u => (u.hangAfter, u.mode)) = some (some 0, .conversion) := by decide

/-- For `EvaluatingReservedCodeFaults`: a code with a value and the reserved code. -/
theorem test_witness_evaluating :
    (∃ s : State, s.cfg.wf = true ∧ s.hangAfter = none ∧ s.pending = [.evalState 0x0BFF] ∧
      statState s.cfg 0x0BFF = some .standby) ∧
    (∃ s : State, s.cfg.wf = true ∧ s.hangAfter = none ∧ s.pending = [.evalState 0x0C00] ∧
      (0x0C00#16).extractLsb' s.cfg.stPdLsb 2 = 3) :=
  ⟨⟨{ onMock .standby [] with pending := [.evalState 0x0BFF] }, by decide, rfl, rfl, by decide⟩,
   ⟨{ onMock .standby [] with pending := [.evalState 0x0C00] }, by decide, rfl, rfl, by decide⟩⟩

/-- For `NewReinitialisesBlock` and `ReleaseGivesUpTransport`. -/
theorem test_witness_ownership :
    (State.powerOn .conversion).cfg.wf = true ∧ Serving (onMock .conversion []) :=
  ⟨by decide, serving_onMock _ _⟩

/-- For `CommandSendIsOneFrame`: an environment that answers `Ok` and one that answers `Err`. -/
theorem test_witness_command_send :
    callResult (.write [0x90]) (onScript .standby [.ok (got 1)]) = .ok (got 1) ∧
    callResult (.write [0x90]) (onScript .standby [.err ⟨6⟩]) = .err ⟨6⟩ := ⟨rfl, rfl⟩

/-- For `CommandIsSentAlone`, `RegisterReadReturnsBytesAfterEcho` and `RegisterWriteSendsValueBytes`: every command, and
the first and last width. -/
theorem test_witness_wire :
    Serving (onScript .standby [.ok (got 1)]) ∧ Answers (onScript .standby [.ok (got 1)]) [.ok (got 1)] ∧
    (Instr.pwrdn, (onScript .standby []).cfg.cmdPd) ∈
      [(Instr.pwrdn, Cfg.default.cmdPd), (Instr.cal, Cfg.default.cmdCal)] ∧
    (∃ r : BitVec 4, Instr.conv 15 = .conv r ∧ (0x8F : Byte) = 8#4 ++ r) ∧
    (1 ≤ 1 ∧ 1 ≤ 4) ∧ (1 ≤ 4 ∧ 4 ≤ 4) :=
  ⟨serving_onScript _ _, answers_onScript _ _, List.mem_cons_self, ⟨15, rfl, rfl⟩, by decide, by decide⟩

/-- For `IntoStandbyAndSleepResult`: the pairs, the mode premise in both its forms, and for each clause a register value
and the answers it needs. -/
theorem test_witness_into_power_mode :
    (Instr.intoSleep, Mode.sleep, (0x11 : Byte)) ∈
      [(Instr.intoStandby, Mode.standby, (0x10 : Byte)), (Instr.intoSleep, Mode.sleep, 0x11)] ∧
    Serving noExit ∧ noExit.mode = .conversion ∧ noExit.cfg.allowConvExit = false ∧
    Serving (onScript .conversion []) ∧ Cfg.default.allowConvExit = true ∧ Mode.standby ≠ .conversion ∧
    withPower Cfg.default (got 0x20).r1 .sleep ≠ (got 0x20).r1 ∧ withPower Cfg.default (got 0x10).r1 .sleep = (got 0x10).r1 ∧
    Answers (onScript .standby [.ok (got 0x20), .ok (got 0), .ok (got 0)]) [.ok (got 0x20), .ok (got 0), .ok (got 0)] ∧
    Answers (onScript .standby [.ok (got 0x10), .ok (got 0)]) [.ok (got 0x10), .ok (got 0)] ∧
    Answers (onScript .standby [.err ⟨1⟩]) [.err ⟨1⟩] ∧
    Answers (onScript .standby [.ok (got 0x20), .err ⟨1⟩]) [.ok (got 0x20), .err ⟨1⟩] ∧
    Answers (onScript .standby [.ok (got 0x20), .ok (got 0), .err ⟨1⟩]) [.ok (got 0x20), .ok (got 0), .err ⟨1⟩] ∧
    Answers (onScript .standby [.ok (got 0x10), .err ⟨1⟩]) [.ok (got 0x10), .err ⟨1⟩] :=
  ⟨by decide, ⟨by decide, rfl, rfl, rfl⟩, rfl, rfl, serving_onScript _ _, rfl, by decide, by decide, by decide,
   answers_onScript _ _, answers_onScript _ _, answers_onScript _ _, answers_onScript _ _, answers_onScript _ _, answers_onScript _ _⟩

/-- For `IntoConversionResult`: a value that changes and one that does not (V12). -/
theorem test_witness_into_conversion :
    Serving (onScript .sleep [.ok (got 0x22), .ok (got 0), .ok (got 0)]) ∧ Mode.sleep ≠ .conversion ∧
    withContinuous Cfg.default (withPower Cfg.default (got 0x22).r1 .conversion) true ≠ (got 0x22).r1 ∧
    withContinuous Cfg.default (withPower Cfg.default (got 0x02).r1 .conversion) false = (got 0x02).r1 ∧
    Answers (onScript .sleep [.ok (got 0x02), .ok (got 0)]) [.ok (got 0x02), .ok (got 0)] :=
  ⟨serving_onScript _ _, by decide, by decide, by decide, answers_onScript _ _⟩

/-- For `SettingResult`: each of the three operations, with a value that changes and one that does not. -/
theorem test_witness_setting :
    Serving (onScript .standby [.ok (got 0x20), .ok (got 0)]) ∧ Mode.standby ≠ .conversion ∧
    withClock Cfg.default (got 0x20).r1 .externalClock ≠ (got 0x20).r1 ∧
    withClock Cfg.default (got 0xA0).r1 .externalClock = (got 0xA0).r1 ∧
    withFormat Cfg.default (got 0x20).r1 .offsetBinary ≠ (got 0x20).r1 ∧
    withFormat Cfg.default (got 0x24).r1 .offsetBinary = (got 0x24).r1 ∧
    withGain Cfg.default (got 0x0B).r1 none ≠ (got 0x0B).r1 ∧ withGain Cfg.default (got 0x03).r1 none = (got 0x03).r1 ∧
    Answers (onScript .standby [.ok (got 0x20), .ok (got 0)]) [.ok (got 0x20), .ok (got 0)] :=
  ⟨serving_onScript _ _, by decide, by decide, by decide, by decide, by decide, by decide, by decide, answers_onScript _ _⟩

/-- For `CalibrateResult`. -/
theorem test_witness_calibrate :
    Serving (onScript .standby [.ok (got 0x4C), .ok (got 0), .ok (got 0)]) ∧ Mode.standby ≠ .conversion ∧
    withCal Cfg.default (got 0x4C).r1 .selfCal ≠ (got 0x4C).r1 ∧
    withCal Cfg.default (got 0x4C).r1 .systemOffset = (got 0x4C).r1 ∧
    Answers (onScript .standby [.ok (got 0x4C), .ok (got 0)]) [.ok (got 0x4C), .ok (got 0)] :=
  ⟨serving_onScript _ _, by decide, by decide, by decide, answers_onScript _ _⟩

/-- For `CalibrationReadResult`, `ReadDataResult` and `ReadStatusResult`: the pairs, the modes, an answer and an error. -/
theorem test_witness_reads :
    (Instr.readScgc, Cfg.default.aScgc) ∈ [(Instr.readSoc, Cfg.default.aSoc), (Instr.readSgc, Cfg.default.aSgc),
      (Instr.readScoc, Cfg.default.aScoc), (Instr.readScgc, Cfg.default.aScgc)] ∧
    Serving (onScript .sleep [.ok (got 0x7F)]) ∧ (onScript .sleep [.ok (got 0x7F)]).mode ≠ .conversion ∧
    Serving (onScript .conversion [.err ⟨3⟩]) ∧ (onScript .conversion [.err ⟨3⟩]).mode = .conversion ∧
    Answers (onScript .conversion [.ok (got 0x80)]) [.ok (got 0x80)] ∧
    Answers (onScript .conversion [.err ⟨3⟩]) [.err ⟨3⟩] :=
  ⟨by decide, serving_onScript _ _, by decide, serving_onScript _ _, rfl, answers_onScript _ _, answers_onScript _ _⟩

/-- For `FirstCallFailureAborts`. -/
theorem test_witness_first_failure :
    Serving (onScript .sleep [.err ⟨5⟩]) ∧ legalInMode Cfg.default (.calibrate .selfCal) .sleep = true ∧
    (Instr.calibrate .selfCal).wellFormed = true ∧ 1 ≤ (callCounts (.calibrate .selfCal)).1 ∧
    Answers (onScript .sleep [.err ⟨5⟩]) [.err ⟨5⟩] :=
  ⟨serving_onScript _ _, rfl, rfl, by decide, answers_onScript _ _⟩

/-- For `TransportErrorKeepsBlockState`: an operation that answers `Err`, after one call that succeeded. -/
theorem test_witness_transport_error :
    ∃ u, exec .intoStandby (onScript .sleep [.ok (got 0x10), .err ⟨5⟩]) = .next u ∧
      decide (u.responses = [.err ⟨5⟩] ∧ u.log.length = 2) = true :=
  exists_of_nextOf (P := fun u => decide (u.responses = [.err ⟨5⟩] ∧ u.log.length = 2)) (by decide)

/-- For `OkOperationCallCounts` and `CalibrateOkWaitsSettleTime`: an operation that answers `Ok`. -/
theorem test_witness_ok_operation :
    ∃ u, exec (.calibrate .selfCal) (onMock .sleep [(5, 0x4C)]) = .next u ∧
      decide (u.responses = [.ok .empty] ∧ u.calls = 3) = true :=
  exists_of_nextOf (P := fun u => decide (u.responses = [.ok .empty] ∧ u.calls = 3)) (by decide)

/-- For the four clauses of `UpdateWritesOnlyOnChange`. -/
theorem test_witness_update :
    Answers (onScript .standby [.err ⟨1⟩]) [.err ⟨1⟩] ∧
    Answers (onScript .standby [.ok (got 0x20)]) [.ok (got 0x20)] ∧
    withPower Cfg.default (got 0x20).r1 .standby = (got 0x20).r1 ∧
    Answers (onScript .standby [.ok (got 0x10), .ok (got 0)]) [.ok (got 0x10), .ok (got 0)] ∧
    withPower Cfg.default (got 0x10).r1 .standby ≠ (got 0x10).r1 ∧
    Answers (onScript .standby [.ok (got 0x10), .err ⟨1⟩]) [.ok (got 0x10), .err ⟨1⟩] :=
  ⟨answers_onScript _ _, answers_onScript _ _, by decide, answers_onScript _ _, by decide, answers_onScript _ _⟩

/-- For `ReadsAndCommandsFrame`: a read, a command and a register read that answer. -/
theorem test_witness_reads_frame :
    (∃ u, exec .readSoc (onMock .standby [(1, 7)]) = .next u ∧ decide (u.dev.readByte 7 = 7) = true) ∧
    (∃ u, exec (.conv 3) (onMock .standby [(1, 7)]) = .next u ∧ decide (u.dev.readByte 7 = 7) = true) ∧
    (∃ u, exec (.rreg 1 4) (onMock .standby [(1, 7)]) = .next u ∧ decide (u.dev.readByte 7 = 7) = true) :=
  ⟨exists_of_nextOf (P := fun u => decide (u.dev.readByte 7 = 7)) (by decide),
   exists_of_nextOf (P := fun u => decide (u.dev.readByte 7 = 7)) (by decide),
   exists_of_nextOf (P := fun u => decide (u.dev.readByte 7 = 7)) (by decide)⟩

/-- For `UpdatingOperationsFrame`: one operation on each control register, with the cells next to the written one. -/
theorem test_witness_updates_frame :
    (∃ u, exec .intoStandby (onMock .sleep [(0, 9), (2, 8)]) = .next u ∧
      decide (u.dev.readByte 3 = 9 ∧ u.dev.readByte 7 = 0x20 ∧ u.dev.readByte 11 = 8) = true) ∧
    (∃ u, exec (.setGain (some .x8)) (onMock .sleep [(1, 9)]) = .next u ∧
      decide (u.dev.readByte 7 = 9 ∧ u.dev.readByte 11 = 0x0B) = true) ∧
    (∃ u, exec (.calibrate .systemOffset) (onMock .sleep [(6, 9)]) = .next u ∧
      decide (u.dev.readByte 23 = 0x40 ∧ u.dev.readByte 27 = 9) = true) :=
  ⟨exists_of_nextOf (P := fun u =>
      decide (u.dev.readByte 3 = 9 ∧ u.dev.readByte 7 = 0x20 ∧ u.dev.readByte 11 = 8)) (by decide),
   exists_of_nextOf (P := fun u => decide (u.dev.readByte 7 = 9 ∧ u.dev.readByte 11 = 0x0B)) (by decide),
   exists_of_nextOf (P := fun u => decide (u.dev.readByte 23 = 0x40 ∧ u.dev.readByte 27 = 9)) (by decide)⟩

/-- For `RegisterWriteFrame` and `MockStoresRegisterWrite`: the last register, four bytes. -/
theorem test_witness_register_write :
    Serving (onMock .sleep [(30, 1)]) ∧ MockReady (onMock .sleep [(30, 1)]) ∧
    (Instr.wreg 31 4 0xFFFFFFFF).wellFormed = true ∧ inRegister 31 124 ∧ inRegister 31 127 ∧ ¬ inRegister 31 123 ∧
    ∃ u, exec (.wreg 31 4 0xFFFFFFFF) (onMock .sleep [(30, 1)]) = .next u ∧
      decide (u.dev.readReg 31 = 0xFFFFFFFF ∧ u.dev.readByte 123 = 1) = true :=
  ⟨serving_onMock _ _, mockReady_onMock _ _, rfl, by unfold inRegister; decide, by unfold inRegister; decide,
   by unfold inRegister; decide,
   exists_of_nextOf (P := fun u => decide (u.dev.readReg 31 = 0xFFFFFFFF ∧ u.dev.readByte 123 = 1)) (by decide)⟩

/-- The mock fails the next call. -/
def failsNow (applies : Bool) : State :=
  { onMock .standby [(1, 0x10)] with failAt := some 0, failValue := ⟨4⟩, failApplies := applies }

/-- For `MockInjectedWriteFailure`: the failing call, with and without effect. -/
theorem test_witness_injected_failure :
    (∀ b, Serving (failsNow b) ∧ (failsNow b).peer = .mock ∧ (failsNow b).failAt = some (failsNow b).calls ∧
      (failsNow b).failApplies = b) ∧
    (Instr.wreg 1 1 0x20).wellFormed = true ∧
    regAfter (failsNow true) (.frame [0xC2, 0x20]) 1 = some 0x20 ∧
    regAfter (failsNow false) (.frame [0xC2, 0x20]) 1 = some 0x10 :=
  ⟨fun _ => ⟨⟨(by decide : Cfg.default.wf = true), rfl, rfl, rfl⟩, rfl, rfl, rfl⟩, rfl, by decide, by decide⟩

/-- For `MockAnswersRegisterRead`: the first and the last width. -/
theorem test_witness_mock_read :
    Serving (onMock .standby [(6, 0x12345678)]) ∧ MockReady (onMock .standby [(6, 0x12345678)]) ∧
    seen (onMock .standby [(6, 0x12345678)]) (.frame [0xCD, 0, 0, 0, 0]) =
      some ([.x [0xCD, 0, 0, 0, 0] (.ok [0, 0x12, 0x34, 0x56, 0x78])], [.ok (.raw 4 0x12345678)], .standby) ∧
    seen (onMock .standby [(6, 0x12345678)]) (.frame [0xCD, 0]) =
      some ([.x [0xCD, 0] (.ok [0, 0x78])], [.ok (.raw 1 0x78)], .standby) :=
  ⟨serving_onMock _ _, mockReady_onMock _ _, by decide, by decide⟩

/-- For `MockTransitionKeepsOtherBits`: each transition is legal, and P6's bits stay. -/
theorem test_witness_mock_transition :
    Serving (onMock .standby [(1, 0xA4)]) ∧ MockReady (onMock .standby [(1, 0xA4)]) ∧
    legalInMode Cfg.default (.intoConversion .rate3 false) .standby = true ∧
    legalInMode Cfg.default .intoSleep .conversion = true ∧
    regAfter (onMock .standby [(1, 0xA4)]) (.hreq 0x1203) 1 = some 0x86 :=
  ⟨serving_onMock _ _, mockReady_onMock _ _, rfl, rfl, by decide⟩

/-- For `MockRepeatedSettingWritesNothing`: the first request answers. -/
theorem test_witness_mock_repeat :
    Serving (onMock .sleep [(1, 0x10)]) ∧ MockReady (onMock .sleep [(1, 0x10)]) ∧
    (onMock .sleep [(1, 0x10)]).mode ≠ .conversion ∧
    ∃ u, exec (.setClock .externalClock) (onMock .sleep [(1, 0x10)]) = .next u ∧
      decide (u.dev.readReg 1 = 0x90) = true :=
  ⟨serving_onMock _ _, mockReady_onMock _ _, by decide,
   exists_of_nextOf (P := fun u => decide (u.dev.readReg 1 = 0x90)) (by decide)⟩

/-- For `RunEndsSuccessfully`: the last of two requests answered; nothing answered; the last one hung; a latch. -/
theorem test_run_succeeded :
    (∃ u, step { onMock .standby [] with pending := [.hreq 0x3500] } = .next u ∧ decide (u.pending = []) = true) ∧
    (∃ u, step { onMock .standby [] with pending := [.hreq 0x3500, .hreq 0x0100] } = .next u ∧
      decide (u.pending = [.hreq 0x0100]) = true) ∧
    RunSucceeded (onMock .standby []) ∧ ¬ RunSucceeded { hungAfter 0 with pending := [.hreq 0x3500] } ∧
    ¬ RunSucceeded { onMock .standby [] with fault := some .illegalInMode } ∧
    ¬ RunSucceeded { onMock .standby [] with responses := [.faulted .notAlive] } :=
  ⟨exists_of_nextOf (P := fun u => decide (u.pending = [])) (by decide),
   exists_of_nextOf (P := fun u => decide (u.pending = [.hreq 0x0100])) (by decide),
   ⟨⟨rfl, rfl⟩, rfl, fun _ => List.not_mem_nil⟩, fun h => List.cons_ne_nil _ _ h.1.1,
   fun h => Option.some_ne_none _ h.2.1, fun h => h.2.2 .notAlive (List.mem_singleton_self _)⟩

/-- For `ModeChangesOnlyAlongGraph`: a step that changes the tag, by `NEW` and by a transition. -/
theorem test_witness_mode_changes :
    (∃ u, step { onMock .conversion [] with pending := [.hreq 0x0001] } = .next u ∧
      decide (u.mode = .standby) = true) ∧
    (∃ u, step { onMock .standby [] with pending := [.hreq 0x1200] } = .next u ∧
      decide (u.mode = .conversion) = true) :=
  ⟨exists_of_nextOf (P := fun u => decide (u.mode = .standby)) (by decide),
   exists_of_nextOf (P := fun u => decide (u.mode = .conversion)) (by decide)⟩

/-- For `LatchSetOnceClearedByNew`: a step that sets the latch in each of the two ways, and one that clears it. -/
theorem test_witness_latch_changes :
    (∃ u, step { onMock .standby [] with pending := [.hreq 0x3400] } = .next u ∧
      decide (u.fault = some .illegalInMode) = true) ∧
    (∃ u, step { onMock .standby [] with pending := [.evalState 0x0C00] } = .next u ∧
      decide (u.fault = some .reservedPowerState) = true) ∧
    (∃ u, step { onMock .standby [] with pending := [.hreq 0x0000], fault := some .illegalInMode } = .next u ∧
      decide (u.fault = none) = true) :=
  ⟨exists_of_nextOf (P := fun u => decide (u.fault = some .illegalInMode)) (by decide),
   exists_of_nextOf (P := fun u => decide (u.fault = some .reservedPowerState)) (by decide),
   exists_of_nextOf (P := fun u => decide (u.fault = none)) (by decide)⟩

/-- For `StepKeepsInvariant`: a state with cells, a log and a call index in step with it, whose next step answers. -/
def afterOneCall : State :=
  { onMock .standby [(1, 0x20)] with log := [.w [0x90] (.ok ())], calls := 1, pending := [.hreq 0x1000] }

theorem test_witness_invariant :
    afterOneCall.Inv ∧ ∃ u, step afterOneCall = .next u ∧ decide (u.calls = 3) = true :=
  ⟨⟨by decide, by decide, by decide, by decide, by decide, by decide⟩,
   exists_of_nextOf (P := fun u => decide (u.calls = 3)) (by decide)⟩

end Sys2Proof.Tests
end

section
/-! Scope (spec/00_scope.md): every request runs to exactly one response. Whatever a request is, what it runs ends in one
`respond`, applied to a state that still has the configuration, the port and the earlier responses of the state the
request was accepted in (`RunsToResponse`). The step then delivers that state, or the transport hangs. -/

namespace Sys2Proof.Machine

/-! One request, up to its response. -/

/-- A request accepted in `s` has run as far as `t` and its response is due: the configuration, the port and the
responses are untouched, the records have only grown, and at most the three calls of R165 were made. -/
structure ResponseDue (s t : State) : Prop where
  cfg : t.cfg = s.cfg
  pending : t.pending = s.pending
  responses : t.responses = s.responses
  log : s.log <+: t.log
  causes : s.causes <+: t.causes
  calls : t.calls - s.calls ≤ 3

/-- The request accepted in `s` has ended in `t` by giving its one response (R12). -/
def RunsToResponse (s t : State) : Prop := ∃ r v, ResponseDue s v ∧ t = respond r v

theorem ResponseDue.refl (s : State) : ResponseDue s s :=
  ⟨rfl, rfl, rfl, List.prefix_rfl, List.prefix_rfl, by simp⟩

/-- Recording causes and writing the block's own fields keep the response due. -/
theorem ResponseDue.withBlock {s t : State} (h : ResponseDue s t) (alive : Bool) (mode : Mode)
    (fault : Option FaultReason) (c : List CauseRecord) :
    ResponseDue s { t with alive := alive, mode := mode, fault := fault, causes := t.causes ++ c } :=
  ⟨h.cfg, h.pending, h.responses, h.log, h.causes.trans (List.prefix_append _ _), h.calls⟩

/-- An answer is one response, after at most one recorded cause. -/
theorem answer_eq_respond (p : State × Res Payload) :
    ∃ r c, answer p = respond r { p.1 with causes := p.1.causes ++ c } := by
  obtain ⟨s, x | e | q⟩ := p
  · exact ⟨.ok x, [], by simp [answer]⟩
  · exact ⟨.err e, [.transportError e], rfl⟩
  · exact ⟨.refused, [.badRequest q], rfl⟩

theorem callCounts_le_three (i : Instr) : (callCounts i).2 ≤ 3 := by
  cases i <;> simp [callCounts]

/-- After the bus traffic of a body, its response is due. -/
theorem BodyRan.responseDue_traffic {i : Instr} {s t : State} {p : State × Res Payload} {es : List BusEvent}
    (h : BodyRan i s p t es) : ResponseDue s t where
  cfg := h.ran.quiet.cfg
  pending := h.ran.quiet.pending
  responses := h.ran.quiet.responses
  log := ⟨es, h.ran.log.symm⟩
  causes := by rw [h.ran.quiet.causes]
  calls := by
    have hc : t.calls = s.calls + callsIn es := h.ran.calls
    have := h.most.trans (callCounts_le_three i)
    omega

/-- The one write an instruction makes (R164) is to the tag or to liveness. -/
theorem commit_writes_alive_mode (i : Instr) (t : State) :
    ∃ alive mode, commit i t = { t with alive := alive, mode := mode } := by
  cases i <;> exact ⟨_, _, rfl⟩

/-- After a body, its response is due. -/
theorem BodyRan.responseDue {i : Instr} {s t : State} {p : State × Res Payload} {es : List BusEvent}
    (h : BodyRan i s p t es) : ResponseDue s p.1 := by
  rcases h.left with ⟨e, _⟩ | ⟨e, _⟩
  · obtain ⟨alive, mode, hc⟩ := commit_writes_alive_mode i t
    rw [e, hc]
    simpa using h.responseDue_traffic.withBlock alive mode t.fault []
  · rw [e]
    exact h.responseDue_traffic

/-! What each kind of request runs. -/

theorem reinit_runsToResponse (s : State) : RunsToResponse s (reinit s) :=
  ⟨.ok .empty, _, by simpa using (ResponseDue.refl s).withBlock true s.cfg.resetMode none [], rfl⟩

theorem raiseFault_runsToResponse (r : FaultReason) (c : CauseRecord) (s : State) :
    RunsToResponse s (raiseFault r c s) :=
  ⟨.faulted r, _, (ResponseDue.refl s).withBlock s.alive s.mode (s.fault <|> some r) [c], rfl⟩

theorem answer_runsToResponse {s : State} {p : State × Res Payload} (h : ResponseDue s p.1) :
    RunsToResponse s (answer p) := by
  obtain ⟨r, c, e⟩ := answer_eq_respond p
  exact ⟨r, _, h.withBlock p.1.alive p.1.mode p.1.fault c, e⟩

/-- Operation entry (R145) answers at once, or its body does. -/
theorem enter_runsToResponse (op : Byte) (gate : Cfg → Mode → Bool) {body : State → State × Res Payload} {s : State}
    (h : ResponseDue s (body s).1) : RunsToResponse s (enter op gate body s) := by
  rcases enter_cases op gate body s with ⟨_, e⟩ | ⟨_, r, _, e⟩ | ⟨_, _, _, e⟩ | ⟨_, _, _, e⟩ <;> rw [e]
  · exact ⟨.faulted .notAlive, _, (ResponseDue.refl s).withBlock s.alive s.mode s.fault [.notAlive op], rfl⟩
  · exact ⟨.faulted r, s, .refl s, rfl⟩
  · exact raiseFault_runsToResponse _ _ s
  · exact answer_runsToResponse h

theorem runOther_runsToResponse (q : Request) (s : State) : RunsToResponse s (runOther q s) := by
  rcases runOther_cases q s with ⟨r, c, e⟩ | ⟨v, c, _, _, _, e⟩ <;> rw [e]
  · exact ⟨r, _, (ResponseDue.refl s).withBlock s.alive s.mode s.fault c, rfl⟩
  · exact raiseFault_runsToResponse _ c s

/-- Every instruction is accepted (R8) and runs to its response. -/
theorem exec_eq_accept (i : Instr) (s : State) :
    ∃ run, exec i s = accept run s ∧ RunsToResponse s (run s) := by
  by_cases hi : i = .new
  · subst hi
    exact ⟨reinit, rfl, reinit_runsToResponse s⟩
  · obtain ⟨t, es, hb⟩ := execBody_ran s.cfg i s
    exact ⟨_, exec_eq_operate hi s, enter_runsToResponse _ _ hb.responseDue⟩

/-- Every request, instruction or not, is accepted (R8) and runs to its response. -/
theorem runRequest_eq_accept (q : Request) (s : State) :
    ∃ run, runRequest q s = accept run s ∧ RunsToResponse s (run s) := by
  cases hq : asksNew q with
  | true => rw [runRequest_new hq]; exact exec_eq_accept .new s
  | false =>
    cases hd : decode s.cfg q with
    | ok i => rw [runRequest_ok hd]; exact exec_eq_accept i s
    | error e => exact ⟨runOther q, runRequest_error hq hd, runOther_runsToResponse q s⟩

/-! Delivery. -/

/-- An ill-formed `Cfg` is refused, whatever was to run (R8). -/
theorem accept_illFormed (run : State → State) {s : State} (h : s.cfg.wf = false) :
    accept run s = .refused .illFormedCfg := by
  simp [accept, h]

/-- A transport that answers three more calls hangs no operation of at most three (R165, R195). -/
theorem deliver_of_three_calls {s t : State} (hh : s.hangAfter = none ∨ ∃ k, s.hangAfter = some k ∧ 3 ≤ k)
    (hc : t.calls - s.calls ≤ 3) : ∃ k, deliver s t = .next { t with hangAfter := k } := by
  rcases hh with hn | ⟨k, hk, h3⟩
  · exact ⟨t.hangAfter, by simp [deliver, hn]⟩
  · exact ⟨some (k - (t.calls - s.calls)), by simp [deliver, hk, hc.trans h3]⟩

/-- What a step that answers has run: the request at the head of the port, to its response. -/
theorem step_runsToResponse {s u : State} (h : step s = .next u) :
    ∃ q rest t k, s.pending = q :: rest ∧ RunsToResponse { s with pending := rest } t ∧
      u = { t with hangAfter := k } := by
  obtain ⟨q, rest, hp, -⟩ := step_cases h
  obtain ⟨run, e, hr⟩ := runRequest_eq_accept q { s with pending := rest }
  rw [step_cons hp, e] at h
  obtain ⟨k, hu⟩ := deliver_eq (accept_next h).2
  exact ⟨q, rest, _, k, hp, hr, hu⟩

/-! The obligations. -/

/-- Settles O20: taking the next request from an empty port gives nothing to run. -/
theorem noRequestNoStep : Obligations.NoRequestNoStep := by
  intro s hp
  simp [step, takeRequest, hp]

/-- Settles O17: the step takes the request off the port, and a request that decodes runs as its instruction. -/
theorem stepRunsDecodedInstruction : Obligations.StepRunsDecodedInstruction := by
  intro s q rest i hp hd
  rw [step_cons hp, runRequest_ok (s := { s with pending := rest }) hd]

/-- Settles O26: every instruction is accepted first, and accepting refuses an ill-formed `Cfg`. -/
theorem illFormedCfgIsRefused : Obligations.IllFormedCfgIsRefused := by
  intro s i hw
  obtain ⟨run, e, -⟩ := exec_eq_accept i s
  rw [e, accept_illFormed run hw]

/-- Settles O21: the request runs to its one response within three calls, which the transport answers. -/
theorem everyRequestIsAnswered : Obligations.EveryRequestIsAnswered := by
  intro s q rest hw hh hp
  obtain ⟨run, e, r, v, hv, hr⟩ := runRequest_eq_accept q { s with pending := rest }
  obtain ⟨k, hd⟩ := deliver_of_three_calls (s := { s with pending := rest }) (t := respond r v) hh hv.calls
  refine ⟨{ respond r v with hangAfter := k }, r, ?_, ?_, hv.pending, hv.cfg, rfl, hv.log, hv.causes⟩
  · rw [step_cons hp, e, accept, if_pos hw, hr, hd]
  · rw [respond_responses, hv.responses]

/-- Settles O56: a step that answers leaves the rest of the port, nothing outstanding, and one response more; and a run
with a request still at the port has not ended. -/
theorem runEndsSuccessfully : Obligations.RunEndsSuccessfully := by
  constructor
  · intro s u h
    obtain ⟨q, rest, t, k, hp, ⟨r, v, hv, rfl⟩, rfl⟩ := step_runsToResponse h
    have hport : v.pending = rest := hv.pending
    have hresp : v.responses = s.responses := hv.responses
    simp only [RunSucceeded, RunEnded, respond_pending, respond_op, respond_fault, respond_responses, hport, hresp, hp,
      List.mem_append, List.mem_singleton, not_or, and_true]
    constructor
    · rintro ⟨hrest, hf, hn⟩
      exact ⟨by simp [hrest], hf, fun x => (hn x).1, r, rfl, fun x => Ne.symm (hn x).2⟩
    · rintro ⟨hlen, hf, hn, r', hr, hr'⟩
      obtain rfl : r = r' := by simpa using hr
      exact ⟨by simpa using hlen, hf, fun x => ⟨hn x, Ne.symm (hr' x)⟩⟩
  · rintro s hp ⟨⟨hempty, -⟩, -⟩
    exact hp hempty

end Sys2Proof.Machine
end

section
/-! State, part 1 (spec/30_encoding.md R70 to R77, spec/41_command_encoder.md R90 to R97): the command bytes and their
classes determine each other, and the code that stands for a request is that of the instruction it decodes to. -/

namespace Sys2Proof

/-! What the classifier says of a byte fixes the byte (R77). -/

theorem eq_cmdConv_of_bits : ∀ c : Byte, c.getLsbD 7 = true → c.getLsbD 6 = false → c.extractLsb' 4 2 = 0 →
    c = cmdConv (c.extractLsb' 0 4) := by
  decide

theorem eq_accessByte_of_bits : ∀ c : Byte, c.getLsbD 7 = true → c.getLsbD 6 = true →
    c = 3#2 ++ c.extractLsb' 1 5 ++ BitVec.ofBool (c.getLsbD 0) := by
  decide

theorem eq_of_classify_regAccess {cfg : Cfg} {c : Byte} {a : Addr} {read : Bool}
    (h : classify cfg c = .regAccess a read) : c = 3#2 ++ a ++ BitVec.ofBool read := by
  unfold classify at h
  split_ifs at h with h7 h6
  cases h
  exact eq_accessByte_of_bits c (by simpa using h7) h6

theorem eq_of_classify_powerDown {cfg : Cfg} {c : Byte} (h : classify cfg c = .powerDown) : c = cmdPwrdn cfg := by
  unfold classify at h
  split_ifs at h with _ _ hc
  exact hc

theorem eq_of_classify_calibrate {cfg : Cfg} {c : Byte} (h : classify cfg c = .calibrate) : c = cmdCal cfg := by
  unfold classify at h
  split_ifs at h with _ _ _ hc
  exact hc

theorem eq_of_classify_convert {cfg : Cfg} {c : Byte} {r : BitVec 4} (h : classify cfg c = .convert r) :
    c = cmdConv r := by
  unfold classify at h
  split_ifs at h with h7 h6 _ _ h54
  cases h
  exact eq_cmdConv_of_bits c (by simpa using h7) (by simpa using h6) h54

/-! Command bytes: the classifier reads back what the encoder builds (R77, R91 to R97). -/

/-- What R8 (a) asks of a command constant. -/
structure ConstantByte (c : Byte) : Prop where
  start : c.getLsbD 7 = true
  noRegister : c.getLsbD 6 = false
  noRate : (c.getLsbD 5 || c.getLsbD 4) = true

theorem constantBytes_of_wf {cfg : Cfg} (h : cfg.wf = true) :
    ConstantByte (cmdPwrdn cfg) ∧ ConstantByte (cmdCal cfg) ∧ cmdPwrdn cfg ≠ cmdCal cfg := by
  simp only [Cfg.wf, Cfg.commandsWf, Bool.and_eq_true, Bool.not_eq_true', bne_iff_ne] at h
  obtain ⟨⟨⟨⟨⟨⟨⟨⟨⟨⟨⟨⟨pd7, cal7⟩, pd6⟩, cal6⟩, pdRate⟩, calRate⟩, hne⟩, -⟩, -⟩, -⟩, -⟩, -⟩, -⟩ := h
  exact ⟨⟨pd7, pd6, pdRate⟩, ⟨cal7, cal6, calRate⟩, hne⟩

/-- A conversion byte has the start bit, opens no register access, and carries the rate, below two zeros (R91, R96). -/
theorem cmdConv_fields : ∀ r : BitVec 4, (cmdConv r).getLsbD 7 = true ∧ (cmdConv r).getLsbD 6 = false ∧
    (cmdConv r).extractLsb' 4 2 = 0 ∧ (cmdConv r).extractLsb' 0 4 = r ∧
    ((cmdConv r).getLsbD 5 || (cmdConv r).getLsbD 4) = false := by
  decide

theorem ConstantByte.ne_cmdConv {c : Byte} (h : ConstantByte c) (r : BitVec 4) : cmdConv r ≠ c := by
  obtain ⟨-, -, -, -, hrate⟩ := cmdConv_fields r
  rintro rfl
  exact Bool.false_ne_true (hrate.symm.trans h.noRate)

/-- A byte with the start bit that opens no register access is classified by the constants, then as a rate (R77). -/
theorem classify_of_noRegister (cfg : Cfg) {c : Byte} (h7 : c.getLsbD 7 = true) (h6 : c.getLsbD 6 = false) :
    classify cfg c = if c = cmdPwrdn cfg then .powerDown else if c = cmdCal cfg then .calibrate
      else if c.extractLsb' 4 2 = 0 then .convert (c.extractLsb' 0 4) else .reserved := by
  rw [classify, if_neg (by rw [h7]; decide), if_neg (by rw [h6]; decide)]
  rfl

theorem classify_cmdPwrdn {cfg : Cfg} (h : cfg.wf = true) : classify cfg (cmdPwrdn cfg) = .powerDown := by
  obtain ⟨hpd, -, -⟩ := constantBytes_of_wf h
  rw [classify_of_noRegister cfg hpd.start hpd.noRegister, if_pos rfl]

theorem classify_cmdCal {cfg : Cfg} (h : cfg.wf = true) : classify cfg (cmdCal cfg) = .calibrate := by
  obtain ⟨-, hcal, hne⟩ := constantBytes_of_wf h
  rw [classify_of_noRegister cfg hcal.start hcal.noRegister, if_neg hne.symm, if_pos rfl]

theorem classify_cmdConv {cfg : Cfg} (h : cfg.wf = true) (r : BitVec 4) :
    classify cfg (cmdConv r) = .convert r := by
  obtain ⟨hpd, hcal, -⟩ := constantBytes_of_wf h
  obtain ⟨h7, h6, h54, hr, -⟩ := cmdConv_fields r
  rw [classify_of_noRegister cfg h7 h6, if_neg (hpd.ne_cmdConv r), if_neg (hcal.ne_cmdConv r), if_pos h54, hr]

/-- What the classifier looks at in a command byte of R64 or R65. -/
theorem accessByte_fields : ∀ (a : Addr) (read : Bool), (3#2 ++ a ++ BitVec.ofBool read).getLsbD 7 = true ∧
    (3#2 ++ a ++ BitVec.ofBool read).getLsbD 6 = true ∧ (3#2 ++ a ++ BitVec.ofBool read).getLsbD 0 = read ∧
    (3#2 ++ a ++ BitVec.ofBool read).extractLsb' 1 5 = a := by
  decide

theorem classify_accessByte (cfg : Cfg) (a : Addr) (read : Bool) :
    classify cfg (3#2 ++ a ++ BitVec.ofBool read) = .regAccess a read := by
  obtain ⟨h7, h6, h0, ha⟩ := accessByte_fields a read
  rw [classify, if_neg (by rw [h7]; decide), if_pos h6, h0, ha]

end Sys2Proof

namespace Sys2Proof.Machine

theorem classify_rdByte (cfg : Cfg) (a : Addr) : classify cfg (rdByte a) = .regAccess a true :=
  classify_accessByte cfg a true

theorem classify_wrByte (cfg : Cfg) (a : Addr) : classify cfg (wrByte a) = .regAccess a false :=
  classify_accessByte cfg a false

/-! The code of a decoded request (R72, R77): operation entry may take it from the request or from the instruction. -/

/-- Whatever a decoder reads has this code. -/
def Codes (cfg : Cfg) (d : Except DecodeError Instr) (code : Byte) : Prop :=
  ∀ i, d = .ok i → instrCode cfg i = code

theorem Codes.ok {cfg : Cfg} {i : Instr} {code : Byte} (h : instrCode cfg i = code) : Codes cfg (.ok i) code := by
  rintro _ ⟨⟩
  exact h

theorem Codes.error (cfg : Cfg) (e : DecodeError) (code : Byte) : Codes cfg (.error e) code := by
  rintro _ ⟨⟩

/-- Both ways of a choice have the code, each where it is taken. -/
theorem Codes.ite {cfg : Cfg} {p : Prop} [Decidable p] {d e : Except DecodeError Instr} {code : Byte}
    (hd : p → Codes cfg d code) (he : ¬ p → Codes cfg e code) : Codes cfg (if p then d else e) code := by
  split
  · exact hd ‹_›
  · exact he ‹_›

/-- The code of a host operation is its `OP` (R73). -/
theorem instrCode_hostOp (cfg : Cfg) {i : Instr} {op arg : Byte} (h : encode cfg i = .hreq (hostWord op arg)) :
    instrCode cfg i = op := by
  rw [instrCode, h, requestOp, hostOp_hostWord]

theorem decodeNoArg_codes {cfg : Cfg} {i : Instr} {op : Byte} (arg : Byte)
    (h : encode cfg i = .hreq (hostWord op 0)) : Codes cfg (decodeNoArg arg i) op :=
  .ite (fun _ => .ok (instrCode_hostOp cfg h)) fun _ => .error _ _ _

theorem decodeConversionArg_codes (cfg : Cfg) (arg : Byte) :
    Codes cfg (decodeConversionArg arg) opIntoConversion :=
  .ite (fun _ => .ok (instrCode_hostOp cfg rfl)) fun _ => .error _ _ _

theorem decodeClockArg_codes (cfg : Cfg) (arg : Byte) : Codes cfg (decodeClockArg arg) opSetClock :=
  .ite (fun _ => .ok (instrCode_hostOp cfg rfl)) fun _ =>
  .ite (fun _ => .ok (instrCode_hostOp cfg rfl)) fun _ => .error _ _ _

theorem decodeFormatArg_codes (cfg : Cfg) (arg : Byte) : Codes cfg (decodeFormatArg arg) opSetFormat :=
  .ite (fun _ => .ok (instrCode_hostOp cfg rfl)) fun _ =>
  .ite (fun _ => .ok (instrCode_hostOp cfg rfl)) fun _ => .error _ _ _

theorem decodeGainArg_codes (cfg : Cfg) (arg : Byte) : Codes cfg (decodeGainArg arg) opSetGain :=
  .ite (fun _ => .ok (instrCode_hostOp cfg rfl)) fun _ =>
  .ite (fun _ => .ok (instrCode_hostOp cfg rfl)) fun _ => .error _ _ _

theorem decodeCalArg_codes (cfg : Cfg) (arg : Byte) : Codes cfg (decodeCalArg arg) opCalibrate :=
  .ite (fun _ => .ok (instrCode_hostOp cfg rfl)) fun _ =>
  .ite (fun _ => .ok (instrCode_hostOp cfg rfl)) fun _ =>
  .ite (fun _ => .ok (instrCode_hostOp cfg rfl)) fun _ => .error _ _ _

/-- One row of R73: the words with this `OP` are read by a decoder of instructions with this code. -/
theorem Codes.row {cfg : Cfg} {op code : Byte} {d e : Except DecodeError Instr}
    (hd : Codes cfg d code) (he : Codes cfg e op) : Codes cfg (if op = code then d else e) op :=
  .ite (fun h => h ▸ hd) fun _ => he

theorem decodeHost_codes (cfg : Cfg) (w : BitVec 16) : Codes cfg (decodeHost w) (hostOp w) :=
  .row (decodeNoArg_codes _ rfl) <| .row (decodeNoArg_codes _ rfl) <| .row (decodeNoArg_codes _ rfl) <|
  .row (decodeNoArg_codes _ rfl) <| .row (decodeConversionArg_codes cfg _) <| .row (decodeClockArg_codes cfg _) <|
  .row (decodeFormatArg_codes cfg _) <| .row (decodeGainArg_codes cfg _) <| .row (decodeCalArg_codes cfg _) <|
  .row (decodeNoArg_codes _ rfl) <| .row (decodeNoArg_codes _ rfl) <| .row (decodeNoArg_codes _ rfl) <|
  .row (decodeNoArg_codes _ rfl) <| .row (decodeNoArg_codes _ rfl) <| .row (decodeNoArg_codes _ rfl) <|
  .error _ _ _

theorem instrCode_rreg (cfg : Cfg) (a : Addr) (n : Nat) : instrCode cfg (.rreg a n) = rdByte a :=
  cmdRreg_eq_rdByte a

theorem instrCode_wreg (cfg : Cfg) (a : Addr) (n : Nat) (v : BitVec 32) : instrCode cfg (.wreg a n v) = wrByte a :=
  cmdWreg_eq_wrByte a

theorem decodeFrame_codes (cfg : Cfg) (c : Byte) (tail : List Byte) : Codes cfg (decodeFrame cfg (c :: tail)) c := by
  rw [decodeFrame]
  split
  · exact .error _ _ _
  next a hc =>
    rw [eq_of_classify_regAccess hc]
    exact .ite (fun _ => .error _ _ _) fun _ => .ite (fun _ => .ok (instrCode_rreg cfg a _)) fun _ => .error _ _ _
  next a hc =>
    rw [eq_of_classify_regAccess hc]
    exact .ite (fun _ => .error _ _ _) fun _ => .ok (instrCode_wreg cfg a _ _)
  next hc => rw [eq_of_classify_powerDown hc]; exact .ite (fun _ => .ok rfl) fun _ => .error _ _ _
  next hc => rw [eq_of_classify_calibrate hc]; exact .ite (fun _ => .ok rfl) fun _ => .error _ _ _
  next r hc => rw [eq_of_classify_convert hc]; exact .ite (fun _ => .ok rfl) fun _ => .error _ _ _
  · exact .error _ _ _

/-- The code of an instruction is that of the request it was decoded from. -/
theorem decode_codes (cfg : Cfg) (q : Request) : Codes cfg (decode cfg q) (requestOp q) := by
  match q with
  | .hreq w => exact decodeHost_codes cfg w
  | .frame [] => exact .error _ _ _
  | .frame (c :: tail) => exact decodeFrame_codes cfg c tail
  | .evalState v => exact .error _ _ _

theorem decodeFrame_zero (cfg : Cfg) (tail : List Byte) : decodeFrame cfg (0 :: tail) = .error .startBitClear := rfl

/-- Only a request whose `OP` is that of `NEW` decodes to it. -/
theorem asksNew_of_decode_new {cfg : Cfg} {q : Request} (h : decode cfg q = .ok .new) : asksNew q = true := by
  have hop : requestOp q = 0x00 := (decode_codes cfg q _ h).symm
  match q with
  | .hreq w => exact (asksNew_iff _).mpr ⟨w, rfl, hop⟩
  | .frame [] => cases h
  | .frame (c :: tail) =>
    obtain rfl : c = 0 := hop
    rw [decode, decodeFrame_zero] at h
    cases h
  | .evalState v => cases h

theorem ne_new_of_decode {cfg : Cfg} {q : Request} {i : Instr} (hq : asksNew q = false) (h : decode cfg q = .ok i) :
    i ≠ .new := by
  rintro rfl
  simp [asksNew_of_decode_new h] at hq

end Sys2Proof.Machine
end

section
/-! State, part 2 (spec/30_encoding.md R63 to R65, R71): whatever the environment answers, an instruction puts only legal
frames on the bus. -/

namespace Sys2Proof.Machine

/-! The frames the block sends decode (R63 to R65). -/

theorem decodeFrame_frameRd (cfg : Cfg) (a : Addr) {n : Nat} (hn : validWidth n = true) :
    decodeFrame cfg (frameRd a n) = .ok (.rreg a n) := by
  simp [frameRd_eq, decodeFrame, classify_rdByte, decodeReadTail, hn]

theorem decodeFrame_frameWr (cfg : Cfg) (a : Addr) {n : Nat} (hn : validWidth n = true) (v : BitVec 32) :
    decodeFrame cfg (frameWr a n v) = .ok (.wreg a n (beValue (beBytes n v))) := by
  simp [frameWr_eq, decodeFrame, classify_wrByte, decodeWriteTail, beBytes_length, hn]

/-- A command byte of format `C` (R63, R70): its class is that of a command sent alone. -/
def CommandByte (cfg : Cfg) (c : Byte) : Prop :=
  classify cfg c = .powerDown ∨ classify cfg c = .calibrate ∨ ∃ r, classify cfg c = .convert r

theorem legal_frameCmd {cfg : Cfg} {c : Byte} (h : CommandByte cfg c) (r : Answer Unit) :
    (BusEvent.w (frameCmd c) r).legal cfg = true := by
  obtain h | h | ⟨_, h⟩ := h <;> simp [BusEvent.legal, frameCmd, decodeFrame, h, decodeCommandOnly]

theorem legal_frameRd (cfg : Cfg) (a : Addr) {n : Nat} (hn : validWidth n = true) (r : Answer (List Byte)) :
    (BusEvent.x (frameRd a n) r).legal cfg = true := by
  simp [BusEvent.legal, decodeFrame_frameRd cfg a hn]

theorem legal_frameWr (cfg : Cfg) (a : Addr) {n : Nat} (hn : validWidth n = true) (v : BitVec 32) (r : Answer Unit) :
    (BusEvent.w (frameWr a n v) r).legal cfg = true := by
  simp [BusEvent.legal, decodeFrame_frameWr cfg a hn]

/-! Every body sends legal frames only (R71). -/

/-- The bus log holds only events that this `Cfg` allows. -/
def FramesLegal (cfg : Cfg) (s : State) : Prop := ∀ e ∈ s.log, e.legal cfg = true

/-- A computation that sends legal frames only. -/
def SendsLegal {α : Type} (cfg : Cfg) (f : State → State × Res α) : Prop :=
  ∀ s, FramesLegal cfg s → FramesLegal cfg (f s).1

theorem FramesLegal.append {cfg : Cfg} {s t : State} {es : List BusEvent} (h : FramesLegal cfg s)
    (ht : t.log = s.log ++ es) (hes : ∀ e ∈ es, e.legal cfg = true) : FramesLegal cfg t := by
  intro e he
  rw [ht] at he
  exact (List.mem_append.mp he).elim (h e) (hes e)

/-- What leaves the log alone sends nothing. -/
theorem SendsLegal.silent {α : Type} {cfg : Cfg} (g : State → State) (hg : ∀ s, (g s).log = s.log) (r : Res α) :
    SendsLegal cfg fun s => (g s, r) :=
  fun s h => h.append (es := []) (by simp [hg]) (by simp)

theorem SendsLegal.value {α : Type} {cfg : Cfg} (r : Res α) : SendsLegal cfg fun s => (s, r) :=
  .silent id (fun _ => rfl) r

theorem SendsLegal.tryDo {α β : Type} {cfg : Cfg} {f : State → State × Res α} {g : α → State → State × Res β}
    (hf : SendsLegal cfg f) (hg : ∀ a, SendsLegal cfg (g a)) : SendsLegal cfg fun s => tryDo (f s) g := by
  intro s h
  have hs := hf s h
  simp only [Machine.tryDo]
  cases (f s).2 with
  | ok a => exact hg a _ hs
  | err e => exact hs
  | refuse q => exact hs

theorem cmdSend_sendsLegal {cfg : Cfg} {c : Byte} (hc : CommandByte cfg c) : SendsLegal cfg (cmdSend c) := by
  intro s h
  obtain ⟨r, hr⟩ := cmdSend_ran c s
  exact h.append hr.log (by simpa [frameCmd] using legal_frameCmd hc r)

theorem regRead_sendsLegal (cfg : Cfg) (a : Addr) (n : Nat) : SendsLegal cfg (regRead a n) := by
  intro s h
  by_cases hn : validWidth n = true
  · obtain ⟨r, hr⟩ := regRead_ran hn a s
    exact h.append hr.log (by simpa using legal_frameRd cfg a hn r)
  · simpa [regRead, hn] using h

theorem regWrite_sendsLegal (cfg : Cfg) (a : Addr) (n : Nat) (v : BitVec 32) : SendsLegal cfg (regWrite a n v) := by
  intro s h
  by_cases hn : validWidth n = true
  · obtain ⟨r, hr⟩ := regWrite_ran hn a v s
    exact h.append hr.log (by simpa using legal_frameWr cfg a hn v r)
  · simpa [regWrite, hn] using h

theorem regUpdate_sendsLegal (cfg : Cfg) (a : Addr) (f : Byte → Byte) : SendsLegal cfg (regUpdate a f) :=
  (regRead_sendsLegal cfg a 1).tryDo fun v => by
    by_cases hf : f (v.setWidth 8) = v.setWidth 8 <;> simp only [hf, if_true, if_false]
    · exact .value _
    · exact regWrite_sendsLegal cfg _ _ _

theorem readCodec_sendsLegal {w : Nat} {T : Type} (cfg : Cfg) (k : RegCodec w T) : SendsLegal cfg (readCodec k) :=
  (regRead_sendsLegal cfg _ _).tryDo fun _ => .value _

theorem commandBody_sendsLegal {cfg : Cfg} {c : Byte} (hc : CommandByte cfg c) : SendsLegal cfg (commandBody c) :=
  (cmdSend_sendsLegal hc).tryDo fun _ => .value _

theorem transitionBody_sendsLegal {cfg : Cfg} {c : Byte} (hc : CommandByte cfg c) (a : Addr) (f : Byte → Byte)
    (m : Mode) : SendsLegal cfg (transitionBody a f c m) :=
  (regUpdate_sendsLegal cfg a f).tryDo fun _ => (cmdSend_sendsLegal hc).tryDo fun _ =>
    .silent (fun s => { s with mode := m }) (fun _ => rfl) _

theorem settingBody_sendsLegal (cfg : Cfg) (a : Addr) (f : Byte → Byte) : SendsLegal cfg (settingBody a f) :=
  (regUpdate_sendsLegal cfg a f).tryDo fun _ => .value _

theorem delay_sendsLegal {α : Type} (cfg : Cfg) (ms : Nat) (r : Res α) :
    SendsLegal cfg fun s => (delay ms s, r) :=
  fun s h => h.append (delay_log ms s) (by simp [BusEvent.legal])

theorem read24Body_sendsLegal (cfg : Cfg) (k : RegCodec 3 Value24) : SendsLegal cfg (read24Body k) :=
  (readCodec_sendsLegal cfg k).tryDo fun _ => .value _

/-- Under a well-formed `Cfg` the body of every instruction sends legal frames only. -/
theorem execBody_sendsLegal {cfg : Cfg} (hw : cfg.wf = true) (i : Instr) : SendsLegal cfg (execBody cfg i) := by
  have hpd : CommandByte cfg (cmdPwrdn cfg) := .inl (classify_cmdPwrdn hw)
  have hcal : CommandByte cfg (cmdCal cfg) := .inr (.inl (classify_cmdCal hw))
  have hconv : ∀ r, CommandByte cfg (cmdConv r) := fun r => .inr (.inr ⟨r, classify_cmdConv hw r⟩)
  cases i with
  | conv r => exact commandBody_sendsLegal (hconv r)
  | pwrdn => exact commandBody_sendsLegal hpd
  | cal => exact commandBody_sendsLegal hcal
  | wreg a n v => exact (regWrite_sendsLegal cfg a n v).tryDo fun _ => .value _
  | rreg a n => exact (regRead_sendsLegal cfg a n).tryDo fun _ => .value _
  | new => exact .value _
  | release => exact .silent (fun s => { s with alive := false }) (fun _ => rfl) _
  | intoStandby | intoSleep => exact transitionBody_sendsLegal hpd _ _ _
  | intoConversion rate cont => exact transitionBody_sendsLegal (hconv _) _ _ _
  | setClock | setFormat | setGain => exact settingBody_sendsLegal cfg _ _
  | calibrate kind =>
    exact (regUpdate_sendsLegal cfg _ _).tryDo fun _ => (cmdSend_sendsLegal hcal).tryDo fun _ =>
      delay_sendsLegal cfg _ _
  | readSoc | readSgc | readScoc | readScgc | readData => exact read24Body_sendsLegal cfg _
  | readStatus => exact (readCodec_sendsLegal cfg _).tryDo fun _ => .value _

end Sys2Proof.Machine
end

section
/-! State, part 3 (spec/10_state.md): how a step ends, what it writes to the block, and the statements of the family. Every
whole-machine rule is a case split over `RequestEnds`, the five ways a request can end. -/

namespace Sys2Proof.Machine

/-! Entry without a live, fault-free block (R145 steps 2 and 3). -/

theorem whenServing_of_notAlive (op : Byte) (k : State → State) {s : State} (h : s.alive = false) :
    whenServing op k s = answerNotAlive op s := by
  simp [whenServing, h]

theorem whenServing_of_latched (op : Byte) (k : State → State) {s : State} {r : FaultReason} (ha : s.alive = true)
    (hf : s.fault = some r) : whenServing op k s = respond (.faulted r) s := by
  simp [whenServing, ha, hf]

/-- Every instruction but `NEW` passes the liveness and fault checks under its own code. -/
theorem exec_eq_whenServing {i : Instr} (hi : i ≠ .new) (s : State) :
    ∃ k, exec i s = accept (whenServing (instrCode s.cfg i) k) s :=
  ⟨_, exec_eq_operate hi s⟩

theorem Entered.runOther_eq {q : Request} (h : Entered q) : runOther q = answerReserved q := by
  cases q with
  | hreq w => rfl
  | frame bs => rfl
  | evalState v => exact absurd rfl (h.2 v)

/-- Every request that operation entry checks, reserved or not, passes the same checks under the request's code. -/
theorem Entered.runRequest_eq {q : Request} (h : Entered q) (s : State) :
    ∃ k, runRequest q s = accept (whenServing (requestOp q) k) s := by
  have hq := h.not_asksNew
  cases hd : decode s.cfg q with
  | ok i =>
    rw [runRequest_ok hd, ← decode_codes s.cfg q i hd]
    exact exec_eq_whenServing (ne_new_of_decode hq hd) s
  | error e => exact ⟨_, by rw [runRequest_error hq hd, h.runOther_eq]; rfl⟩

theorem accept_whenServing_of_notAlive (op : Byte) (k : State → State) {s : State} (hw : s.cfg.wf = true)
    (h : s.alive = false) : accept (whenServing op k) s = .next (answerNotAlive op s) := by
  have e := whenServing_of_notAlive op k h
  rw [accept_quiet hw (by rw [e]; rfl) (by rw [e]; rfl), e]

theorem accept_whenServing_of_latched (op : Byte) (k : State → State) {s : State} {r : FaultReason}
    (hw : s.cfg.wf = true) (ha : s.alive = true) (hf : s.fault = some r) :
    accept (whenServing op k) s = .next (respond (.faulted r) s) := by
  have e := whenServing_of_latched op k ha hf
  rw [accept_quiet hw (by rw [e]; rfl) (by rw [e]; rfl), e]

/-! What a step can do, said once: the request at the head of the port ends in one of five ways. -/

/-- How a request taken in `s` ends. -/
inductive RequestEnds (q : Request) (s : State) : State → Prop where
  /-- `NEW` re-initialises (R145 step 1, R185). -/
  | reinit (h : asksNew q = true) : RequestEnds q s (reinit s)
  /-- Turned away at entry, refused, or evaluated by the host: a response and at most a record. -/
  | answered (r : Response) (c : List CauseRecord) :
      RequestEnds q s (respond r { s with causes := s.causes ++ c })
  /-- The mode gate latches (R145 step 5, R172). -/
  | gated {i : Instr} (c : CauseRecord) (hd : decode s.cfg q = .ok i) (ha : s.alive = true) (hf : s.fault = none)
      (hl : legalInMode s.cfg i s.mode = false) : RequestEnds q s (raiseFault .illegalInMode c s)
  /-- The host evaluates the reserved power state of a live block (R171). -/
  | reserved {v : StatusView} (c : CauseRecord) (hq : q = .evalState v) (hv : statState s.cfg v = none)
      (ha : s.alive = true) : RequestEnds q s (raiseFault .reservedPowerState c s)
  /-- A legal instruction runs its body and responds (R145 step 6). -/
  | ran {i : Instr} {t : State} {es : List BusEvent} (hd : decode s.cfg q = .ok i)
      (hl : legalInMode s.cfg i s.mode = true) (hb : BodyRan i s (execBody s.cfg i s) t es) :
      RequestEnds q s (answer (execBody s.cfg i s))

/-- Every step that answers is the end of the request at the head of the port, under a well-formed `Cfg`. -/
theorem step_requestEnds {s u : State} (h : step s = .next u) : ∃ q rest v k, s.pending = q :: rest ∧
    s.cfg.wf = true ∧ RequestEnds q { s with pending := rest } v ∧ u = { v with hangAfter := k } := by
  obtain ⟨q, rest, hp, ⟨hq, he⟩ | ⟨i, hq, hd, he⟩ | ⟨e, -, -, he⟩⟩ := step_cases h
  · obtain ⟨hw, hu⟩ := accept_next (run := reinit) he
    obtain ⟨k, rfl⟩ := deliver_eq hu
    exact ⟨q, rest, _, k, hp, hw, .reinit hq, rfl⟩
  · obtain ⟨hw, v, hu, hv⟩ := exec_cases he
    obtain ⟨k, rfl⟩ := deliver_eq hu
    refine ⟨q, rest, v, k, hp, hw, ?_, rfl⟩
    obtain ⟨hi, -⟩ | ⟨-, -, rfl⟩ | ⟨-, -, r, -, rfl⟩ | ⟨-, ha, hf, hl, rfl⟩ | ⟨-, ha, hf, hl, t, es, hb, rfl⟩ := hv
    · exact absurd hi (ne_new_of_decode hq hd)
    · exact .answered _ [_]
    · simpa using RequestEnds.answered (.faulted r) []
    · exact .gated _ hd ha hf hl
    · exact .ran hd hl hb
  · obtain ⟨hw, hu⟩ := accept_next he
    obtain ⟨k, rfl⟩ := deliver_eq hu
    refine ⟨q, rest, _, k, hp, hw, ?_, rfl⟩
    obtain ⟨r, c, hr⟩ | ⟨v, c, hq, hv, ha, hr⟩ := runOther_cases q { s with pending := rest }
    · exact hr ▸ .answered r c
    · exact hr ▸ .reserved c hq hv ha

/-! What a body leaves of the block (R164). -/

/-- Beside its bus traffic a body writes at most liveness and the tag. -/
theorem BodyRan.left_alive_mode {i : Instr} {s t : State} {p : State × Res Payload} {es : List BusEvent}
    (h : BodyRan i s p t es) : ∃ alive mode, p.1 = { t with alive := alive, mode := mode } := by
  obtain ⟨e, -⟩ | ⟨e, -⟩ := h.left
  · obtain ⟨alive, mode, hc⟩ := commit_writes_alive_mode i t
    exact ⟨alive, mode, e.trans hc⟩
  · exact ⟨t.alive, t.mode, e⟩

/-- Beside its write to liveness and the tag, a body is its bus traffic. -/
theorem BodyRan.left_ran {i : Instr} {s t : State} {p : State × Res Payload} {es : List BusEvent}
    (h : BodyRan i s p t es) : ∃ alive mode, Ran { s with alive := alive, mode := mode } p es := by
  obtain ⟨alive, mode, e⟩ := h.left_alive_mode
  obtain ⟨u, r⟩ := p
  obtain rfl : u = { t with alive := alive, mode := mode } := e
  have hr := h.ran
  have hq := hr.quiet
  exact ⟨alive, mode, ⟨hq.cfg, rfl, rfl, hq.fault, hq.causes, hq.pending, hq.responses, hq.peer, hq.hangAfter,
    hq.failAt, hq.failValue, hq.failApplies⟩, hr.log, hr.calls, hr.now, hr.ok, hr.err, hr.refuse, hr.devWf⟩

/-- The edges of the state graph (R147): the three transitions and their targets. -/
inductive TransitionTo : Instr → Mode → Prop where
  | standby : TransitionTo .intoStandby .standby
  | sleep : TransitionTo .intoSleep .sleep
  | conversion (rate : Rate) (cont : Bool) : TransitionTo (.intoConversion rate cont) .conversion

/-- An instruction commits a tag only if it is a transition. -/
theorem commit_mode (i : Instr) (t : State) : (commit i t).mode = t.mode ∨ TransitionTo i (commit i t).mode := by
  cases i
  case intoStandby => exact .inr .standby
  case intoSleep => exact .inr .sleep
  case intoConversion rate cont => exact .inr (.conversion rate cont)
  all_goals exact .inl rfl

/-- A body changes the tag only as a transition that answers `Ok` (R164). -/
theorem BodyRan.left_mode {i : Instr} {s t : State} {p : State × Res Payload} {es : List BusEvent}
    (h : BodyRan i s p t es) : p.1.mode = s.mode ∨ TransitionTo i p.1.mode ∧ ∃ x, p.2 = .ok x := by
  have ht : t.mode = s.mode := h.ran.quiet.mode
  obtain ⟨e, hx⟩ | ⟨e, -⟩ := h.left <;> rw [e]
  · exact (commit_mode i t).imp (·.trans ht) (⟨·, hx⟩)
  · exact .inl ht

/-- A `try` that answers `Ok` ran both its parts, and both answered `Ok` (R11). -/
theorem tryDo_ok {α β : Type} {p : State × Res α} {f : α → State → State × Res β} {b : β}
    (h : (tryDo p f).2 = .ok b) : ∃ a, p.2 = .ok a ∧ (f a p.1).2 = .ok b := by
  obtain ⟨s, a | e | q⟩ := p
  · exact ⟨a, rfl, h⟩
  · cases h
  · cases h

/-- A legal transition is one of the edges of R147, told by its source and its target. -/
theorem TransitionTo.edge {cfg : Cfg} {i : Instr} {m m' : Mode} (h : TransitionTo i m')
    (hl : legalInMode cfg i m = true) :
    (i = .intoStandby ∧ m' = .standby) ∨ (i = .intoSleep ∧ m' = .sleep) ∨
      (∃ r c, i = .intoConversion r c) ∧ m ≠ .conversion ∧ m' = .conversion := by
  cases h with
  | standby => exact .inl ⟨rfl, rfl⟩
  | sleep => exact .inr (.inl ⟨rfl, rfl⟩)
  | conversion rate cont => exact .inr (.inr ⟨⟨rate, cont, rfl⟩, by simpa [legalInMode] using hl, rfl⟩)

/-- A transition answers `Ok` with no payload (R148 to R150). -/
theorem transitionBody_payload {a : Addr} {f : Byte → Byte} {c : Byte} {m : Mode} {s : State} {x : Payload}
    (h : (transitionBody a f c m s).2 = .ok x) : x = .empty := by
  obtain ⟨_, -, h⟩ := tryDo_ok h
  obtain ⟨_, -, h⟩ := tryDo_ok h
  cases h
  rfl

theorem TransitionTo.payload {cfg : Cfg} {i : Instr} {m : Mode} {s : State} {x : Payload} (h : TransitionTo i m)
    (hx : (execBody cfg i s).2 = .ok x) : x = .empty := by
  cases h <;> exact transitionBody_payload hx

theorem answer_responses_of_ok {p : State × Res Payload} {x : Payload} (h : p.2 = .ok x) :
    (answer p).responses = p.1.responses ++ [.ok x] := by
  simp [answer, h]

theorem nextAsksNew_of_asksNew {s : State} {q : Request} {rest : List Request} (hp : s.pending = q :: rest)
    (hq : asksNew q = true) : NextAsksNew s := by
  obtain ⟨w, rfl, hw⟩ := (asksNew_iff q).mp hq
  exact ⟨w, rest, hp, hw⟩

/-! What the reads and the commands store: nothing (R58). -/

/-- What follows a computation without touching the state leaves it as the computation left it. -/
theorem tryDo_return_state {α β : Type} (p : State × Res α) (g : α → Res β) :
    (tryDo p fun a t => (t, g a)).1 = p.1 := by
  obtain ⟨s, a | e | q⟩ := p <;> rfl

/-- An instruction that neither stores to the mock, writes `S`, nor waits. -/
structure Storeless (i : Instr) : Prop where
  notNew : i ≠ .new
  notCalibrate : ∀ k, i ≠ .calibrate k
  commit : ∀ t, commit i t = t
  dev : ∀ cfg s, (execBody cfg i s).1.dev = s.dev

theorem commandBody_dev (c : Byte) (s : State) : (commandBody c s).1.dev = s.dev := by
  rw [commandBody, tryDo_return_state, cmdSend_dev]

theorem read24Body_dev (k : RegCodec 3 Value24) (s : State) : (read24Body k s).1.dev = s.dev := by
  rw [read24Body, tryDo_return_state, readCodec_dev]

theorem readStatusBody_dev (cfg : Cfg) (s : State) : (readStatusBody cfg s).1.dev = s.dev := by
  rw [readStatusBody, tryDo_return_state, readCodec_dev]

theorem readBody_dev (a : Addr) (n : Nat) (s : State) : (readBody a n s).1.dev = s.dev := by
  rw [readBody, tryDo_return_state, regRead_dev]

theorem storeless_of_readOrCommand {i : Instr}
    (h : i ∈ [Instr.readSoc, .readSgc, .readScoc, .readScgc, .readData, .readStatus, .pwrdn, .cal] ∨
      (∃ r, i = .conv r) ∨ (∃ a n, i = .rreg a n)) : Storeless i := by
  simp only [List.mem_cons, List.not_mem_nil, or_false] at h
  obtain (rfl | rfl | rfl | rfl | rfl | rfl | rfl | rfl) | ⟨r, rfl⟩ | ⟨a, n, rfl⟩ := h
  iterate 5 exact ⟨nofun, nofun, fun _ => rfl, fun _ => read24Body_dev _⟩
  · exact ⟨nofun, nofun, fun _ => rfl, readStatusBody_dev⟩
  iterate 3 exact ⟨nofun, nofun, fun _ => rfl, fun _ => commandBody_dev _⟩
  · exact ⟨nofun, nofun, fun _ => rfl, fun _ => readBody_dev a n⟩

/-- A storeless body is its bus traffic alone, and takes no time. -/
theorem Storeless.ran {i : Instr} {s t : State} {p : State × Res Payload} {es : List BusEvent} (h : Storeless i)
    (hb : BodyRan i s p t es) : Ran s p es ∧ p.1.now = s.now := by
  have e : p.1 = t := by
    obtain ⟨e, -⟩ | ⟨e, -⟩ := hb.left
    · exact e.trans (h.commit t)
    · exact e
  have hr : Ran s (p.1, p.2) es := by rw [e]; exact hb.ran
  exact ⟨hr, by rw [hr.now, delaysIn_calls (hb.still (.inr h.notCalibrate)), Nat.add_zero]⟩

/-! Taking a fault (R169): the latch keeps the first. -/

theorem raiseFault_fault_of_none (r : FaultReason) (c : CauseRecord) {s : State} (h : s.fault = none) :
    (raiseFault r c s).fault = some r := by
  rw [raiseFault_fault, h]
  rfl

theorem raiseFault_fault_of_some (r : FaultReason) (c : CauseRecord) {s : State} {r' : FaultReason}
    (h : s.fault = some r') : (raiseFault r c s).fault = some r' := by
  rw [raiseFault_fault, h]
  rfl

/-! The invariant. It says nothing of the port, nor of how long the transport still answers. -/

theorem State.Inv.withPort {s : State} (h : s.Inv) (rest : List Request) : { s with pending := rest }.Inv :=
  ⟨h.cfgWf, h.devWf, h.callIndex, h.framesLegal, h.idle, h.latch⟩

theorem State.Inv.withHangAfter {s : State} (h : s.Inv) (k : Option Nat) : { s with hangAfter := k }.Inv :=
  ⟨h.cfgWf, h.devWf, h.callIndex, h.framesLegal, h.idle, h.latch⟩

/-- Taking a fault keeps `NotAlive` out of the latch (R173). -/
theorem latch_raise {f : Option FaultReason} {r : FaultReason} (hf : f ≠ some .notAlive) (hr : r ≠ .notAlive) :
    (f <|> some r) ≠ some .notAlive := by
  cases f with
  | none => simpa using hr
  | some r' => exact hf

/-- Running a body and responding keeps the invariant (R18, R57, R59, R71). -/
theorem BodyRan.answer_inv {i : Instr} {s t : State} {es : List BusEvent} (h : s.Inv)
    (hb : BodyRan i s (execBody s.cfg i s) t es) : (answer (execBody s.cfg i s)).Inv := by
  obtain ⟨alive, mode, hr⟩ := hb.left_ran
  have hcfg : (answer (execBody s.cfg i s)).cfg = s.cfg := (answer_cfg _).trans hr.quiet.cfg
  exact {
    cfgWf := by rw [hcfg]; exact h.cfgWf
    devWf := by rw [answer_dev]; exact hr.devWf h.devWf
    callIndex := by rw [answer_calls, answer_log, hr.calls, hr.log, callsIn_append, ← h.callIndex]
    framesLegal := by rw [answer_log, hcfg]; exact execBody_sendsLegal h.cfgWf i s h.framesLegal
    idle := answer_op _
    latch := by rw [answer_fault, hr.quiet.fault]; exact h.latch }

theorem cfg_default_wf : Cfg.default.wf = true := by decide

/-! The power-state field. -/

/-- The code map of R27: three codes with a value, the fourth without. -/
theorem powerStateOfCode_iff : ∀ c : BitVec 2,
    (powerStateOfCode c = some .conversion ↔ c = 0) ∧ (powerStateOfCode c = some .powerDown ↔ c = 1) ∧
    (powerStateOfCode c = some .standby ↔ c = 2) ∧ (powerStateOfCode c = none ↔ c = 3) := by
  decide

theorem statState_eq (cfg : Cfg) (v : StatusView) :
    statState cfg v = powerStateOfCode (v.extractLsb' cfg.stPdLsb 2) := by
  rw [statState, Flags.get_eq_extract]

/-! The obligations. -/

/-- Settles O15: the field is read as two bits, and the code map is total on them. -/
theorem powerStateFieldDecodes : Obligations.PowerStateFieldDecodes := by
  intro cfg v
  rw [statState_eq]
  exact powerStateOfCode_iff _

/-- Settles O29: re-initialising makes no call, so it is delivered whatever the transport does. -/
theorem newReinitialisesBlock : Obligations.NewReinitialisesBlock :=
  fun _ hw => accept_quiet (run := reinit) hw rfl rfl

/-- Settles O30: what `NEW` writes is where the power-on state differs from the reset state. -/
theorem newFromPowerOnIsReset : Obligations.NewFromPowerOnIsReset :=
  fun m => newReinitialisesBlock (State.powerOn m) cfg_default_wf

/-- Settles O60: the reset state has an empty log, an empty register file and no fault. -/
theorem resetMeetsInvariant : Obligations.ResetMeetsInvariant where
  cfgWf := cfg_default_wf
  devWf := rfl
  callIndex := rfl
  framesLegal := nofun
  idle := rfl
  latch := nofun

/-- Settles O22: the liveness check comes first, under the request's code, which is the instruction's. -/
theorem notAliveAnswersFaulted : Obligations.NotAliveAnswersFaulted := by
  constructor
  · intro s q rest hw ha hp hq
    obtain ⟨k, e⟩ := hq.runRequest_eq { s with pending := rest }
    rw [step_cons hp, e]
    exact accept_whenServing_of_notAlive _ k hw ha
  · intro s i hi hw ha
    obtain ⟨k, e⟩ := exec_eq_whenServing hi s
    rw [e]
    exact accept_whenServing_of_notAlive _ k hw ha

/-- Settles O23: the fault check comes right after the liveness check, for every request and instruction. -/
theorem latchedFaultAnswersEverything : Obligations.LatchedFaultAnswersEverything := by
  constructor
  · intro s q rest r hw ha hf hp hq
    obtain ⟨k, e⟩ := hq.runRequest_eq { s with pending := rest }
    rw [step_cons hp, e]
    exact accept_whenServing_of_latched _ k hw ha hf
  · intro s i r hi hw ha hf
    obtain ⟨k, e⟩ := exec_eq_whenServing hi s
    rw [e]
    exact accept_whenServing_of_latched _ k hw ha hf

/-- Settles O48: entry writes at most the latch, through the mode gate, and a storeless body is its bus traffic. -/
theorem readsAndCommandsFrame : Obligations.ReadsAndCommandsFrame := by
  intro s u i hi h
  have hs := storeless_of_readOrCommand hi
  obtain ⟨-, v, hd, hv⟩ := exec_cases h
  obtain ⟨k, rfl⟩ := deliver_eq hd
  obtain ⟨hn, -⟩ | ⟨-, -, rfl⟩ | ⟨-, -, r, -, rfl⟩ | ⟨-, -, hf, hl, rfl⟩ | ⟨-, -, -, -, t, es, hb, rfl⟩ := hv
  · exact absurd hn hs.notNew
  · exact ⟨rfl, rfl, rfl, rfl, rfl, rfl, rfl, rfl, rfl, .inl rfl, fun _ => rfl⟩
  · exact ⟨rfl, rfl, rfl, rfl, rfl, rfl, rfl, rfl, rfl, .inl rfl, fun _ => rfl⟩
  · exact ⟨rfl, rfl, rfl, rfl, rfl, rfl, rfl, rfl, rfl, .inr ⟨hf, hl⟩, fun _ => rfl⟩
  · obtain ⟨hr, hnow⟩ := hs.ran hb
    have hq := hr.quiet
    simp only [answer_cfg, answer_alive, answer_mode, answer_now, answer_pending, answer_peer, answer_failAt,
      answer_failValue, answer_failApplies, answer_fault, answer_dev]
    exact ⟨hq.cfg, hq.alive, hq.mode, hnow, hq.pending, hq.peer, hq.failAt, hq.failValue, hq.failApplies,
      .inl hq.fault, fun k => by rw [hs.dev]⟩

/-- Settles O57: of the ends of a request, only `NEW` and a body that answered `Ok` write the tag, and of the bodies
only the transitions'. -/
theorem modeChangesOnlyAlongGraph : Obligations.ModeChangesOnlyAlongGraph := by
  intro s u h hm
  obtain ⟨q, rest, v, k, hp, -, hv, rfl⟩ := step_requestEnds h
  cases hv with
  | reinit hq => exact .inl ⟨nextAsksNew_of_asksNew hp hq, rfl⟩
  | answered | gated | reserved => exact absurd rfl hm
  | @ran i t es hd hl hb =>
    obtain he | ⟨hi, x, hx⟩ := hb.left_mode
    · exact absurd ((answer_mode _).trans he) hm
    · obtain rfl := hi.payload hx
      obtain ⟨_, _, hr⟩ := hb.left_ran
      refine .inr ⟨i, ⟨q, rest, hp, hd⟩, ?_, hl, ?_⟩
      · exact (answer_responses_of_ok hx).trans (congrArg (· ++ _) hr.quiet.responses)
      · rw [answer_mode]
        exact hi.edge hl

/-- Settles O58: of the ends of a request, `NEW` empties the latch and the two faults fill an empty one; nothing else
writes it. -/
theorem latchSetOnceClearedByNew : Obligations.LatchSetOnceClearedByNew := by
  intro s u h hf
  obtain ⟨q, rest, v, k, hp, -, hv, rfl⟩ := step_requestEnds h
  cases hv with
  | reinit hq => exact .inl ⟨nextAsksNew_of_asksNew hp hq, rfl⟩
  | answered => exact absurd rfl hf
  | gated c hd ha hnone hl =>
    exact .inr ⟨hnone, ha, .inl ⟨_, ⟨q, rest, hp, hd⟩, hl, raiseFault_fault_of_none _ c hnone⟩⟩
  | @reserved v c hq hv ha =>
    obtain hs | ⟨r, hs⟩ := Option.eq_none_or_eq_some s.fault
    · obtain ⟨-, -, -, hcode⟩ := powerStateFieldDecodes s.cfg v
      exact .inr ⟨hs, ha, .inr ⟨v, rest, hq ▸ hp, hcode.mp hv, raiseFault_fault_of_none _ c hs⟩⟩
    · exact absurd ((raiseFault_fault_of_some _ c hs).trans hs.symm) hf
  | ran hd hl hb =>
    obtain ⟨_, _, hr⟩ := hb.left_ran
    exact absurd ((answer_fault _).trans hr.quiet.fault) hf

/-- Settles O59: only a body touches the bus and the registers, and it sends legal frames; every end of a request
responds, which discards the operation, and no fault taken is `NotAlive`. -/
theorem stepKeepsInvariant : Obligations.StepKeepsInvariant := by
  intro s u hs h
  obtain ⟨q, rest, v, k, hp, -, hv, rfl⟩ := step_requestEnds h
  have hi := hs.withPort rest
  refine State.Inv.withHangAfter ?_ k
  cases hv with
  | reinit => exact ⟨hi.cfgWf, hi.devWf, hi.callIndex, hi.framesLegal, rfl, nofun⟩
  | answered => exact ⟨hi.cfgWf, hi.devWf, hi.callIndex, hi.framesLegal, rfl, hi.latch⟩
  | gated | reserved =>
    exact ⟨hi.cfgWf, hi.devWf, hi.callIndex, hi.framesLegal, rfl, latch_raise hi.latch nofun⟩
  | ran hd hl hb => exact hb.answer_inv hi

end Sys2Proof.Machine
end

section
/-! Memory, part 1 (spec/20_memory.md R41): the bytes of a value in wire order, and the value of up to four bytes
received. -/

namespace Sys2Proof

/-- The first byte on the wire is the most significant one. -/
theorem beBytes_succ (n : Nat) (v : BitVec 32) : beBytes (n + 1) v = v.extractLsb' (8 * n) 8 :: beBytes n v := by
  have hbyte : (v >>> (8 * n)).setWidth 8 = v.extractLsb' (8 * n) 8 := by
    apply BitVec.eq_of_getLsbD_eq
    intro i hi
    simp [hi]
  rw [beBytes, hbyte]

@[simp] theorem beBytes_zero (v : BitVec 32) : beBytes 0 v = [] := rfl

/-- A byte appended on the right is a byte shifted in: the step by which `beValue` reads. -/
theorem setWidth_append_byte {w : Nat} (x : BitVec w) (b : Byte) :
    (x ++ b).setWidth 32 = (x.setWidth 32 <<< 8) ||| b.setWidth 32 := by
  apply BitVec.eq_of_getLsbD_eq
  intro i hi
  rw [BitVec.getLsbD_setWidth, BitVec.getLsbD_append, BitVec.getLsbD_or, BitVec.getLsbD_shiftLeft]
  by_cases h : i < 8
  · simp [h, hi]
  · have hsub : i - 8 < 32 := by omega
    have hb : b.getLsbD i = false := BitVec.getLsbD_of_ge _ _ (Nat.le_of_not_lt h)
    simp [h, hi, hsub, hb]

theorem beValue_one (a : Byte) : beValue [a] = a.setWidth 32 := by
  simp [beValue]

theorem beValue_two (a b : Byte) : beValue [a, b] = (a ++ b).setWidth 32 := by
  rw [setWidth_append_byte, ← beValue_one]
  exact beValue_append [a] b

theorem beValue_three (a b c : Byte) : beValue [a, b, c] = (a ++ b ++ c).setWidth 32 := by
  rw [setWidth_append_byte, ← beValue_two]
  exact beValue_append [a, b] c

theorem beValue_four (a b c d : Byte) : beValue [a, b, c, d] = a ++ b ++ c ++ d := by
  rw [← BitVec.setWidth_eq (a ++ b ++ c ++ d), setWidth_append_byte, ← beValue_three]
  exact beValue_append [a, b, c] d

/-- Settles O8: each byte of `beBytes` is the next field of the value from the top, and four bytes lose nothing. -/
theorem valuesTravelBigEndian : Obligations.ValuesTravelBigEndian := by
  intro v
  have hback : beValue (beBytes 4 v) = v := beValue_beBytes (by decide) v v.isLt
  exact ⟨by simp [beBytes_succ], by simp [beBytes_succ], by simp [beBytes_succ], by simp [beBytes_succ], hback⟩

end Sys2Proof
end

section
/-! Memory, part 2 (spec/20_memory.md R44, R56, spec/43_bus_transactions.md R140, R141): the two register transactions
as instructions, when the oracle's next answer is known. -/

namespace Sys2Proof.Machine

theorem validWidth_iff {n : Nat} : validWidth n = true ↔ 1 ≤ n ∧ n ≤ 4 := by
  simp [validWidth]

/-- A served register read answers with its body's response: it is legal in every mode. -/
theorem Serving.exec_rreg {s : State} (h : Serving s) (a : Addr) (n : Nat) :
    exec (.rreg a n) s = .next (answer (readBody a n s)) :=
  exec_served h nofun rfl

/-- A served register write answers with its body's response: it is legal in every mode. -/
theorem Serving.exec_wreg {s : State} (h : Serving s) (a : Addr) (n : Nat) (v : BitVec 32) :
    exec (.wreg a n v) s = .next (answer (writeBody a n v s)) :=
  exec_served h nofun rfl

theorem Answers.exec_rreg_ok {s : State} {w : Received} {rest : List (Answer Received)} (hs : Serving s)
    (h : Answers s (.ok w :: rest)) (a : Addr) {n : Nat} (hn : validWidth n = true) :
    exec (.rreg a n) s = .next { s with
      script := rest, calls := s.calls + 1,
      log := s.log ++ [.x (rdByte a :: List.replicate n 0) (.ok (receivedBytes (n + 1) w))],
      responses := s.responses ++ [.ok (.raw n (beValue (receivedBytes (n + 1) w).tail))], op := Transient.idle } := by
  rw [hs.exec_rreg, readBody, h.regRead_ok a hn, frameRd_eq]
  rfl

theorem Answers.exec_wreg_ok {s : State} {w : Received} {rest : List (Answer Received)} (hs : Serving s)
    (h : Answers s (.ok w :: rest)) (a : Addr) {n : Nat} (hn : validWidth n = true) (v : BitVec 32) :
    exec (.wreg a n v) s = .next { s with
      script := rest, calls := s.calls + 1, log := s.log ++ [.w (wrByte a :: beBytes n v) (.ok ())],
      responses := s.responses ++ [.ok .empty], op := Transient.idle } := by
  rw [hs.exec_wreg, writeBody, h.regWrite_ok a hn, frameWr_eq]
  rfl

/-- Settles O34: at each width the bytes after the echo are assembled most significant first. -/
theorem registerReadReturnsBytesAfterEcho : Obligations.RegisterReadReturnsBytesAfterEcho := by
  intro s a w rest hs h
  rw [← beValue_one, ← beValue_two, ← beValue_three, ← beValue_four]
  exact ⟨h.exec_rreg_ok hs a (n := 1) rfl, h.exec_rreg_ok hs a (n := 2) rfl, h.exec_rreg_ok hs a (n := 3) rfl,
    h.exec_rreg_ok hs a (n := 4) rfl⟩

/-- Settles O35: the frame of a write is its command byte and the value's bytes. -/
theorem registerWriteSendsValueBytes : Obligations.RegisterWriteSendsValueBytes := by
  intro s a n v w rest hs h1 h4 h
  exact h.exec_wreg_ok hs a (validWidth_iff.mpr ⟨h1, h4⟩) v

end Sys2Proof.Machine
end

section
/-! Memory, part 3 (spec/20_memory.md R40, R50): errors, call counts, and a transport that never returns. -/

namespace Sys2Proof.Machine

/-! A failing first call (R167). -/

/-- The computation that gave `p` from `s` ended at its first call, which failed with `e`. -/
def AbortedAtFirstCall {α : Type} (s : State) (e : TransportError) (rest : List (Answer Received))
    (p : State × Res α) : Prop :=
  ∃ ev op, BusEvent.failedWith e ev = true ∧
    p = ({ s with script := rest, calls := s.calls + 1, log := s.log ++ [ev], op := op }, .err e)

theorem failedWith_w (bs : List Byte) (e : TransportError) : (BusEvent.w bs (.err e)).failedWith e = true :=
  beq_self_eq_true e

theorem failedWith_x (bs : List Byte) (e : TransportError) : (BusEvent.x bs (.err e)).failedWith e = true :=
  beq_self_eq_true e

section
variable {s : State} {e : TransportError} {rest : List (Answer Received)}

/-- What comes after an aborted computation is not run (R11). -/
theorem AbortedAtFirstCall.tryDo {α β : Type} {p : State × Res α} (h : AbortedAtFirstCall s e rest p)
    (f : α → State → State × Res β) : AbortedAtFirstCall s e rest (tryDo p f) := by
  obtain ⟨ev, op, hev, rfl⟩ := h
  exact ⟨ev, op, hev, rfl⟩

theorem Answers.cmdSend_aborted (h : Answers s (.err e :: rest)) (c : Byte) :
    AbortedAtFirstCall s e rest (cmdSend c s) :=
  ⟨_, _, failedWith_w _ e, h.tWrite_err _⟩

theorem Answers.regRead_aborted (h : Answers s (.err e :: rest)) (a : Addr) {n : Nat} (hn : validWidth n = true) :
    AbortedAtFirstCall s e rest (regRead a n s) :=
  ⟨_, _, failedWith_x _ e, h.regRead_err a hn⟩

theorem Answers.regWrite_aborted (h : Answers s (.err e :: rest)) (a : Addr) {n : Nat} (hn : validWidth n = true)
    (v : BitVec 32) : AbortedAtFirstCall s e rest (regWrite a n v s) :=
  ⟨_, _, failedWith_w _ e, h.regWrite_err a hn v⟩

theorem Answers.regUpdate_aborted (h : Answers s (.err e :: rest)) (a : Addr) (f : Byte → Byte) :
    AbortedAtFirstCall s e rest (regUpdate a f s) :=
  (h.regRead_aborted a rfl).tryDo _

theorem Answers.readCodec_aborted {w : Nat} {T : Type} (h : Answers s (.err e :: rest)) (hw : validWidth w = true)
    (k : RegCodec w T) : AbortedAtFirstCall s e rest (readCodec k s) :=
  (h.regRead_aborted k.addr hw).tryDo _

/-- Every body that makes a call is aborted by the failure of the first. -/
theorem Answers.execBody_aborted (h : Answers s (.err e :: rest)) (cfg : Cfg) {i : Instr}
    (hw : i.wellFormed = true) (hc : 1 ≤ (callCounts i).1) : AbortedAtFirstCall s e rest (execBody cfg i s) := by
  cases i with
  | conv | pwrdn | cal => rw [execBody]; exact (h.cmdSend_aborted _).tryDo _
  | wreg a n v =>
    simp only [Instr.wellFormed, Bool.and_eq_true] at hw
    rw [execBody]; exact (h.regWrite_aborted a hw.1 v).tryDo _
  | rreg a n => rw [execBody]; exact (h.regRead_aborted a hw).tryDo _
  | new | release => exact absurd hc (by decide)
  | intoStandby | intoSleep | intoConversion | setClock | setFormat | setGain | calibrate =>
    rw [execBody]; exact (h.regUpdate_aborted _ _).tryDo _
  | readSoc | readSgc | readScoc | readScgc | readData => rw [execBody]; exact (h.readCodec_aborted rfl _).tryDo _
  | readStatus => rw [execBody]; exact (h.readCodec_aborted rfl _).tryDo _

end

/-- An instruction that makes a call is not `NEW`. -/
theorem ne_new_of_calls {i : Instr} (hc : 1 ≤ (callCounts i).1) : i ≠ .new := by
  rintro rfl
  exact absurd hc (by decide)

/-- Settles O43: the body is aborted by its first call, and the error is reported with the block as it was. -/
theorem firstCallFailureAborts : Obligations.FirstCallFailureAborts := by
  intro s i e rest hs hl hw hc h
  obtain ⟨ev, op, hev, hb⟩ := h.execBody_aborted s.cfg hw hc
  refine ⟨ev, hev, ?_⟩
  rw [exec_served hs (ne_new_of_calls hc) hl, hb]
  rfl

/-! The calls of an operation that answers `Ok` (R165). -/

/-- A body whose response is `Ok` ended with `Ok`. -/
theorem ok_of_answer_responses {p : State × Res Payload} {rs : List Response} {x : Payload}
    (hp : p.1.responses = rs) (h : (answer p).responses = rs ++ [.ok x]) : p.2 = .ok x := by
  subst hp
  obtain ⟨s, y | e | q⟩ := p
  · simpa [answer] using h
  · simp [answer] at h
  · simp [answer] at h

/-- Settles O45: `NEW` makes no call, what is turned away at entry does not answer `Ok`, and a body that ends with `Ok`
made the calls that its events show. -/
theorem okOperationCallCounts : Obligations.OkOperationCallCounts := by
  intro s u i p h hr
  obtain ⟨-, v, hd, hv⟩ := exec_cases h
  obtain ⟨k, rfl⟩ := deliver_eq hd
  obtain ⟨rfl, rfl⟩ | ⟨-, -, rfl⟩ | ⟨-, -, r, -, rfl⟩ | ⟨-, -, -, -, rfl⟩ | ⟨-, -, -, -, t, es, hb, rfl⟩ := hv
  · exact ⟨by simp [callCounts], by simp, [], by simp, nofun, rfl⟩
  · simp at hr
  · simp at hr
  · simp at hr
  · obtain ⟨_, _, hran⟩ := hb.left_ran
    have hok : (execBody s.cfg i s).2 = .ok p := ok_of_answer_responses hran.quiet.responses hr
    have hcalls : (execBody s.cfg i s).1.calls = s.calls + callsIn es := hran.calls
    simp only [answer_calls, answer_log, hcalls, Nat.add_sub_cancel_left]
    exact ⟨hb.least p hok, hb.most, es, hran.log, hran.ok p hok, rfl⟩

/-! A transport that never returns (R195). -/

/-- An instruction is accepted and runs the same way whatever the bound of the transport is. -/
theorem exec_withHang (i : Instr) (s : State) :
    ∃ t : State, ∀ h, exec i (s.withHang h) = accept (fun _ => t.withHang h) (s.withHang h) := by
  by_cases hi : i = .new
  · subst hi
    exact ⟨reinit s, fun _ => rfl⟩
  · refine ⟨enter (instrCode s.cfg i) (fun c m => legalInMode c i m) (execBody s.cfg i) s, fun h => ?_⟩
    rw [exec_eq_operate hi, operate, accept, accept, State.withHang_cfg, enter_withHang (execBody_unhung s.cfg i)]

theorem deliver_hung {s t : State} {k : Nat} (hh : s.hangAfter = some k) (h : k < t.calls - s.calls) :
    deliver s t = .fault .transportNeverReturns := by
  simp [deliver, hh, Nat.not_le.mpr h]

theorem deliver_within {s t : State} {k : Nat} (hh : s.hangAfter = some k) (h : t.calls - s.calls ≤ k) :
    deliver s t = .next { t with hangAfter := some (k - (t.calls - s.calls)) } := by
  simp [deliver, hh, h]

/-- Settles O27: the bound plays no part in what an instruction computes, and delivery compares it with the calls made;
an operation that makes a call at all makes more than none. -/
theorem hungTransportHasNoStep : Obligations.HungTransportHasNoStep := by
  constructor
  · intro s u i k hk hu
    obtain ⟨t, ht⟩ := exec_withHang i s
    have hfree : accept (fun _ => t.withHang none) (s.withHang none) = .next u := (ht none).symm.trans hu
    obtain ⟨hw, hd⟩ := accept_next hfree
    obtain rfl : t.withHang none = u := by simpa [deliver] using hd
    have hbound : exec i s = deliver s (t.withHang s.hangAfter) := (ht s.hangAfter).trans (if_pos hw)
    rw [hbound]
    exact ⟨fun h => deliver_hung hk h, fun h => deliver_within hk h⟩
  · intro s i hw ha hf hl hwf hc hk
    obtain ⟨t, es, hb⟩ := execBody_ran s.cfg i s
    obtain ⟨_, _, hran⟩ := hb.left_ran
    have hcalls : (execBody s.cfg i s).1.calls = s.calls + callsIn es := hran.calls
    have hfirst : 1 ≤ callsIn es := hb.first hwf hc
    rw [exec_entered hw ha hf (ne_new_of_calls hc) hl]
    exact deliver_hung hk (by rw [answer_calls]; omega)

end Sys2Proof.Machine
end

section
/-! Memory, part 4 (spec/20_memory.md R58, R59): what the register transactions and the transitions do to the mock's
registers. -/

namespace Sys2Proof.Machine

/-! The frame of a register write, in every environment. -/

theorem writeBody_dev (a : Addr) (n : Nat) (v : BitVec 32) (s : State) {k : Nat} (h : ¬ inRegister a k) :
    (writeBody a n v s).1.dev.readByte k = s.dev.readByte k := by
  rw [writeBody, tryDo_return_state, regWrite_dev a n v s h]

/-- Settles O50: entry writes only the response and the cause, for a write is legal in every mode, and the body is its
bus traffic, which stores in its register at most. -/
theorem registerWriteFrame : Obligations.RegisterWriteFrame := by
  intro s u a n v h
  obtain ⟨-, w, hd, hw⟩ := exec_cases h
  obtain ⟨k, rfl⟩ := deliver_eq hd
  obtain ⟨hn, -⟩ | ⟨-, -, rfl⟩ | ⟨-, -, r, -, rfl⟩ | ⟨-, -, -, hl, -⟩ | ⟨-, -, -, -, -, -, -, rfl⟩ := hw
  · cases hn
  · exact ⟨rfl, rfl, rfl, rfl, rfl, rfl, rfl, rfl, rfl, rfl, fun _ _ => rfl⟩
  · exact ⟨rfl, rfl, rfl, rfl, rfl, rfl, rfl, rfl, rfl, rfl, fun _ _ => rfl⟩
  · cases hl
  · obtain ⟨es, hr, -, -, -, hcalls⟩ := writeBody_ran a n v s
    have hq := hr.quiet
    have hnow : (writeBody a n v s).1.now = s.now := by rw [hr.now, delaysIn_calls hcalls, Nat.add_zero]
    simp only [execBody, answer_cfg, answer_alive, answer_mode, answer_fault, answer_now, answer_pending, answer_peer,
      answer_failAt, answer_failValue, answer_failApplies, answer_dev]
    exact ⟨hq.cfg, hq.alive, hq.mode, hq.fault, hnow, hq.pending, hq.peer, hq.failAt, hq.failValue, hq.failApplies,
      fun k hk => writeBody_dev a n v s hk⟩

/-! Register transactions on the mock. -/

/-- The bytes of a well-formed write give its value back. -/
theorem wreg_wellFormed {a : Addr} {n : Nat} {v : BitVec 32} (h : (Instr.wreg a n v).wellFormed = true) :
    validWidth n = true ∧ beValue (beBytes n v) = v := by
  simp only [Instr.wellFormed, Bool.and_eq_true, decide_eq_true_eq] at h
  obtain ⟨hn, hv⟩ := h
  exact ⟨hn, beValue_beBytes (validWidth_iff.mp hn).2 v hv⟩

/-- Settles O51: the mock answers the write and stores the frame's value. -/
theorem mockStoresRegisterWrite : Obligations.MockStoresRegisterWrite := by
  intro s a n v hs hm hw
  obtain ⟨hn, hv⟩ := wreg_wellFormed hw
  refine ⟨_, hs.exec_wreg a n v, ?_⟩
  rw [writeBody, hm.regWrite a hn, hv, frameWr_eq]
  exact ⟨Memory.readReg_writeReg_self _ _ _, fun k hk => readByte_writeReg_outside _ _ _ hk, rfl⟩

/-- A write frame on the mock that fails this call: stored all the same if and only if `fail_applies` (R59). -/
theorem regWrite_mockFails {s : State} (hp : s.peer = .mock) (hf : s.failAt = some s.calls) (a : Addr) {n : Nat}
    (hn : validWidth n = true) (v : BitVec 32) :
    regWrite a n v s = ({ s with
      dev := if s.failApplies = true then s.dev.writeReg a (beValue (beBytes n v)) else s.dev,
      log := s.log ++ [.w (frameWr a n v) (.err s.failValue)], calls := s.calls + 1,
      op := Transient.issue s.op (frameWr a n v) }, .err s.failValue) := by
  have hfails : mockFails s = true := by simp [mockFails, hf]
  rw [regWrite, if_neg (by simp [hn]), tWrite, ← mockStore_frameWr s.dev a hn v]
  cases ha : s.failApplies <;> simp [callResult, issue, envAfter, hp, hfails, ha, Call.bytes]

/-- Settles O52: the failing call is reported with the injected value, and its frame is stored only as R59 says. -/
theorem mockInjectedWriteFailure : Obligations.MockInjectedWriteFailure := by
  intro s a n v hs hp hf hw
  obtain ⟨hn, hv⟩ := wreg_wellFormed hw
  refine ⟨_, hs.exec_wreg a n v, ?_⟩
  rw [writeBody, regWrite_mockFails hp hf a hn, hv, frameWr_eq]
  refine ⟨?_, fun k hk => ?_, rfl⟩
  · show Memory.readReg (if s.failApplies = true then s.dev.writeReg a v else s.dev) a = _
    split
    · exact Memory.readReg_writeReg_self _ _ _
    · rfl
  · show Memory.readByte (if s.failApplies = true then s.dev.writeReg a v else s.dev) k = _
    split
    · exact readByte_writeReg_outside _ _ _ hk
    · rfl

/-- Settles O53: the mock answers a read frame with the echo and the register's low bytes. -/
theorem mockAnswersRegisterRead : Obligations.MockAnswersRegisterRead := by
  intro s a n hs hm h1 h4
  refine ⟨frameRd a n, ?_⟩
  rw [hs.exec_rreg, readBody, hm.regRead a (validWidth_iff.mpr ⟨h1, h4⟩)]
  rfl

/-! Transitions on the mock (R163). -/

/-- A read-modify-write on the mock puts the function's value in the register's low byte and leaves every other register
alone. -/
theorem MockReady.regUpdate_lowByte {s : State} (h : MockReady s) (a : Addr) (f : Byte → Byte) :
    ∃ t, Machine.regUpdate a f s = (t, .ok ()) ∧ BusOnly s t ∧
      (t.dev.readReg a).setWidth 8 = f ((s.dev.readReg a).setWidth 8) ∧
      ∀ c, c ≠ a → t.dev.readReg c = s.dev.readReg c := by
  obtain ⟨t, ht, hq, -, -, hsame, hchanged⟩ := h.regUpdate a f
  refine ⟨t, ht, hq, ?_⟩
  by_cases hf : f ((s.dev.readReg a).setWidth 8) = (s.dev.readReg a).setWidth 8
  · obtain ⟨hdev, -⟩ := hsame hf
    exact ⟨by rw [hdev, hf], fun _ _ => by rw [hdev]⟩
  · rw [hchanged hf]
    exact ⟨by simp, fun c hc => Memory.readReg_writeReg_other _ _ hc⟩

theorem MockReady.transitionBody {s : State} (h : MockReady s) (a : Addr) (f : Byte → Byte) (c : Byte) (m : Mode) :
    ∃ t, Machine.transitionBody a f c m s = (t, .ok .empty) ∧ t.responses = s.responses ∧
      (t.dev.readReg a).setWidth 8 = f ((s.dev.readReg a).setWidth 8) ∧
      ∀ c, c ≠ a → t.dev.readReg c = s.dev.readReg c := by
  obtain ⟨t, ht, hq, hlow, hother⟩ := h.regUpdate_lowByte a f
  have hm : MockReady t := ⟨hq.peer.trans h.1, hq.failAt.trans h.2⟩
  rw [Machine.transitionBody, ht, tryDo_of_ok rfl, hm.cmdSend]
  exact ⟨_, rfl, hq.responses, hlow, hother⟩

theorem withPower_getLsbD_other (cfg : Cfg) (v : Ctrl) (m : Mode) {j : Nat} (hj : j < 8) (h1 : j ≠ cfg.c1Pd1.val)
    (h0 : j ≠ cfg.c1Pd0.val) : (withPower cfg v m).getLsbD j = v.getLsbD j := by
  cases m <;> simp only [withPower, Flags.getLsbD_set _ _ _ hj, Flags.getLsbD_clear _ _ _ hj, h1, h0, decide_false,
    Bool.not_false, Bool.true_and, Bool.false_or]

theorem withContinuous_getLsbD_other (cfg : Cfg) (v : Ctrl) (cont : Bool) {j : Nat} (hj : j < 8)
    (h : j ≠ cfg.c1Scycle.val) : (withContinuous cfg v cont).getLsbD j = v.getLsbD j := by
  rw [withContinuous, Flags.getLsbD_assign _ _ _ _ hj, if_neg h]

/-- The function of `CTRL1` that a transition applies changes no bit but the power bits and, for `INTO_CONVERSION`, the
single-cycle bit. -/
theorem execBody_transition (cfg : Cfg) {i : Instr}
    (hi : i = .intoStandby ∨ i = .intoSleep ∨ ∃ r c, i = .intoConversion r c) :
    ∃ f c m, execBody cfg i = transitionBody cfg.aCtrl1 f c m ∧
      ∀ v j, j < 8 → j ≠ cfg.c1Pd1.val → j ≠ cfg.c1Pd0.val →
        (j ≠ cfg.c1Scycle.val ∨ i = .intoStandby ∨ i = .intoSleep) → (f v).getLsbD j = v.getLsbD j := by
  obtain rfl | rfl | ⟨rate, cont, rfl⟩ := hi
  · exact ⟨_, _, _, rfl, fun v j hj h1 h0 _ => withPower_getLsbD_other cfg v _ hj h1 h0⟩
  · exact ⟨_, _, _, rfl, fun v j hj h1 h0 _ => withPower_getLsbD_other cfg v _ hj h1 h0⟩
  · refine ⟨_, _, _, rfl, fun v j hj h1 h0 hs => ?_⟩
    have hsc : j ≠ cfg.c1Scycle.val := by simpa using hs
    rw [withContinuous_getLsbD_other cfg _ cont hj hsc, withPower_getLsbD_other cfg v _ hj h1 h0]

/-- Settles O54: a transition is one read-modify-write of `CTRL1`, whose function keeps the other bits, and then a
command, which stores nothing. -/
theorem mockTransitionKeepsOtherBits : Obligations.MockTransitionKeepsOtherBits := by
  intro s i hi hs hm hl
  have hnew : i ≠ .new := by rintro rfl; simp at hi
  obtain ⟨f, c, m, hbody, hbits⟩ := execBody_transition s.cfg hi
  obtain ⟨t, ht, hresp, hlow, hother⟩ := hm.transitionBody s.cfg.aCtrl1 f c m
  refine ⟨respond (.ok .empty) t, ?_, ?_, fun j hj h1 h0 hsc => ?_, hother⟩
  · rw [exec_served hs hnew hl, hbody, ht]
    rfl
  · rw [respond_responses, hresp]
  · have hbit : ∀ x : BitVec 32, x.getLsbD j = (x.setWidth 8).getLsbD j := fun x => by simp [hj]
    rw [respond_dev, hbit, hlow, hbits _ j hj h1 h0 hsc, ← hbit]

end Sys2Proof.Machine
end

section
/-! Encoding, part 1 (spec/30_encoding.md R72, R73, R75): the host request words. The decoder is read as the table of R73,
and each row's `ARG` decoder is inverse to the encoder. -/

namespace Sys2Proof.Machine

/-! The `ARG` decoders, each by the values it accepts. -/

theorem ite_ok_eq_ok_iff {p : Prop} [Decidable p] {e : DecodeError} {j i : Instr} :
    (if p then Except.ok j else .error e) = .ok i ↔ p ∧ i = j := by
  split_ifs with h
  · exact ⟨fun hi => ⟨h, (Except.ok.inj hi).symm⟩, fun ⟨_, hi⟩ => hi ▸ rfl⟩
  · exact ⟨nofun, fun ⟨h0, _⟩ => absurd h0 h⟩

theorem decodeNoArg_eq_ok_iff {arg : Byte} {j i : Instr} : decodeNoArg arg j = .ok i ↔ arg = 0 ∧ i = j :=
  ite_ok_eq_ok_iff

/-- The fields of an `INTO_CONVERSION` operand are the ones the decoder takes out (R73). -/
theorem conversionArg_fields : ∀ (cont : Bool) (r : BitVec 4),
    (0#3 ++ BitVec.ofBool cont ++ r).extractLsb' 5 3 = 0 ∧ (0#3 ++ BitVec.ofBool cont ++ r).extractLsb' 0 4 = r ∧
    (0#3 ++ BitVec.ofBool cont ++ r).getLsbD 4 = cont := by
  decide

theorem conversionArg_of_fields : ∀ arg : Byte, arg.extractLsb' 5 3 = 0 →
    0#3 ++ BitVec.ofBool (arg.getLsbD 4) ++ arg.extractLsb' 0 4 = arg := by
  decide

theorem decodeConversionArg_eq_ok_iff {arg : Byte} {i : Instr} :
    decodeConversionArg arg = .ok i ↔ ∃ rate cont, arg = conversionArg rate cont ∧ i = .intoConversion rate cont := by
  constructor
  · intro h
    rw [decodeConversionArg] at h
    split_ifs at h with h0
    cases h
    exact ⟨_, _, by rw [conversionArg, code_rateOfCode, conversionArg_of_fields arg h0], rfl⟩
  · rintro ⟨rate, cont, rfl, rfl⟩
    obtain ⟨h0, hr, hc⟩ := conversionArg_fields cont rate.code
    rw [decodeConversionArg, conversionArg, if_pos h0, hr, hc, rateOfCode_code]

theorem decodeClockArg_eq_ok_iff {arg : Byte} {i : Instr} :
    decodeClockArg arg = .ok i ↔ ∃ src, arg = clockArg src ∧ i = .setClock src := by
  constructor
  · intro h
    rw [decodeClockArg] at h
    split_ifs at h with h0 h1 <;> cases h
    · exact ⟨.internalClock, h0, rfl⟩
    · exact ⟨.externalClock, h1, rfl⟩
  · rintro ⟨_ | _, rfl, rfl⟩ <;> rfl

theorem decodeFormatArg_eq_ok_iff {arg : Byte} {i : Instr} :
    decodeFormatArg arg = .ok i ↔ ∃ fmt, arg = formatArg fmt ∧ i = .setFormat fmt := by
  constructor
  · intro h
    rw [decodeFormatArg] at h
    split_ifs at h with h0 h1 <;> cases h
    · exact ⟨.twosComplement, h0, rfl⟩
    · exact ⟨.offsetBinary, h1, rfl⟩
  · rintro ⟨_ | _, rfl, rfl⟩ <;> rfl

/-- With a gain given, the operand is the code below a one (R73). -/
theorem gainArg_fields : ∀ c : BitVec 3, 0#4 ++ 1#1 ++ c ≠ (0 : Byte) ∧ (0#4 ++ 1#1 ++ c).extractLsb' 3 5 = 1 ∧
    (0#4 ++ 1#1 ++ c).extractLsb' 0 3 = c := by
  decide

theorem gainArg_of_fields : ∀ arg : Byte, arg.extractLsb' 3 5 = 1 → 0#4 ++ 1#1 ++ arg.extractLsb' 0 3 = arg := by
  decide

theorem decodeGainArg_eq_ok_iff {arg : Byte} {i : Instr} :
    decodeGainArg arg = .ok i ↔ ∃ g, arg = gainArg g ∧ i = .setGain g := by
  constructor
  · intro h
    rw [decodeGainArg] at h
    split_ifs at h with h0 h1 <;> cases h
    · exact ⟨none, h0, rfl⟩
    · exact ⟨some _, by rw [gainArg, code_gainOfCode, gainArg_of_fields arg h1], rfl⟩
  · rintro ⟨_ | g, rfl, rfl⟩
    · rfl
    · obtain ⟨h0, h1, hc⟩ := gainArg_fields g.code
      rw [decodeGainArg, gainArg, if_neg h0, if_pos h1, hc, gainOfCode_code]

theorem decodeCalArg_eq_ok_iff {arg : Byte} {i : Instr} :
    decodeCalArg arg = .ok i ↔ ∃ kind, arg = calArg kind ∧ i = .calibrate kind := by
  constructor
  · intro h
    rw [decodeCalArg] at h
    split_ifs at h with h0 h1 h2 <;> cases h
    · exact ⟨.selfCal, h0, rfl⟩
    · exact ⟨.systemOffset, h1, rfl⟩
    · exact ⟨.systemFullScale, h2, rfl⟩
  · rintro ⟨_ | _ | _, rfl, rfl⟩ <;> rfl

/-! The table of R73. -/

/-- A row of R73: an `OP` code and the decoder of its `ARG`. -/
abbrev HostRow := Byte × (Byte → Except DecodeError Instr)

/-- The fifteen rows of R73. -/
def hostRows : List HostRow :=
  [(opNew, (decodeNoArg · .new)), (opRelease, (decodeNoArg · .release)),
   (opIntoStandby, (decodeNoArg · .intoStandby)), (opIntoSleep, (decodeNoArg · .intoSleep)),
   (opIntoConversion, decodeConversionArg), (opSetClock, decodeClockArg), (opSetFormat, decodeFormatArg),
   (opSetGain, decodeGainArg), (opCalibrate, decodeCalArg),
   (opReadSoc, (decodeNoArg · .readSoc)), (opReadSgc, (decodeNoArg · .readSgc)),
   (opReadScoc, (decodeNoArg · .readScoc)), (opReadScgc, (decodeNoArg · .readScgc)),
   (opReadData, (decodeNoArg · .readData)), (opReadStatus, (decodeNoArg · .readStatus))]

/-- Decoding by the first row with the operation code. -/
def decodeByRows : List HostRow → Byte → Byte → Except DecodeError Instr
  | [], _, _ => .error .unknownOp
  | (code, decodeArg) :: rest, op, arg => if op = code then decodeArg arg else decodeByRows rest op arg

/-- The model's decoder of request words goes by the rows of R73. -/
theorem decodeHost_eq_decodeByRows (w : BitVec 16) : decodeHost w = decodeByRows hostRows (hostOp w) (hostArg w) := rfl

theorem decode_hostWord (cfg : Cfg) (op arg : Byte) :
    decode cfg (.hreq (hostWord op arg)) = decodeByRows hostRows op arg := by
  rw [decode, decodeHost_eq_decodeByRows, hostOp_hostWord, hostArg_hostWord]

/-- Where no two rows share a code, a word decodes exactly as some row of its code says. -/
theorem decodeByRows_eq_ok_iff {rows : List HostRow} (h : (rows.map Prod.fst).Nodup) {op arg : Byte} {i : Instr} :
    decodeByRows rows op arg = .ok i ↔ ∃ row ∈ rows, op = row.1 ∧ row.2 arg = .ok i := by
  induction rows with
  | nil => simp [decodeByRows]
  | cons row rest ih =>
    obtain ⟨hrow, hrest⟩ := List.nodup_cons.mp h
    rw [decodeByRows, List.exists_mem_cons_iff]
    by_cases hop : op = row.1
    · have hother : ∀ r ∈ rest, op ≠ r.1 := fun r hr he => hrow (hop ▸ he ▸ List.mem_map_of_mem hr)
      rw [if_pos hop]
      exact ⟨fun h => .inl ⟨hop, h⟩, fun | .inl h => h.2 | .inr ⟨r, hr, he, _⟩ => absurd he (hother r hr)⟩
    · simp [hop, ih hrest]

theorem decodeHost_eq_ok_iff {w : BitVec 16} {i : Instr} :
    decodeHost w = .ok i ↔ ∃ row ∈ hostRows, hostOp w = row.1 ∧ row.2 (hostArg w) = .ok i :=
  decodeByRows_eq_ok_iff (rows := hostRows) (by decide)

/-! Which operands each row allows (R73, R75). -/

theorem isOk_iff {α : Type} {e : Except DecodeError α} : e.isOk = true ↔ ∃ a, e = .ok a := by
  cases e <;> simp [Except.isOk, Except.toBool]

theorem decodeNoArg_isOk (arg : Byte) (i : Instr) : (decodeNoArg arg i).isOk = true ↔ arg = 0 := by
  simp [isOk_iff, decodeNoArg_eq_ok_iff]

theorem decodeConversionArg_isOk : ∀ arg : Byte, (decodeConversionArg arg).isOk = true ↔ arg &&& 0xE0 = 0 := by
  decide

theorem decodeClockArg_isOk : ∀ arg : Byte, (decodeClockArg arg).isOk = true ↔ arg &&& 0xFE = 0 := by decide

theorem decodeFormatArg_isOk : ∀ arg : Byte, (decodeFormatArg arg).isOk = true ↔ arg &&& 0xFE = 0 := by decide

theorem decodeGainArg_isOk : ∀ arg : Byte, (decodeGainArg arg).isOk = true ↔
    arg &&& 0xF0 = 0 ∧ (arg &&& 0x08 = 0 → arg &&& 0x07 = 0) := by
  decide

theorem decodeCalArg_isOk : ∀ arg : Byte, (decodeCalArg arg).isOk = true ↔ arg &&& 0xFC = 0 ∧ arg ≠ 3 := by decide

theorem exists_decodeHost_iff (w : BitVec 16) : (∃ i, decodeHost w = .ok i) ↔
    ∃ row ∈ hostRows, hostOp w = row.1 ∧ (row.2 (hostArg w)).isOk = true := by
  simp only [decodeHost_eq_ok_iff, isOk_iff]
  exact ⟨fun ⟨i, row, hrow, hop, hi⟩ => ⟨row, hrow, hop, i, hi⟩,
    fun ⟨row, hrow, hop, i, hi⟩ => ⟨i, row, hrow, hop, hi⟩⟩

/-- Settles O4: a word is a host operation if and only if the row of its `OP` accepts its `ARG`. -/
theorem hostWordsAreTableRows : Obligations.HostWordsAreTableRows := by
  intro w
  rw [exists_decodeHost_iff]
  simp only [hostRows, List.exists_mem_cons_iff, decodeNoArg_isOk, decodeConversionArg_isOk, decodeClockArg_isOk,
    decodeFormatArg_isOk, decodeGainArg_isOk, decodeCalArg_isOk]
  simp only [List.mem_cons, List.not_mem_nil, or_false, false_and, exists_false, or_and_right, or_assoc, opNew,
    opRelease, opIntoStandby, opIntoSleep, opIntoConversion, opSetClock, opSetFormat, opSetGain, opCalibrate, opReadSoc,
    opReadSgc, opReadScoc, opReadScgc, opReadData, opReadStatus]
  rw [iff_iff_eq]
  ac_rfl

/-! Each row is inverse to the encoder. -/

theorem hostWord_hostOp_hostArg (w : BitVec 16) : hostWord (hostOp w) (hostArg w) = w := by
  apply BitVec.eq_of_getLsbD_eq
  intro i hi
  rw [hostWord, BitVec.getLsbD_append]
  by_cases h : i < 8
  · simp [h, hostArg]
  · have hsub : i - 8 < 8 := by omega
    have hadd : 8 + (i - 8) = i := by omega
    simp [h, hostOp, hsub, hadd]

/-- The instruction is well formed and this is its request. -/
def EncodesBack (cfg : Cfg) (i : Instr) (q : Request) : Prop := encode cfg i = q ∧ i.wellFormed = true

/-- Each row of R73 reads only operands that the encoder writes under the row's code. -/
theorem hostRows_encodesBack (cfg : Cfg) :
    ∀ row ∈ hostRows, ∀ arg i, row.2 arg = .ok i → EncodesBack cfg i (.hreq (hostWord row.1 arg)) := by
  simp only [hostRows, List.forall_mem_cons, decodeNoArg_eq_ok_iff, decodeConversionArg_eq_ok_iff,
    decodeClockArg_eq_ok_iff, decodeFormatArg_eq_ok_iff, decodeGainArg_eq_ok_iff, decodeCalArg_eq_ok_iff,
    List.not_mem_nil, false_imp_iff, implies_true, forall_exists_index, and_imp, and_true]
  and_intros
  all_goals
    intros
    subst_vars
    exact ⟨rfl, rfl⟩

/-- A word that decodes is the word of its instruction (R72, R73). -/
theorem decodeHost_encodesBack (cfg : Cfg) {w : BitVec 16} {i : Instr} (h : decodeHost w = .ok i) :
    EncodesBack cfg i (.hreq w) := by
  obtain ⟨row, hrow, hop, hi⟩ := decodeHost_eq_ok_iff.mp h
  have hback := hostRows_encodesBack cfg row hrow _ _ hi
  rwa [← hop, hostWord_hostOp_hostArg] at hback

end Sys2Proof.Machine
end

section
/-! Encoding, part 2 (spec/30_encoding.md R63 to R65, R76, R77): the bus frames, and the two round trips. -/

namespace Sys2Proof.Machine

/-! The bytes after the command byte. -/

theorem decodeCommandOnly_eq_ok_iff {tail : List Byte} {j i : Instr} :
    decodeCommandOnly tail j = .ok i ↔ tail = [] ∧ i = j :=
  ite_ok_eq_ok_iff

/-- A command-only frame that decodes is the command byte alone (R63). -/
theorem decodeCommandOnly_encodesBack {cfg : Cfg} {c : Byte} {tail : List Byte} {j i : Instr}
    (hj : EncodesBack cfg j (.frame [c])) (h : decodeCommandOnly tail j = .ok i) :
    EncodesBack cfg i (.frame (c :: tail)) := by
  obtain ⟨rfl, rfl⟩ := decodeCommandOnly_eq_ok_iff.mp h
  exact hj

theorem decodeReadTail_ok {a : Addr} {tail : List Byte} {i : Instr} (h : decodeReadTail a tail = .ok i) :
    ∃ n, validWidth n = true ∧ tail = List.replicate n 0 ∧ i = .rreg a n := by
  rw [decodeReadTail] at h
  split_ifs at h with hw ht
  cases h
  exact ⟨tail.length, by simpa using hw, ht, rfl⟩

theorem decodeWriteTail_ok {a : Addr} {tail : List Byte} {i : Instr} (h : decodeWriteTail a tail = .ok i) :
    ∃ n v, (Instr.wreg a n v).wellFormed = true ∧ tail = beBytes n v ∧ i = .wreg a n v := by
  rw [decodeWriteTail] at h
  split_ifs at h with hw
  cases h
  have hn : validWidth tail.length = true := by simpa using hw
  have hlen : tail.length ≤ 4 := (validWidth_iff.mp hn).2
  refine ⟨tail.length, beValue tail, ?_, (beBytes_beValue tail hlen).symm, rfl⟩
  simp only [Instr.wellFormed, hn, beValue_lt tail hlen, decide_true, Bool.and_true]

/-- A frame that decodes is the frame of its instruction (R63 to R65, R77): its first byte is the one of its class, and
the rest is what the class asks for. -/
theorem decodeFrame_encodesBack {cfg : Cfg} {bs : List Byte} {i : Instr} (h : decodeFrame cfg bs = .ok i) :
    EncodesBack cfg i (.frame bs) := by
  cases bs with
  | nil => cases h
  | cons c tail =>
    rw [decodeFrame] at h
    split at h
    · cases h
    next a hc =>
      obtain ⟨n, hn, rfl, rfl⟩ := decodeReadTail_ok h
      rw [eq_of_classify_regAccess hc]
      exact ⟨congrArg _ (frameRd_eq a n), hn⟩
    next a hc =>
      obtain ⟨n, v, hw, rfl, rfl⟩ := decodeWriteTail_ok h
      rw [eq_of_classify_regAccess hc]
      exact ⟨congrArg _ (frameWr_eq a n v), hw⟩
    next hc =>
      rw [eq_of_classify_powerDown hc]
      exact decodeCommandOnly_encodesBack ⟨rfl, rfl⟩ h
    next hc =>
      rw [eq_of_classify_calibrate hc]
      exact decodeCommandOnly_encodesBack ⟨rfl, rfl⟩ h
    next r hc =>
      rw [eq_of_classify_convert hc]
      exact decodeCommandOnly_encodesBack ⟨rfl, rfl⟩ h
    · cases h

/-- Settles O2: a word by the row that read it, a frame by the class of its command byte. -/
theorem encodeOfDecodeIsRequest : Obligations.EncodeOfDecodeIsRequest := by
  intro cfg q i _ h
  cases q with
  | hreq w => exact decodeHost_encodesBack cfg h
  | frame bs => exact decodeFrame_encodesBack h
  | evalState v => cases h

/-- The command-only frames decode (R63, R91 to R93). -/
theorem decodeFrame_frameCmd {cfg : Cfg} (h : cfg.wf = true) :
    decodeFrame cfg (frameCmd (cmdPwrdn cfg)) = .ok .pwrdn ∧ decodeFrame cfg (frameCmd (cmdCal cfg)) = .ok .cal ∧
    ∀ r, decodeFrame cfg (frameCmd (cmdConv r)) = .ok (.conv r) := by
  simp [frameCmd, decodeFrame, decodeCommandOnly, classify_cmdPwrdn h, classify_cmdCal h, classify_cmdConv h]

/-- Settles O1: the classifier finds the command byte's class and the frame's tail its operands; a word is read by the
row of its `OP`, which reads back the operand written. -/
theorem decodeOfEncodeIsInstruction : Obligations.DecodeOfEncodeIsInstruction := by
  intro cfg i hcfg hi
  obtain ⟨hpd, hcal, hconv⟩ := decodeFrame_frameCmd hcfg
  cases i with
  | conv r => exact hconv r
  | pwrdn => exact hpd
  | cal => exact hcal
  | wreg a n v =>
    obtain ⟨hn, hv⟩ := wreg_wellFormed hi
    exact (decodeFrame_frameWr cfg a hn v).trans (by rw [hv])
  | rreg a n => exact decodeFrame_frameRd cfg a hi
  | intoConversion rate cont =>
    rw [encode, decode_hostWord]
    exact decodeConversionArg_eq_ok_iff.mpr ⟨rate, cont, rfl, rfl⟩
  | setClock src => rw [encode, decode_hostWord]; exact decodeClockArg_eq_ok_iff.mpr ⟨src, rfl, rfl⟩
  | setFormat fmt => rw [encode, decode_hostWord]; exact decodeFormatArg_eq_ok_iff.mpr ⟨fmt, rfl, rfl⟩
  | setGain g => rw [encode, decode_hostWord]; exact decodeGainArg_eq_ok_iff.mpr ⟨g, rfl, rfl⟩
  | calibrate kind => rw [encode, decode_hostWord]; exact decodeCalArg_eq_ok_iff.mpr ⟨kind, rfl, rfl⟩
  | new | release | intoStandby | intoSleep | readSoc | readSgc | readScoc | readScgc | readData | readStatus =>
    rw [encode, decode_hostWord]
    rfl

/-! The command bytes (R91 to R97). -/

theorem cmdConv_eq_append : ∀ r : BitVec 4, cmdConv r = 8#4 ++ r := by decide

/-- The encoder takes the low five bits of an address, and its bytes are those of the frame tables (R68, R94, R95). -/
theorem cmdReg_eq_frameByte : ∀ a : Byte,
    cmdWreg a = wrByte (a.extractLsb' 0 5) ∧ cmdRreg a = rdByte (a.extractLsb' 0 5) := by
  decide

/-- Settles O5: the bytes are the bit patterns of R91 to R95, and the classifier reads each pattern back. -/
theorem classifyInvertsEncoder : Obligations.ClassifyInvertsEncoder := by
  intro cfg hcfg
  refine ⟨cmdConv_eq_append, rfl, rfl, cmdReg_eq_frameByte, classify_cmdConv hcfg, classify_cmdPwrdn hcfg,
    classify_cmdCal hcfg, fun a => ?_, fun a => ?_⟩
  · rw [(cmdReg_eq_frameByte a).1, classify_wrByte]
  · rw [(cmdReg_eq_frameByte a).2, classify_rdByte]

/-- Settles O3, by evaluating the decoder on the seven requests. -/
theorem writtenOutWordsDecode : Obligations.WrittenOutWordsDecode := by
  unfold Obligations.WrittenOutWordsDecode
  decide

end Sys2Proof.Machine
end

section
/-! Encoding, part 3 (spec/30_encoding.md R75, spec/43_bus_transactions.md R139): a reserved request, and the commands
sent alone. -/

namespace Sys2Proof.Machine

theorem whenServing_of_live (op : Byte) (k : State → State) {s : State} (ha : s.alive = true) (hf : s.fault = none) :
    whenServing op k s = k s := by
  simp [whenServing, ha, hf]

/-- Settles O19: a reserved request passes the liveness and fault checks and is refused there. -/
theorem reservedRequestIsRefused : Obligations.ReservedRequestIsRefused := by
  intro s q rest e hs hp hq hd
  obtain ⟨hw, hh, ha, hf⟩ := hs
  rw [step_cons hp, runRequest_error (s := { s with pending := rest }) hq.not_asksNew hd,
    accept_eq (s := { s with pending := rest }) hw hh, hq.runOther_eq, answerReserved,
    whenServing_of_live (s := { s with pending := rest }) _ _ ha hf]
  rfl

/-- A command answered `Ok` is one frame, and then an empty `Ok` (R139). -/
theorem Answers.answer_commandBody {s : State} {w : Received} {rest : List (Answer Received)}
    (h : Answers s (.ok w :: rest)) (c : Byte) :
    answer (commandBody c s) = { s with
      script := rest, calls := s.calls + 1, log := s.log ++ [.w [c] (.ok ())],
      responses := s.responses ++ [.ok .empty], op := Transient.idle } := by
  rw [commandBody, cmdSend, h.tWrite_ok]
  rfl

/-- The three commands are legal in every mode and their body sends one byte (R91 to R93). -/
theorem Serving.exec_command {s : State} {i : Instr} {c : Byte} (hs : Serving s)
    (hi : (i, c) ∈ [(.pwrdn, s.cfg.cmdPd), (.cal, s.cfg.cmdCal)] ∨ ∃ r : BitVec 4, i = .conv r ∧ c = 8#4 ++ r) :
    exec i s = .next (answer (commandBody c s)) := by
  simp only [List.mem_cons, Prod.mk.injEq, List.not_mem_nil, or_false] at hi
  obtain (⟨rfl, rfl⟩ | ⟨rfl, rfl⟩) | ⟨r, rfl, rfl⟩ := hi
  · exact exec_served hs nofun rfl
  · exact exec_served hs nofun rfl
  · rw [← cmdConv_eq_append]
    exact exec_served hs nofun rfl

/-- Settles O33: the command's body is sent as it is, and the transport's answer is its response. -/
theorem commandIsSentAlone : Obligations.CommandIsSentAlone := by
  intro s i c w rest hi hs h
  rw [hs.exec_command hi, h.answer_commandBody]

end Sys2Proof.Machine
end

section
/-! The 24-bit value (spec/40_value24.md R80 to R86): its three bytes are a register value in wire order, so both
round trips are those of `beBytes` and `beValue`; its number is read in base 256. -/

namespace Sys2Proof

/-! The two widenings (R82, R83). -/

/-- A byte appended on the right is one more digit in base 256. -/
theorem toNat_append_byte {w : Nat} (x : BitVec w) (b : Byte) : (x ++ b).toNat = x.toNat * 256 + b.toNat := by
  rw [BitVec.toNat_append, ← Nat.shiftLeft_add_eq_or_of_lt b.isLt, Nat.shiftLeft_eq]

theorem Value24.toNat_toU32_eq_n24 (v : Value24) : v.toU32.toNat = v.n24.toNat :=
  BitVec.toNat_setWidth_of_le (by decide)

theorem Value24.toNat_toU32 (v : Value24) : v.toU32.toNat = v.b0.toNat * 65536 + v.b1.toNat * 256 + v.b2.toNat := by
  rw [toNat_toU32_eq_n24, n24, toNat_append_byte, toNat_append_byte]
  omega

/-- Bit 23 is the sign: it is set from 2^23 on, where the signed reading is 2^24 less. -/
theorem Value24.toInt_toI32 (v : Value24) :
    v.toI32.toInt =
      if v.toU32.toNat < 8388608 then (v.toU32.toNat : Int) else (v.toU32.toNat : Int) - 16777216 := by
  have hsign : 2 * v.n24.toNat < 2 ^ 24 ↔ v.n24.toNat < 8388608 := by omega
  rw [toI32, BitVec.toInt_signExtend_of_le (by decide), BitVec.toInt_eq_toNat_cond, toNat_toU32_eq_n24]
  simp only [hsign]
  rfl

/-- Settles O9: the bytes are the digits of the number in base 256, and the sign extension reads bit 23. -/
theorem value24Widening : Obligations.Value24Widening := by
  intro b0 b1 b2
  exact ⟨BitVec.setWidth_append_append_eq_shiftLeft_setWidth_or, Value24.toNat_toU32 _, Value24.toInt_toI32 _⟩

/-! The round trips (R86 (a), (c)). -/

/-- The unsigned reading is the value of the three bytes on the wire (R82, R84). -/
theorem Value24.toU32_eq_beValue_toBe (v : Value24) : v.toU32 = beValue v.toBe :=
  (beValue_three v.b0 v.b1 v.b2).symm

/-- `V24.FROM_U32` keeps the three low bytes, most significant first (R85). -/
theorem Value24.toBe_fromU32 (w : BitVec 32) : (fromU32 w).toBe = beBytes 3 w := by
  simp [toBe, fromU32, beBytes_succ]

theorem Value24.toBe_injective : Function.Injective toBe := by
  rintro ⟨a, b, c⟩ ⟨a', b', c'⟩ h
  simpa [toBe] using h

theorem Value24.fromU32_toU32 (v : Value24) : fromU32 v.toU32 = v := by
  apply toBe_injective
  rw [toBe_fromU32, toU32_eq_beValue_toBe]
  exact beBytes_beValue v.toBe (by simp [toBe])

theorem Value24.toU32_fromU32 (w : BitVec 32) : (fromU32 w).toU32 = w &&& 0x00FFFFFF := by
  have hmask : (0x00FFFFFF : BitVec 32) = (1#32 <<< 24) - 1 := by decide
  rw [toU32_eq_beValue_toBe, toBe_fromU32, hmask]
  apply BitVec.eq_of_getLsbD_eq
  intro i hi
  rw [getLsbD_beValue_beBytes (by decide) w i hi, BitVec.getLsbD_and, Flags.getLsbD_ones]
  simp [hi, Bool.and_comm]

/-- Settles O10: the three bytes are those of a 3-byte value on the wire, which come back; the fourth is dropped. -/
theorem value24RoundTrips : Obligations.Value24RoundTrips :=
  ⟨fun _ _ _ => rfl, Value24.fromU32_toU32, Value24.toU32_fromU32⟩

end Sys2Proof
end

section
/-! The command encoder, part 1 (spec/41_command_encoder.md R94 to R98): the bits of the five command bytes, and the rate
table they share with the status word. -/

namespace Sys2Proof

/-! Register command bytes (R94 to R96). -/

/-- The bytes of a register command as the access bytes that the classifier takes apart (R77). -/
theorem cmdReg_eq_accessByte (a : Byte) : cmdWreg a = 3#2 ++ a.extractLsb' 0 5 ++ BitVec.ofBool false ∧
    cmdRreg a = 3#2 ++ a.extractLsb' 0 5 ++ BitVec.ofBool true :=
  Machine.cmdReg_eq_frameByte a

theorem cmdWreg_bits (a : Byte) : (cmdWreg a).getLsbD 7 = true ∧ (cmdWreg a).getLsbD 6 = true := by
  obtain ⟨h7, h6, -⟩ := accessByte_fields (a.extractLsb' 0 5) false
  rw [(cmdReg_eq_accessByte a).1]
  exact ⟨h7, h6⟩

theorem cmdRreg_bits (a : Byte) : (cmdRreg a).getLsbD 7 = true ∧ (cmdRreg a).getLsbD 6 = true := by
  obtain ⟨h7, h6, -⟩ := accessByte_fields (a.extractLsb' 0 5) true
  rw [(cmdReg_eq_accessByte a).2]
  exact ⟨h7, h6⟩

/-- The mask of the address width keeps the address bits (R68). -/
theorem extract_addr_and_mask (a : Byte) : (a &&& 0x1F).extractLsb' 0 5 = a.extractLsb' 0 5 := by
  have hmask : (0x1F : Byte).extractLsb' 0 5 = BitVec.allOnes 5 := by decide
  rw [BitVec.extractLsb'_and, hmask, BitVec.and_allOnes]

/-- Settles O6: the constants by R8, the conversion byte by its pattern, the register commands as access bytes. -/
theorem commandByteStartAndModeBits : Obligations.CommandByteStartAndModeBits := by
  intro cfg hcfg r a
  obtain ⟨hpd, hcal, -⟩ := constantBytes_of_wf hcfg
  obtain ⟨conv7, conv6, -⟩ := cmdConv_fields r
  obtain ⟨wr7, wr6⟩ := cmdWreg_bits a
  obtain ⟨rd7, rd6⟩ := cmdRreg_bits a
  exact ⟨conv7, hpd.start, hcal.start, wr7, rd7, wr6, rd6, conv6, hpd.noRegister, hcal.noRegister⟩

/-- Settles O7: the byte of a write command depends on the address through its low five bits alone, and the read
command is built from it. -/
theorem overWideAddressTruncates : Obligations.OverWideAddressTruncates := by
  intro a
  refine ⟨?_, rfl, (cmdReg_eq_accessByte a).1⟩
  rw [(cmdReg_eq_accessByte (a &&& 0x1F)).1, (cmdReg_eq_accessByte a).1, extract_addr_and_mask]

/-! The rate table (R98). -/

theorem statRate_eq (cfg : Cfg) (s : StatusView) : statRate cfg s = rateOfCode (s.extractLsb' cfg.stRateLsb 4) := by
  rw [statRate, Flags.get_eq_extract]

theorem rateOfCode_cmdConv (r : Rate) : rateOfCode ((cmdConv r.code).extractLsb' 0 4) = r := by
  obtain ⟨-, -, -, hr, -⟩ := cmdConv_fields r.code
  rw [hr, rateOfCode_code]

/-- Settles O16: the command carries the code and the status field is read through the same table, which inverts it. -/
theorem rateCodeIsShared : Obligations.RateCodeIsShared := by
  intro cfg r s
  refine ⟨rateOfCode_cmdConv r, statRate_eq cfg s, fun hfield => ?_⟩
  rw [statRate_eq, hfield, rateOfCode_code]

end Sys2Proof
end

section
/-! The command encoder, part 2 (spec/41_command_encoder.md R91, spec/44_mode_machine.md R148 to R150): what a transition
answers when the oracle lets all its calls succeed, by whether the read-modify-write of `CTRL1` writes. -/

namespace Sys2Proof.Machine

/-- Once the update has succeeded, a transition is the command, and then the tag and an empty `Ok` (R164). -/
theorem Answers.answer_transitionBody {s t : State} {w : Received} {rest : List (Answer Received)} {a : Addr}
    {f : Byte → Byte} (hu : regUpdate a f s = (t, .ok ())) (h : Answers t (.ok w :: rest)) (c : Byte) (m : Mode) :
    answer (transitionBody a f c m s) = { t with
      mode := m, script := rest, calls := t.calls + 1, log := t.log ++ [.w [c] (.ok ())],
      responses := t.responses ++ [.ok .empty], op := Transient.idle } := by
  rw [transitionBody, hu, tryDo_of_ok rfl, cmdSend, h.tWrite_ok]
  rfl

/-- A transition whose update writes makes three calls (R142, R165). -/
theorem Answers.answer_transitionBody_changed {s : State} {rx w1 w2 : Received} {rest : List (Answer Received)}
    (h : Answers s (.ok rx :: .ok w1 :: .ok w2 :: rest)) (a : Addr) {f : Byte → Byte} (hf : f rx.r1 ≠ rx.r1)
    (c : Byte) (m : Mode) :
    answer (transitionBody a f c m s) = { s with
      mode := m, script := rest, calls := s.calls + 3,
      log := s.log ++ [.x [rdByte a, 0] (.ok [rx.r0, rx.r1]), .w [wrByte a, f rx.r1] (.ok ()), .w [c] (.ok ())],
      responses := s.responses ++ [.ok .empty], op := Transient.idle } := by
  rw [Answers.answer_transitionBody (h.regUpdate_changed a hf) ⟨h.1, rfl⟩, frameRd_eq, frameWr_byte]
  simp [receivedBytes]

/-- A transition whose update finds the bits as they should be makes two calls (R142, R165). -/
theorem Answers.answer_transitionBody_same {s : State} {rx w2 : Received} {rest : List (Answer Received)}
    (h : Answers s (.ok rx :: .ok w2 :: rest)) (a : Addr) {f : Byte → Byte} (hf : f rx.r1 = rx.r1)
    (c : Byte) (m : Mode) :
    answer (transitionBody a f c m s) = { s with
      mode := m, script := rest, calls := s.calls + 2,
      log := s.log ++ [.x [rdByte a, 0] (.ok [rx.r0, rx.r1]), .w [c] (.ok ())],
      responses := s.responses ++ [.ok .empty], op := Transient.idle } := by
  rw [Answers.answer_transitionBody (h.regUpdate_same a hf) ⟨h.1, rfl⟩, frameRd_eq]
  simp [receivedBytes]

/-- Outside `Conversion`, `INTO_CONVERSION` is the transition with the conversion byte of the rate's code (R91,
R150). -/
theorem Serving.exec_intoConversion {s : State} (h : Serving s) (hm : s.mode ≠ .conversion) (rate : Rate)
    (cont : Bool) :
    exec (.intoConversion rate cont) s = .next (answer (transitionBody s.cfg.aCtrl1
      (fun v => withContinuous s.cfg (withPower s.cfg v .conversion) cont) (8#4 ++ rate.code) .conversion s)) := by
  rw [← cmdConv_eq_append]
  exact exec_served h nofun (bne_iff_ne.mpr hm)

/-- Settles O37: the transition answers by whether the power bits and the single-cycle bit change `CTRL1`. -/
theorem intoConversionResult : Obligations.IntoConversionResult := by
  intro s rate cont rx w1 w2 rest hs hm
  rw [hs.exec_intoConversion hm]
  constructor
  · intro hchanged h
    rw [h.answer_transitionBody_changed _ hchanged]
  · intro hsame h
    rw [h.answer_transitionBody_same _ hsame]

end Sys2Proof.Machine
end

section
/-! Register codecs, part 1 (spec/42_register_codecs.md R103 to R130): every setting function drives bits of its
register or writes one of its fields, so that its bits and its accessor follow from those of `assign` and `put`. -/

namespace Sys2Proof

/-! The setting functions as drives of single bits. -/

theorem Flags.has_assign {n : Nat} (v : BitVec n) {i : Nat} (hi : i < n) (b : Bool) :
    Flags.has (Flags.assign v i b) i = b := by
  rw [has_eq_getLsbD, getLsbD_assign _ _ _ _ hi, if_pos rfl]

theorem Flags.has_assign_of_ne {n : Nat} (v : BitVec n) {i j : Nat} (hj : j < n) (h : j ≠ i) (b : Bool) :
    Flags.has (Flags.assign v i b) j = Flags.has v j := by
  rw [has_eq_getLsbD, getLsbD_assign _ _ _ _ hj, if_neg h, has_eq_getLsbD]

/-- A field leaves the bits outside it (R103). -/
theorem Flags.has_put_of_outside {n k : Nat} (v : BitVec n) {lsb j : Nat} (hj : j < n)
    (h : ¬(lsb ≤ j ∧ j < lsb + k)) (x : BitVec k) : Flags.has (Flags.put v lsb x) j = Flags.has v j := by
  rw [has_eq_getLsbD, getLsbD_put _ _ _ _ hj, if_neg h, has_eq_getLsbD]

/-- Each mode drives `PD0` for `Sleep` and `PD1` for `Standby` (R107). -/
theorem withPower_eq_assign (cfg : Cfg) (v : Ctrl) (m : Mode) : withPower cfg v m =
    Flags.assign (Flags.assign v cfg.c1Pd0 (decide (m = .sleep))) cfg.c1Pd1 (decide (m = .standby)) := by
  cases m <;> rfl

/-- A gain drives the enable bit and writes the gain field (R113). -/
theorem withGain_some_eq (cfg : Cfg) (v : Ctrl) (g : Gain) :
    withGain cfg v (some g) = Flags.put (Flags.assign v cfg.c2Pgaen true) cfg.c2PgagLsb g.code := rfl

/-- Without a gain the enable bit is driven, and the field is left (R113). -/
theorem withGain_none_eq (cfg : Cfg) (v : Ctrl) : withGain cfg v none = Flags.assign v cfg.c2Pgaen false := rfl

/-! The polarities (R29). -/

/-- The bit of a two-valued setting: the polarity for the one value, its complement for the other. -/
theorem ite_not_eq_beq (b polarity : Bool) : (if b then polarity else !polarity) = (b == polarity) := by
  cases b <;> simp

theorem ClockSource.bit_eq (cfg : Cfg) (src : ClockSource) :
    src.bit cfg = (decide (src = .externalClock) == cfg.extckExternal) := by
  cases src <;> simp [bit]

theorem DataFormat.bit_eq (cfg : Cfg) (fmt : DataFormat) :
    fmt.bit cfg = (decide (fmt = .offsetBinary) == cfg.formatOffsetBinary) := by
  cases fmt <;> simp [bit]

/-! What R8 asks of the layouts. -/

theorem powerBits_ne_of_wf {cfg : Cfg} (h : cfg.wf = true) : cfg.c1Pd0.val ≠ cfg.c1Pd1.val := by
  simp only [Cfg.wf, Cfg.ctrl1Wf, Bool.and_eq_true, decide_eq_true_eq, List.nodup_cons, List.mem_cons, not_or] at h
  omega

/-- The enable bit lies outside the gain field. -/
theorem pgaen_outside_of_wf {cfg : Cfg} (h : cfg.wf = true) :
    ¬(cfg.c2PgagLsb.val ≤ cfg.c2Pgaen.val ∧ cfg.c2Pgaen.val < cfg.c2PgagLsb.val + 3) := by
  simp only [Cfg.wf, Cfg.ctrl2Wf, Bool.and_eq_true, Bool.or_eq_true, decide_eq_true_eq] at h
  omega

theorem calCodes_nodup_of_wf {cfg : Cfg} (h : cfg.wf = true) :
    [cfg.calSelf, cfg.calSysOffset, cfg.calSysFullScale].Nodup := by
  simp only [Cfg.wf, Cfg.calWf, Bool.and_eq_true, decide_eq_true_eq] at h
  obtain ⟨⟨-, hcal⟩, -⟩ := h
  exact hcal

/-! Bit by bit. -/

/-- Settles O11: the power bits are driven one after the other, `PD1` last. -/
theorem withPowerSetsPowerBits : Obligations.WithPowerSetsPowerBits := by
  intro cfg v m j _ hj
  rw [withPower_eq_assign, Flags.getLsbD_assign _ _ _ _ hj, Flags.getLsbD_assign _ _ _ _ hj]

/-- Settles O12: the functions that drive one bit do so by the polarity, and those that write a field write the code. -/
theorem settingFunctionsChangeOnlyTheirBits : Obligations.SettingFunctionsChangeOnlyTheirBits := by
  intro cfg v j hcfg hj
  refine ⟨fun cont => ?_, fun src => ?_, fun fmt => ?_, fun g => ?_, ?_, fun k => ?_⟩
  · rw [withContinuous, Flags.getLsbD_assign _ _ _ _ hj, ite_not_eq_beq]
  · rw [withClock, Flags.getLsbD_assign _ _ _ _ hj, ClockSource.bit_eq]
  · rw [withFormat, Flags.getLsbD_assign _ _ _ _ hj, DataFormat.bit_eq]
  · have hout := pgaen_outside_of_wf hcfg
    rw [withGain_some_eq, Flags.getLsbD_put _ _ _ _ hj, Flags.getLsbD_assign _ _ _ _ hj]
    by_cases h : j = cfg.c2Pgaen.val
    · rw [if_neg (h ▸ hout), if_pos h, if_pos h]
    · rw [if_neg h, if_neg h]
  · rw [withGain_none_eq, Flags.getLsbD_assign _ _ _ _ hj]
  · rw [withCal, Flags.getLsbD_put _ _ _ _ hj]

/-! Read back. -/

theorem ctrl1Clock_withClock (cfg : Cfg) (v : Ctrl) (src : ClockSource) :
    ctrl1Clock cfg (withClock cfg v src) = src := by
  rw [ctrl1Clock, withClock, Flags.has_assign v cfg.c1Extck.isLt]
  cases src <;> simp [ClockSource.bit]

theorem ctrl1Format_withFormat (cfg : Cfg) (v : Ctrl) (fmt : DataFormat) :
    ctrl1Format cfg (withFormat cfg v fmt) = fmt := by
  rw [ctrl1Format, withFormat, Flags.has_assign v cfg.c1Format.isLt]
  cases fmt <;> simp [DataFormat.bit]

theorem ctrl2Gain_withGain {cfg : Cfg} (h : cfg.wf = true) (v : Ctrl) (g : Option Gain) :
    ctrl2Gain cfg (withGain cfg v g) = g := by
  have hpgaen := cfg.c2Pgaen.isLt
  cases g with
  | none => simp [ctrl2Gain, withGain_none_eq, Flags.has_assign v hpgaen]
  | some g =>
    have hfield : cfg.c2PgagLsb.val + 3 ≤ 8 := by omega
    rw [ctrl2Gain, withGain_some_eq, Flags.has_put_of_outside _ hpgaen (pgaen_outside_of_wf h),
      Flags.has_assign v hpgaen, if_pos rfl, Flags.get_put _ _ _ hfield, gainOfCode_code]

/-- The three codes are different, so each is read back as its kind (R129). -/
theorem calKindOfCode_code {cfg : Cfg} (h : cfg.wf = true) (k : CalKind) : calKindOfCode cfg (k.code cfg) = some k := by
  have hcodes := calCodes_nodup_of_wf h
  simp only [List.nodup_cons, List.mem_cons, List.not_mem_nil, or_false, not_or] at hcodes
  obtain ⟨⟨hoffset, hfull⟩, hne, -⟩ := hcodes
  cases k with
  | selfCal => exact if_pos rfl
  | systemOffset => simp [calKindOfCode, CalKind.code, Ne.symm hoffset]
  | systemFullScale => simp [calKindOfCode, CalKind.code, Ne.symm hfull, Ne.symm hne]

theorem ctrl5Cal_withCal (cfg : Cfg) (v : Ctrl) (k : CalKind) : ctrl5Cal cfg (withCal cfg v k) = k.code cfg :=
  Flags.get_put v _ _ (by omega)

theorem ctrl1Power_withPower {cfg : Cfg} (h : cfg.wf = true) (v : Ctrl) (m : Mode) :
    ctrl1Power cfg (withPower cfg v m) = (decide (m = .standby), decide (m = .sleep)) := by
  rw [ctrl1Power, withPower_eq_assign, Flags.has_assign _ cfg.c1Pd1.isLt,
    Flags.has_assign_of_ne _ cfg.c1Pd0.isLt (powerBits_ne_of_wf h), Flags.has_assign v cfg.c1Pd0.isLt]

/-- Settles O13: each accessor reads the bit or the field its setting function drove, and the codes are inverse. -/
theorem accessorsReadBackSettings : Obligations.AccessorsReadBackSettings := by
  intro cfg v hcfg
  have hpower := ctrl1Power_withPower hcfg v
  refine ⟨ctrl1Clock_withClock cfg v, ctrl1Format_withFormat cfg v, ctrl2Gain_withGain hcfg v, fun k => ?_,
    hpower .standby, hpower .sleep, hpower .conversion⟩
  rw [ctrl5Cal_withCal, calKindOfCode_code hcfg]

/-- Settles O14: `has` reads one bit, and the rate table inverts the codes. -/
theorem statusFlagsAndRateReadTheirBits : Obligations.StatusFlagsAndRateReadTheirBits := by
  intro cfg s
  have hrate := statRate_eq cfg s
  exact ⟨Flags.has_eq_getLsbD s _, Flags.has_eq_getLsbD s _, Flags.has_eq_getLsbD s _, Flags.has_eq_getLsbD s _,
    Flags.has_eq_getLsbD s _, Flags.has_eq_getLsbD s _, hrate, by rw [hrate, code_rateOfCode]⟩

end Sys2Proof
end

section
/-! Register codecs, part 2 (spec/42_register_codecs.md R117, R118): the 24-bit registers as the reads answer them, and
the host's evaluation of the power-state field. -/

namespace Sys2Proof

/-- The common decode of the 24-bit registers takes the three low bytes of the value read (R85, R117). -/
theorem decode24_setWidth (w : BitVec 32) : decode24 (w.setWidth (8 * 3)) = Value24.fromU32 w := by
  simp [decode24, Value24.fromBe, Value24.fromU32, BitVec.extractLsb'_setWidth_of_le]

/-- The three bytes of a 24-bit register are decoded as they came (R80, R117). -/
theorem decode24_beValue_toBe (v : Value24) : decode24 ((beValue v.toBe).setWidth (8 * 3)) = v := by
  rw [decode24_setWidth, ← Value24.toU32_eq_beValue_toBe, Value24.fromU32_toU32]

/-- The unsigned widening puts zeros before the three bytes (R82). -/
theorem Value24.toU32_eq_append (v : Value24) : v.toU32 = 0#8 ++ v.b0 ++ v.b1 ++ v.b2 := by
  apply BitVec.eq_of_toNat_eq
  rw [toNat_toU32, toNat_append_byte, toNat_append_byte, toNat_append_byte, BitVec.toNat_zero]
  omega

end Sys2Proof

namespace Sys2Proof.Machine

/-- A read of a 24-bit register is one exchange, answered with the bytes after the echo (R155 to R159). -/
theorem Answers.answer_read24Body {s : State} {w : Received} {rest : List (Answer Received)}
    (h : Answers s (.ok w :: rest)) {k : RegCodec 3 Value24} (hk : k.decode = decode24) :
    answer (read24Body k s) = { s with
      script := rest, calls := s.calls + 1,
      log := s.log ++ [.x [rdByte k.addr, 0, 0, 0] (.ok [w.r0, w.r1, w.r2, w.r3])],
      responses := s.responses ++ [.ok (.word (0#8 ++ w.r1 ++ w.r2 ++ w.r3))], op := Transient.idle } := by
  have hvalue : (decode24 ((beValue (Value24.fromBe w.r1 w.r2 w.r3).toBe).setWidth (8 * 3))).toU32 =
      0#8 ++ w.r1 ++ w.r2 ++ w.r3 := by
    rw [decode24_beValue_toBe, Value24.toU32_eq_append]
    rfl
  rw [read24Body, readCodec, h.regRead_ok k.addr (n := 3) rfl, frameRd_eq, hk, ← hvalue]
  rfl

/-- Outside `Conversion` each of the four calibration reads runs as the read of its own register (R155 to R158). -/
theorem Serving.exec_calibrationRead {s : State} {i : Instr} {a : Addr} (hs : Serving s) (hm : s.mode ≠ .conversion)
    (hi : (i, a) ∈ [(Instr.readSoc, s.cfg.aSoc), (Instr.readSgc, s.cfg.aSgc), (Instr.readScoc, s.cfg.aScoc),
      (Instr.readScgc, s.cfg.aScgc)]) :
    ∃ k : RegCodec 3 Value24, k.addr = a ∧ k.decode = decode24 ∧ exec i s = .next (answer (read24Body k s)) := by
  have hlegal : (s.mode != .conversion) = true := bne_iff_ne.mpr hm
  simp only [List.mem_cons, Prod.mk.injEq, List.not_mem_nil, or_false] at hi
  obtain ⟨rfl, rfl⟩ | ⟨rfl, rfl⟩ | ⟨rfl, rfl⟩ | ⟨rfl, rfl⟩ := hi
  · exact ⟨socCodec s.cfg, rfl, rfl, exec_served (i := .readSoc) hs nofun hlegal⟩
  · exact ⟨sgcCodec s.cfg, rfl, rfl, exec_served (i := .readSgc) hs nofun hlegal⟩
  · exact ⟨scocCodec s.cfg, rfl, rfl, exec_served (i := .readScoc) hs nofun hlegal⟩
  · exact ⟨scgcCodec s.cfg, rfl, rfl, exec_served (i := .readScgc) hs nofun hlegal⟩

/-- Settles O40: the four reads are one read with its own register, whose value is widened with zeros. -/
theorem calibrationReadResult : Obligations.CalibrationReadResult := by
  intro s i a w rest hi hs hm h
  obtain ⟨k, rfl, hk, hexec⟩ := hs.exec_calibrationRead hm hi
  rw [hexec, h.answer_read24Body hk]

/-! The evaluation of `STAT.STATE`. -/

theorem evalState_of_some {s : State} {v : StatusView} {p : PowerState} (h : statState s.cfg v = some p) :
    evalState v s = respond (.ok (.power p)) s := by
  rw [evalState, h]

/-- The reserved code is recorded and answered in every state, and latched in a live one that holds no fault (R169,
R171). -/
theorem evalState_of_none {s : State} {v : StatusView} (h : statState s.cfg v = none) :
    evalState v s = { s with
      responses := s.responses ++ [.faulted .reservedPowerState], causes := s.causes ++ [.reservedPowerState v],
      op := Transient.idle,
      fault := if s.alive = true ∧ s.fault = none then some .reservedPowerState else s.fault } := by
  rw [evalState, h]
  cases ha : s.alive with
  | false => simp [respond, recordCause, ha]
  | true => cases hf : s.fault <;> simp [raiseFault, respond, recordCause, ha, hf]

/-- A step that evaluates the field runs the evaluation alone: it passes no entry check (R171). -/
theorem step_evalState {s : State} {v : StatusView} {rest : List Request} (hw : s.cfg.wf = true)
    (hh : s.hangAfter = none) (hp : s.pending = .evalState v :: rest) :
    step s = .next (evalState v { s with pending := rest }) := by
  rw [step_cons hp, runRequest_error (s := { s with pending := rest }) rfl rfl]
  exact accept_eq hw hh

/-- Settles O28: the field has a value or its code is the reserved one, and the evaluation has a case for each. -/
theorem evaluatingReservedCodeFaults : Obligations.EvaluatingReservedCodeFaults := by
  intro s v rest hw hh hp
  rw [step_evalState hw hh hp]
  constructor
  · intro p hvalue
    rw [evalState_of_some (s := { s with pending := rest }) hvalue]
    rfl
  · intro hcode
    obtain ⟨-, -, -, hreserved⟩ := powerStateFieldDecodes s.cfg v
    rw [evalState_of_none (s := { s with pending := rest }) (hreserved.mpr hcode)]

end Sys2Proof.Machine
end

section
/-! Bus transactions, part 1 (spec/43_bus_transactions.md R139 to R142): what the transactions answer. A command is one
call in every environment, a register transaction of a bad width makes none, and the read-modify-write makes its second
call only for a value that differs. -/

namespace Sys2Proof.Machine

/-! One command (R139). -/

theorem tWrite_of_ok {bs : List Byte} {s : State} {w : Received} (h : callResult (.write bs) s = .ok w) :
    tWrite bs s = (issue (.write bs) (.w bs (.ok ())) s, .ok ()) := by
  rw [tWrite, h]

theorem tWrite_of_err {bs : List Byte} {s : State} {e : TransportError} (h : callResult (.write bs) s = .err e) :
    tWrite bs s = (issue (.write bs) (.w bs (.err e)) s, .err e) := by
  rw [tWrite, h]

/-- Settles O32: the frame is the command byte alone, and both results of its one call are passed on. -/
theorem commandSendIsOneFrame : Obligations.CommandSendIsOneFrame := by
  intro c s
  obtain ⟨r, hr⟩ := cmdSend_ran c s
  refine ⟨fun w hw => ?_, fun e he => ?_, hr.calls, hr.quiet, hr.now⟩
  · rw [cmdSend, frameCmd, tWrite_of_ok hw]
    exact ⟨rfl, rfl⟩
  · rw [cmdSend, frameCmd, tWrite_of_err he]
    exact ⟨rfl, rfl⟩

/-! A bad width (R140, R141). -/

theorem validWidth_eq_false_iff {n : Nat} : validWidth n = false ↔ n = 0 ∨ 4 < n := by
  rw [← Bool.not_eq_true, validWidth_iff]
  omega

theorem readBody_of_badWidth (a : Addr) {n : Nat} (hn : validWidth n = false) (s : State) :
    readBody a n s = (s, .refuse (.frame (frameRd a n))) := by
  rw [readBody, regRead, if_pos hn]
  rfl

theorem writeBody_of_badWidth (a : Addr) {n : Nat} (hn : validWidth n = false) (v : BitVec 32) (s : State) :
    writeBody a n v s = (s, .refuse (.frame (frameWr a n v))) := by
  rw [writeBody, regWrite, if_pos hn]
  rfl

/-- Settles O25: both bodies are refused before their call, and the frame asked for is recorded. -/
theorem badWidthIsRefused : Obligations.BadWidthIsRefused := by
  intro s a n v hs hn
  have hw := validWidth_eq_false_iff.mpr hn
  rw [hs.exec_rreg, hs.exec_wreg, readBody_of_badWidth a hw, writeBody_of_badWidth a hw, frameRd_eq, frameWr_eq]
  exact ⟨rfl, rfl⟩

/-! The read-modify-write (R142). -/

/-- Settles O46: the read decides between four paths by its result, the function's value and the write's result. -/
theorem updateWritesOnlyOnChange : Obligations.UpdateWritesOnlyOnChange := by
  intro a f s rx w e rest
  refine ⟨fun h => ?_, fun h hsame => ?_, fun h hchanged => ?_, fun h hchanged => ?_⟩
  · rw [h.regUpdate_readErr, frameRd_eq]
    exact ⟨rfl, rfl⟩
  · rw [h.regUpdate_same a hsame, frameRd_eq]
    exact ⟨rfl, rfl⟩
  · rw [h.regUpdate_changed a hchanged, frameRd_eq, frameWr_byte]
    exact ⟨rfl, rfl⟩
  · rw [h.regUpdate_writeErr a hchanged, frameRd_eq, frameWr_byte]
    exact ⟨rfl, rfl⟩

end Sys2Proof.Machine
end

section
/-! Bus transactions, part 2 (spec/43_bus_transactions.md R142, spec/44_mode_machine.md R151 to R154): the settings and
the calibration, which are a read-modify-write of one control register with a function of their own. -/

namespace Sys2Proof

/-! Applying a setting function twice is applying it once. -/

/-- The function drives each bit to a fixed value or keeps it, as the setting functions of R108 to R116 do. -/
def DrivesOrKeepsBits (f : Byte → Byte) : Prop :=
  ∀ j < 8, (∃ b, ∀ v, (f v).getLsbD j = b) ∨ ∀ v, (f v).getLsbD j = v.getLsbD j

theorem DrivesOrKeepsBits.apply_apply {f : Byte → Byte} (h : DrivesOrKeepsBits f) (v : Byte) : f (f v) = f v := by
  apply BitVec.eq_of_getLsbD_eq
  intro j hj
  obtain ⟨b, hb⟩ | hkeep := h j hj
  · rw [hb, hb]
  · exact hkeep (f v)

theorem drivesOrKeepsBits_assign (i : Nat) (b : Bool) : DrivesOrKeepsBits (Flags.assign · i b) := by
  intro j hj
  simp only [Flags.getLsbD_assign _ _ _ _ hj]
  split
  · exact .inl ⟨b, fun _ => rfl⟩
  · exact .inr fun _ => rfl

theorem drivesOrKeepsBits_put {k : Nat} (lsb : Nat) (x : BitVec k) : DrivesOrKeepsBits (Flags.put · lsb x) := by
  intro j hj
  simp only [Flags.getLsbD_put _ _ _ _ hj]
  split
  · exact .inl ⟨_, fun _ => rfl⟩
  · exact .inr fun _ => rfl

theorem DrivesOrKeepsBits.comp {f g : Byte → Byte} (hg : DrivesOrKeepsBits g) (hf : DrivesOrKeepsBits f) :
    DrivesOrKeepsBits fun v => g (f v) := by
  intro j hj
  obtain ⟨b, hb⟩ | hkeep := hg j hj
  · exact .inl ⟨b, fun v => hb (f v)⟩
  · simp only [hkeep]
    exact hf j hj

theorem drivesOrKeepsBits_withGain (cfg : Cfg) (g : Option Gain) : DrivesOrKeepsBits (withGain cfg · g) := by
  cases g with
  | none => exact drivesOrKeepsBits_assign _ false
  | some g => exact (drivesOrKeepsBits_put _ g.code).comp (drivesOrKeepsBits_assign _ true)

/-- The settle time by the kind of calibration (R154). -/
theorem CalKind.settleMs_eq (cfg : Cfg) (k : CalKind) :
    k.settleMs cfg = if k = .selfCal then cfg.tSelfMs else cfg.tSysMs := by
  cases k <;> rfl

end Sys2Proof

namespace Sys2Proof.Machine

/-! The three settings as one operation. -/

/-- The settings, each with its control register and the function it applies there (R151 to R153). -/
inductive SettingOf (cfg : Cfg) : Instr → Addr → (Byte → Byte) → Prop where
  | clock (src : ClockSource) : SettingOf cfg (.setClock src) cfg.aCtrl1 fun v => withClock cfg v src
  | format (fmt : DataFormat) : SettingOf cfg (.setFormat fmt) cfg.aCtrl1 fun v => withFormat cfg v fmt
  | gain (g : Option Gain) : SettingOf cfg (.setGain g) cfg.aCtrl2 fun v => withGain cfg v g

theorem settingOf_of_setting (cfg : Cfg) {i : Instr}
    (h : (∃ src, i = .setClock src) ∨ (∃ fmt, i = .setFormat fmt) ∨ (∃ g, i = .setGain g)) :
    ∃ a f, SettingOf cfg i a f := by
  obtain ⟨src, rfl⟩ | ⟨fmt, rfl⟩ | ⟨g, rfl⟩ := h
  · exact ⟨_, _, .clock src⟩
  · exact ⟨_, _, .format fmt⟩
  · exact ⟨_, _, .gain g⟩

theorem SettingOf.drivesOrKeepsBits {cfg : Cfg} {i : Instr} {a : Addr} {f : Byte → Byte} (h : SettingOf cfg i a f) :
    DrivesOrKeepsBits f := by
  cases h with
  | clock | format => exact drivesOrKeepsBits_assign _ _
  | gain g => exact drivesOrKeepsBits_withGain cfg g

/-- Outside `Conversion` a setting runs its one read-modify-write (R146). -/
theorem SettingOf.exec {s : State} {i : Instr} {a : Addr} {f : Byte → Byte} (h : SettingOf s.cfg i a f)
    (hs : Serving s) (hm : s.mode ≠ .conversion) : exec i s = .next (answer (settingBody a f s)) := by
  have hlegal : (s.mode != .conversion) = true := bne_iff_ne.mpr hm
  cases h with
  | clock | format | gain => exact exec_served hs nofun hlegal

/-- A setting whose update has succeeded answers an empty `Ok` and does nothing else (R151). -/
theorem answer_settingBody {s t : State} {a : Addr} {f : Byte → Byte} (hu : regUpdate a f s = (t, .ok ())) :
    answer (settingBody a f s) = respond (.ok .empty) t := by
  rw [settingBody, hu]
  rfl

/-- Settles O38: a setting answers by whether its function changes the byte read. -/
theorem settingResult : Obligations.SettingResult := by
  intro s i a f rx w1 rest hi hs hm
  have hset : SettingOf s.cfg i a f := by
    obtain ⟨src, rfl, rfl, rfl⟩ | ⟨fmt, rfl, rfl, rfl⟩ | ⟨g, rfl, rfl, rfl⟩ := hi
    · exact .clock src
    · exact .format fmt
    · exact .gain g
  rw [hset.exec hs hm]
  constructor
  · intro hchanged h
    rw [answer_settingBody (h.regUpdate_changed a hchanged), frameRd_eq, frameWr_byte]
    rfl
  · intro hsame h
    rw [answer_settingBody (h.regUpdate_same a hsame), frameRd_eq]
    rfl

/-! The calibration. -/

/-- Once the update has succeeded, a calibration is the command, and then the delay and an empty `Ok` (R154). -/
theorem Answers.answer_calibrateBody {s t : State} {w : Received} {rest : List (Answer Received)} {cfg : Cfg}
    {k : CalKind} (hu : regUpdate cfg.aCtrl5 (fun v => withCal cfg v k) s = (t, .ok ()))
    (h : Answers t (.ok w :: rest)) :
    answer (calibrateBody cfg k s) = { t with
      script := rest, calls := t.calls + 1, now := t.now + k.settleMs cfg,
      log := t.log ++ [.w [cfg.cmdCal] (.ok ())] ++ [.d (k.settleMs cfg)],
      responses := t.responses ++ [.ok .empty], op := Transient.idle } := by
  rw [calibrateBody, hu, tryDo_of_ok rfl, cmdSend, h.tWrite_ok]
  rfl

/-- Outside `Conversion` a calibration runs its body (R146). -/
theorem Serving.exec_calibrate {s : State} (h : Serving s) (hm : s.mode ≠ .conversion) (k : CalKind) :
    exec (.calibrate k) s = .next (answer (calibrateBody s.cfg k s)) :=
  exec_served h nofun (bne_iff_ne.mpr hm)

/-- Settles O39: after the update, with its write or without, come the command and the delay of the kind. -/
theorem calibrateResult : Obligations.CalibrateResult := by
  intro s k rx w1 w2 rest hs hm
  rw [hs.exec_calibrate hm, ← CalKind.settleMs_eq]
  constructor
  · intro hchanged h
    rw [Answers.answer_calibrateBody (h.regUpdate_changed _ hchanged) ⟨h.1, rfl⟩, frameRd_eq, frameWr_byte]
    simp [receivedBytes]
  · intro hsame h
    rw [Answers.answer_calibrateBody (h.regUpdate_same _ hsame) ⟨h.1, rfl⟩, frameRd_eq]
    simp [receivedBytes]

/-! The settings on the mock. -/

theorem BusOnly.serving {s t : State} (h : BusOnly s t) (hs : Serving s) : Serving t := by
  obtain ⟨hw, hh, ha, hf⟩ := hs
  exact ⟨by rw [h.cfg, hw], h.hangAfter.trans hh, h.alive.trans ha, h.fault.trans hf⟩

theorem BusOnly.mockReady {s t : State} (h : BusOnly s t) (hm : MockReady s) : MockReady t :=
  ⟨h.peer.trans hm.1, h.failAt.trans hm.2⟩

/-- Settles O55: the first request leaves its function's value in the register, which the second finds unchanged by the
same function. -/
theorem mockRepeatedSettingWritesNothing : Obligations.MockRepeatedSettingWritesNothing := by
  intro s u i hi hs hm hmode hu
  obtain ⟨a, f, hset⟩ := settingOf_of_setting s.cfg hi
  obtain ⟨t, ht, hq, hlow, -⟩ := hm.regUpdate_lowByte a f
  rw [hset.exec hs hmode, answer_settingBody ht] at hu
  obtain rfl : respond (.ok .empty) t = u := by simpa using hu
  have hsame : f ((t.dev.readReg a).setWidth 8) = (t.dev.readReg a).setWidth 8 := by
    rw [hlow, hset.drivesOrKeepsBits.apply_apply]
  have hm' : MockReady (respond (.ok .empty) t) := hq.mockReady hm
  have hs' : Serving (respond (.ok .empty) t) := hq.serving hs
  have hset' : SettingOf (respond (.ok .empty) t).cfg i a f := by rwa [respond_cfg, hq.cfg]
  have hmode' : (respond (.ok .empty) t).mode ≠ .conversion := by rwa [respond_mode, hq.mode]
  obtain ⟨v, hv, -, -, -, hquiet, -⟩ := hm'.regUpdate a f
  obtain ⟨hdev, sent, got, hlog⟩ := hquiet hsame
  exact ⟨respond (.ok .empty) v, sent, got, by rw [hset'.exec hs' hmode', answer_settingBody hv], hlog, hdev⟩

end Sys2Proof.Machine
end

section
/-! Bus transactions, part 3 (spec/43_bus_transactions.md R142, spec/44_mode_machine.md R163): in every environment, what
the operations built on the read-modify-write leave unchanged. -/

namespace Sys2Proof.Machine

/-! The registers. -/

/-- The computation changes no cell outside the register. -/
def StoresOnlyIn {α : Type} (a : Addr) (f : State → State × Res α) : Prop :=
  ∀ s k, ¬ inRegister a k → (f s).1.dev.readByte k = s.dev.readByte k

/-- What leaves the device alone stores nothing. -/
theorem StoresOnlyIn.of_dev {α : Type} (a : Addr) {f : State → State × Res α} (h : ∀ s, (f s).1.dev = s.dev) :
    StoresOnlyIn a f :=
  fun s _ _ => by rw [h]

theorem StoresOnlyIn.tryDo {α β : Type} {a : Addr} {f : State → State × Res α} {g : α → State → State × Res β}
    (hf : StoresOnlyIn a f) (hg : ∀ x, StoresOnlyIn a (g x)) : StoresOnlyIn a fun s => tryDo (f s) g := by
  intro s k hk
  rw [← hf s k hk]
  simp only [Machine.tryDo]
  cases (f s).2 with
  | ok x => exact hg x _ k hk
  | err e => rfl
  | refuse q => rfl

theorem regUpdate_storesOnlyIn (a : Addr) (f : Byte → Byte) : StoresOnlyIn a (regUpdate a f) :=
  fun s _ hk => regUpdate_dev a f s hk

theorem cmdSend_storesOnlyIn (a : Addr) (c : Byte) : StoresOnlyIn a (cmdSend c) :=
  .of_dev a (cmdSend_dev c)

theorem settingBody_storesOnlyIn (a : Addr) (f : Byte → Byte) : StoresOnlyIn a (settingBody a f) :=
  (regUpdate_storesOnlyIn a f).tryDo fun _ => .of_dev a fun _ => rfl

theorem transitionBody_storesOnlyIn (a : Addr) (f : Byte → Byte) (c : Byte) (m : Mode) :
    StoresOnlyIn a (transitionBody a f c m) :=
  (regUpdate_storesOnlyIn a f).tryDo fun _ => (cmdSend_storesOnlyIn a c).tryDo fun _ => .of_dev a fun _ => rfl

theorem calibrateBody_storesOnlyIn (cfg : Cfg) (k : CalKind) : StoresOnlyIn cfg.aCtrl5 (calibrateBody cfg k) :=
  (regUpdate_storesOnlyIn _ _).tryDo fun _ => (cmdSend_storesOnlyIn _ _).tryDo fun _ => .of_dev _ fun _ => rfl

/-! The block. -/

/-- An instruction that updates one control register and leaves liveness alone. -/
structure UpdatesRegister (cfg : Cfg) (i : Instr) (a : Addr) : Prop where
  notNew : i ≠ .new
  commit_alive : ∀ t, (commit i t).alive = t.alive
  stores : StoresOnlyIn a (execBody cfg i)

theorem updatesRegister_of_updating {cfg : Cfg} {i : Instr} {a : Addr}
    (h : ((i = .intoStandby ∨ i = .intoSleep ∨ (∃ r c, i = .intoConversion r c) ∨ (∃ c, i = .setClock c) ∨
          (∃ f, i = .setFormat f)) ∧ a = cfg.aCtrl1) ∨
        ((∃ g, i = .setGain g) ∧ a = cfg.aCtrl2) ∨ ((∃ k, i = .calibrate k) ∧ a = cfg.aCtrl5)) :
    UpdatesRegister cfg i a := by
  obtain ⟨rfl | rfl | ⟨r, c, rfl⟩ | ⟨c, rfl⟩ | ⟨f, rfl⟩, rfl⟩ | ⟨⟨g, rfl⟩, rfl⟩ | ⟨⟨k, rfl⟩, rfl⟩ := h
  iterate 3 exact ⟨nofun, fun _ => rfl, transitionBody_storesOnlyIn _ _ _ _⟩
  iterate 3 exact ⟨nofun, fun _ => rfl, settingBody_storesOnlyIn _ _⟩
  · exact ⟨nofun, fun _ => rfl, calibrateBody_storesOnlyIn cfg k⟩

theorem BodyRan.left_alive {i : Instr} {s t : State} {p : State × Res Payload} {es : List BusEvent}
    (h : BodyRan i s p t es) (hi : ∀ t, (commit i t).alive = t.alive) : p.1.alive = s.alive := by
  have ht : t.alive = s.alive := h.ran.quiet.alive
  obtain ⟨e, -⟩ | ⟨e, -⟩ := h.left <;> rw [e]
  · exact (hi t).trans ht
  · exact ht

/-- Only a calibration takes time (R32, R178). -/
theorem BodyRan.left_now {i : Instr} {s t : State} {p : State × Res Payload} {es : List BusEvent}
    (h : BodyRan i s p t es) : p.1.now = s.now ∨ ∃ k, i = .calibrate k := by
  by_cases hc : ∃ k, i = .calibrate k
  · exact .inr hc
  · obtain ⟨_, _, hr⟩ := h.left_ran
    have hcalls := h.still (.inr fun k hk => hc ⟨k, hk⟩)
    exact .inl (by rw [hr.now, delaysIn_calls hcalls, Nat.add_zero])

theorem TransitionTo.isTransition {i : Instr} {m : Mode} (h : TransitionTo i m) :
    i = .intoStandby ∨ i = .intoSleep ∨ ∃ r c, i = .intoConversion r c := by
  cases h with
  | standby => exact .inl rfl
  | sleep => exact .inr (.inl rfl)
  | conversion rate cont => exact .inr (.inr ⟨rate, cont, rfl⟩)

/-- Settles O49: entry writes at most the latch, through the mode gate, and a body writes its register, and of the block
the tag as a transition and the clock as a calibration. -/
theorem updatingOperationsFrame : Obligations.UpdatingOperationsFrame := by
  intro s u i a hi h
  have hup := updatesRegister_of_updating hi
  obtain ⟨-, v, hd, hv⟩ := exec_cases h
  obtain ⟨k, rfl⟩ := deliver_eq hd
  obtain ⟨hn, -⟩ | ⟨-, -, rfl⟩ | ⟨-, -, r, -, rfl⟩ | ⟨-, -, hf, hl, rfl⟩ | ⟨-, -, -, -, t, es, hb, rfl⟩ := hv
  · exact absurd hn hup.notNew
  · exact ⟨rfl, rfl, rfl, rfl, rfl, rfl, rfl, .inl rfl, .inl rfl, .inl rfl, fun _ _ => rfl⟩
  · exact ⟨rfl, rfl, rfl, rfl, rfl, rfl, rfl, .inl rfl, .inl rfl, .inl rfl, fun _ _ => rfl⟩
  · exact ⟨rfl, rfl, rfl, rfl, rfl, rfl, rfl, .inl rfl, .inl rfl, .inr ⟨hf, hl⟩, fun _ _ => rfl⟩
  · obtain ⟨_, _, hr⟩ := hb.left_ran
    have hq := hr.quiet
    have hmode := hb.left_mode.imp_right fun hto => hto.1.isTransition
    simp only [answer_cfg, answer_alive, answer_mode, answer_now, answer_pending, answer_peer, answer_failAt,
      answer_failValue, answer_failApplies, answer_fault, answer_dev]
    exact ⟨hq.cfg, hb.left_alive hup.commit_alive, hq.pending, hq.peer, hq.failAt, hq.failValue, hq.failApplies,
      hmode, hb.left_now, .inl hq.fault, hup.stores s⟩

end Sys2Proof.Machine
end

section
/-! The mode machine, part 1 (spec/44_mode_machine.md R145, R146, R161, R162): the operations that make no call. `NEW` is
told by its `OP`, `RELEASE` only writes liveness, and the mode gate takes its fault before the body. -/

namespace Sys2Proof.Machine

/-- Settles O18: the step takes the request off the port and runs `NEW`, which re-initialises. -/
theorem newIsEnteredByItsOpCode : Obligations.NewIsEnteredByItsOpCode := by
  intro s w rest hw hp hop
  rw [step_cons hp, runRequest_new ((asksNew_iff _).mpr ⟨w, rfl, hop⟩)]
  exact newReinitialisesBlock { s with pending := rest } hw

/-- Settles O31: `RELEASE` is legal in every mode, and its body clears liveness. -/
theorem releaseGivesUpTransport : Obligations.ReleaseGivesUpTransport :=
  fun _ hs => exec_served (i := .release) hs nofun rfl

theorem raiseFault_of_none (r : FaultReason) (c : CauseRecord) {s : State} (h : s.fault = none) :
    raiseFault r c s = { s with
      fault := some r, responses := s.responses ++ [.faulted r], causes := s.causes ++ [c],
      op := Transient.idle } := by
  rw [raiseFault, h]
  rfl

theorem ne_new_of_illegal {cfg : Cfg} {i : Instr} {m : Mode} (h : legalInMode cfg i m = false) : i ≠ .new := by
  rintro rfl
  cases h

/-- Settles O24: entry passes the liveness and fault checks, and the gate of every instruction is the table's; the fault
makes no call, so it is delivered whatever the transport does. -/
theorem illegalInModeLatches : Obligations.IllegalInModeLatches := by
  intro s i hw ha hf hl
  have henter : enter (instrCode s.cfg i) (fun c m => legalInMode c i m) (execBody s.cfg i) s =
      raiseFault .illegalInMode (.illegalInMode (instrCode s.cfg i) s.mode) s := by
    rw [enter, whenServing_of_live _ _ ha hf, hl]
    rfl
  rw [exec_eq_operate (ne_new_of_illegal hl), operate, accept_quiet hw (by rw [henter]; rfl) (by rw [henter]; rfl),
    henter, raiseFault_of_none _ _ hf]

end Sys2Proof.Machine
end

section
/-! The mode machine, part 2 (spec/44_mode_machine.md R159, R160): the two reads whose mode differs from that of the
calibration reads, with their transport error. -/

namespace Sys2Proof.Machine

/-- A read through a codec whose call fails is answered with the error, whatever was to follow (R143, R167). -/
theorem Answers.answer_readCodec_err {s : State} {e : TransportError} {rest : List (Answer Received)}
    (h : Answers s (.err e :: rest)) {w : Nat} {T : Type} (hw : validWidth w = true) (k : RegCodec w T)
    (f : T → State → State × Res Payload) :
    answer (tryDo (readCodec k s) f) = { s with
      script := rest, calls := s.calls + 1, log := s.log ++ [.x (rdByte k.addr :: List.replicate w 0) (.err e)],
      causes := s.causes ++ [.transportError e], responses := s.responses ++ [.err e], op := Transient.idle } := by
  rw [readCodec, h.regRead_err k.addr hw, frameRd_eq]
  rfl

/-- A status read is one exchange, answered with the two bytes after the echo (R160). -/
theorem Answers.answer_readStatusBody {s : State} {w : Received} {rest : List (Answer Received)}
    (h : Answers s (.ok w :: rest)) (cfg : Cfg) :
    answer (readStatusBody cfg s) = { s with
      script := rest, calls := s.calls + 1, log := s.log ++ [.x [rdByte cfg.aStat, 0, 0] (.ok [w.r0, w.r1, w.r2])],
      responses := s.responses ++ [.ok (.view (w.r1 ++ w.r2))], op := Transient.idle } := by
  have hview : (beValue [w.r1, w.r2]).setWidth 16 = w.r1 ++ w.r2 := by
    rw [beValue_two, BitVec.setWidth_setWidth_of_le _ (by decide), BitVec.setWidth_eq]
  rw [readStatusBody, readCodec, h.regRead_ok _ (n := 2) rfl, frameRd_eq, ← hview]
  rfl

/-- In `Conversion`, `READ_DATA` runs as the read of `DATA` (R146, R159). -/
theorem Serving.exec_readData {s : State} (h : Serving s) (hm : s.mode = .conversion) :
    exec .readData s = .next (answer (read24Body (dataCodec s.cfg) s)) :=
  exec_served h nofun (beq_iff_eq.mpr hm)

/-- In every mode, `READ_STATUS` runs as the read of `STAT` (R146, R160). -/
theorem Serving.exec_readStatus {s : State} (h : Serving s) :
    exec .readStatus s = .next (answer (readStatusBody s.cfg s)) :=
  exec_served h nofun rfl

/-- Settles O41: the read of `DATA` by its one answer, and the gate's fault where the mode is another. -/
theorem readDataResult : Obligations.ReadDataResult := by
  intro s w e rest hs
  refine ⟨fun hm h => ?_, fun hm h => ?_, fun hm => ?_⟩
  · rw [hs.exec_readData hm, h.answer_read24Body rfl]
    rfl
  · rw [hs.exec_readData hm, read24Body, h.answer_readCodec_err rfl]
    rfl
  · obtain ⟨hw, -, ha, hf⟩ := hs
    exact illegalInModeLatches s .readData hw ha hf (beq_eq_false_iff_ne.mpr hm)

/-- Settles O42: the read of `STAT` by its one answer, in every mode. -/
theorem readStatusResult : Obligations.ReadStatusResult := by
  intro s w e rest hs
  rw [hs.exec_readStatus]
  refine ⟨fun h => ?_, fun h => ?_⟩
  · rw [h.answer_readStatusBody]
  · rw [readStatusBody, h.answer_readCodec_err rfl]
    rfl

end Sys2Proof.Machine
end

section
/-! The mode machine, part 3 (spec/44_mode_machine.md R148, R149): `INTO_STANDBY` and `INTO_SLEEP`, which are one
transition with a target and an `OP` code of their own, and where each of its calls can fail. -/

namespace Sys2Proof.Machine

/-! A transition that fails (R167). -/

theorem answer_transitionBody_updateErr {s t : State} {e : TransportError} {a : Addr} {f : Byte → Byte}
    (hu : regUpdate a f s = (t, .err e)) (c : Byte) (m : Mode) :
    answer (transitionBody a f c m s) = reportError e t := by
  rw [transitionBody, hu]
  rfl

/-- A command that fails after the update ends the transition before the tag (R164). -/
theorem Answers.answer_transitionBody_sendErr {s t : State} {e : TransportError} {rest : List (Answer Received)}
    {a : Addr} {f : Byte → Byte} (hu : regUpdate a f s = (t, .ok ())) (h : Answers t (.err e :: rest)) (c : Byte)
    (m : Mode) :
    answer (transitionBody a f c m s) = { t with
      script := rest, calls := t.calls + 1, log := t.log ++ [.w [c] (.err e)],
      causes := t.causes ++ [.transportError e], responses := t.responses ++ [.err e], op := Transient.idle } := by
  rw [transitionBody, hu, tryDo_of_ok rfl, cmdSend, h.tWrite_err]
  rfl

/-! The two operations as one. -/

/-- The transitions that send the power-down command, each with its target and its `OP` code (R73, R148, R149). -/
inductive PowerDownTo : Instr → Mode → Byte → Prop where
  | standby : PowerDownTo .intoStandby .standby 0x10
  | sleep : PowerDownTo .intoSleep .sleep 0x11

section
variable {i : Instr} {m : Mode} {c : Byte}

theorem powerDownTo_of_mem
    (h : (i, m, c) ∈ [(Instr.intoStandby, Mode.standby, 0x10), (Instr.intoSleep, Mode.sleep, 0x11)]) :
    PowerDownTo i m c := by
  simp only [List.mem_cons, Prod.mk.injEq, List.not_mem_nil, or_false] at h
  obtain ⟨rfl, rfl, rfl⟩ | ⟨rfl, rfl, rfl⟩ := h
  · exact .standby
  · exact .sleep

theorem PowerDownTo.legalInMode_eq (h : PowerDownTo i m c) (cfg : Cfg) (mode : Mode) :
    legalInMode cfg i mode = (mode != .conversion || cfg.allowConvExit) := by
  cases h <;> rfl

theorem PowerDownTo.instrCode_eq (h : PowerDownTo i m c) (cfg : Cfg) : instrCode cfg i = c := by
  cases h <;> rfl

/-- Where it is legal, it is the transition with the power-down command (R146). -/
theorem PowerDownTo.exec {s : State} (h : PowerDownTo i m c) (hs : Serving s)
    (hl : s.mode ≠ .conversion ∨ s.cfg.allowConvExit = true) :
    exec i s = .next (answer (transitionBody s.cfg.aCtrl1 (fun v => withPower s.cfg v m) s.cfg.cmdPd m s)) := by
  have hlegal : legalInMode s.cfg i s.mode = true := by simpa [h.legalInMode_eq] using hl
  cases h with
  | standby | sleep => exact exec_served hs nofun hlegal

/-- In `Conversion` without the exit allowed, it takes the gate's fault under its own code (R146, R172). -/
theorem PowerDownTo.exec_illegal {s : State} (h : PowerDownTo i m c) (hs : Serving s) (hm : s.mode = .conversion)
    (hexit : s.cfg.allowConvExit = false) :
    Machine.exec i s = .next { s with
      fault := some .illegalInMode, causes := s.causes ++ [.illegalInMode c .conversion],
      responses := s.responses ++ [.faulted .illegalInMode], op := Transient.idle } := by
  obtain ⟨hw, -, ha, hf⟩ := hs
  have hillegal : legalInMode s.cfg i s.mode = false := by simp [h.legalInMode_eq, hm, hexit]
  rw [illegalInModeLatches s i hw ha hf hillegal, h.instrCode_eq, hm]

end

/-- Settles O36: the gate, and then the paths of the update by whether it writes and of the command, each with the call
that fails. -/
theorem intoStandbyAndSleepResult : Obligations.IntoStandbyAndSleepResult := by
  intro s i m c rx w1 w2 e rest hi hs
  have hto := powerDownTo_of_mem hi
  refine ⟨hto.exec_illegal hs, fun hl => ?_⟩
  rw [hto.exec hs hl]
  refine ⟨fun hchanged h => ?_, fun hsame h => ?_, fun h => ?_, fun hchanged h => ?_, fun hchanged h => ?_,
    fun hsame h => ?_⟩
  · rw [h.answer_transitionBody_changed _ hchanged]
  · rw [h.answer_transitionBody_same _ hsame]
  · rw [answer_transitionBody_updateErr (h.regUpdate_readErr _ _), frameRd_eq]
    rfl
  · rw [answer_transitionBody_updateErr (h.regUpdate_writeErr _ hchanged), frameRd_eq, frameWr_byte]
    rfl
  · rw [Answers.answer_transitionBody_sendErr (h.regUpdate_changed _ hchanged) ⟨h.1, rfl⟩, frameRd_eq, frameWr_byte]
    simp [receivedBytes]
  · rw [Answers.answer_transitionBody_sendErr (h.regUpdate_same _ hsame) ⟨h.1, rfl⟩, frameRd_eq]
    simp [receivedBytes]

end Sys2Proof.Machine
end

section
/-! The mode machine, part 4 (spec/44_mode_machine.md R154): in every environment, the events of a calibration that
answers `Ok`. -/

namespace Sys2Proof.Machine

/-- A command that answers `Ok` is one write that succeeded (R139, R57). -/
theorem cmdSend_ran_of_ok {c : Byte} {s : State} {x : Unit} (h : (cmdSend c s).2 = .ok x) :
    Ran s (cmdSend c s) [.w [c] (.ok ())] := by
  obtain ⟨r, hr⟩ := cmdSend_ran c s
  have hsucceeded := hr.ok x h _ (List.mem_singleton_self _)
  cases r with
  | ok => exact hr
  | err => cases hsucceeded

/-- A calibration body that ends with `Ok` is calls, of which the command is the last, and then the delay (R154). -/
theorem calibrateBody_ran_of_ok {cfg : Cfg} {k : CalKind} {s : State} {x : Payload}
    (h : (calibrateBody cfg k s).2 = .ok x) :
    ∃ es, es.all BusEvent.isCall = true ∧
      Ran s (calibrateBody cfg k s) (es ++ [.w [cfg.cmdCal] (.ok ()), .d (k.settleMs cfg)]) := by
  obtain ⟨_, hupdate, h⟩ := tryDo_ok h
  obtain ⟨_, hsend, -⟩ := tryDo_ok h
  obtain ⟨es, hes, -, -, hcalls⟩ := regUpdate_calls cfg.aCtrl5 (fun v => withCal cfg v k) s
  exact ⟨es, hcalls, hes.tryDo_ok hupdate ((cmdSend_ran_of_ok hsend).tryDo_ok hsend (delay_ran _ _ _))⟩

/-- Settles O47: entry does not answer `Ok`, so the body did, and its last two events are the command and the delay, the
only one. -/
theorem calibrateOkWaitsSettleTime : Obligations.CalibrateOkWaitsSettleTime := by
  intro s u k h hr
  rw [← CalKind.settleMs_eq]
  obtain ⟨-, v, hd, hv⟩ := exec_cases h
  obtain ⟨n, rfl⟩ := deliver_eq hd
  obtain ⟨hn, -⟩ | ⟨-, -, rfl⟩ | ⟨-, -, r, -, rfl⟩ | ⟨-, -, -, -, rfl⟩ | ⟨-, -, -, -, t, es, hb, rfl⟩ := hv
  · cases hn
  · simp at hr
  · simp at hr
  · simp at hr
  · obtain ⟨_, _, hran⟩ := hb.left_ran
    obtain ⟨pre, hcalls, hbody⟩ := calibrateBody_ran_of_ok (ok_of_answer_responses hran.quiet.responses hr)
    refine ⟨?_, pre, (answer_log _).trans hbody.log⟩
    calc (answer (calibrateBody s.cfg k s)).now
        = s.now + delaysIn (pre ++ [.w [s.cfg.cmdCal] (.ok ()), .d (k.settleMs s.cfg)]) :=
          (answer_now _).trans hbody.now
      _ = s.now + k.settleMs s.cfg := by rw [delaysIn_append, delaysIn_calls hcalls, Nat.zero_add]; rfl

end Sys2Proof.Machine
end

section
/-! A transport error (spec/60_exceptions.md R167): in every environment, an operation that answers `Err` ended with its
failed call. -/

namespace Sys2Proof.Machine

/-- An event has one result (R57): what failed did not succeed, and failed with no other error. -/
theorem result_of_failedWith {ev : BusEvent} {x : TransportError} (h : ev.failedWith x = true) :
    ev.succeeded = false ∧ ∀ e, ev.failedWith e = true → x = e := by
  rcases ev with ⟨bs, _ | y⟩ | ⟨bs, _ | y⟩ | ms
  case w.err | x.err =>
    have hx : y = x := eq_of_beq h
    exact ⟨rfl, fun e he => hx.symm.trans (eq_of_beq he)⟩
  all_goals cases h

theorem failedWith_eq_false_of_succeeded {ev : BusEvent} {e : TransportError} (h : ev.succeeded = true) :
    ev.failedWith e = false := by
  by_contra hf
  obtain ⟨hs, -⟩ := result_of_failedWith (Bool.eq_true_of_not_eq_false hf)
  exact Bool.false_ne_true (hs.symm.trans h)

/-- A computation ends with the error of its failed call (R11, R167). -/
theorem Ran.failed_iff {α : Type} {s : State} {p : State × Res α} {es : List BusEvent} (h : Ran s p es)
    (e : TransportError) : (∃ ev ∈ es, ev.failedWith e = true) ↔ p.2 = .err e := by
  have hnone : (∀ ev ∈ es, ev.succeeded = true) → ¬ ∃ ev ∈ es, ev.failedWith e = true := by
    rintro hs ⟨ev, hev, hf⟩
    exact Bool.false_ne_true ((failedWith_eq_false_of_succeeded (hs ev hev)).symm.trans hf)
  cases hp : p.2 with
  | ok a => exact iff_of_false (hnone (h.ok a hp)) nofun
  | refuse q => exact iff_of_false (hnone (h.refuse q hp)) nofun
  | err x =>
    obtain ⟨es0, last, rfl, h0, hlast⟩ := h.err x hp
    obtain ⟨-, hx⟩ := result_of_failedWith hlast
    constructor
    · rintro ⟨ev, hev, hf⟩
      obtain hev | rfl := by simpa using hev
      · exact absurd hf (by rw [failedWith_eq_false_of_succeeded (h0 ev hev)]; decide)
      · rw [hx e hf]
    · rintro ⟨⟩
      exact ⟨last, by simp, hlast⟩

/-- A body is reported as an error exactly when it ended with that error (R167). -/
theorem answer_responses_err_iff (p : State × Res Payload) (e : TransportError) :
    (answer p).responses = p.1.responses ++ [.err e] ↔ p.2 = .err e := by
  obtain ⟨s, x | e' | q⟩ := p <;> simp [answer]

theorem answer_of_err {p : State × Res Payload} {e : TransportError} (h : p.2 = .err e) :
    answer p = reportError e p.1 := by
  simp [answer, h]

/-- A body that ended with an error stopped at the failing call, and left the block as its calls did, which is as it was
(R167). -/
theorem BodyRan.stops_at_error {i : Instr} {s t : State} {p : State × Res Payload} {es : List BusEvent}
    (h : BodyRan i s p t es) {e : TransportError} (he : p.2 = .err e) :
    BusOnly s p.1 ∧ p.1.now = s.now ∧ ∃ es0 last, es = es0 ++ [last] ∧ last.failedWith e = true ∧
      ∀ ev ∈ es0, ev.isCall = true ∧ ev.succeeded = true := by
  have hn : ∀ x, p.2 ≠ .ok x := by simp [he]
  have hcalls : es.all BusEvent.isCall = true := h.still (.inl hn)
  obtain ⟨es0, last, hes, h0, hlast⟩ := h.ran.err e he
  rw [h.stopped hn]
  refine ⟨h.ran.quiet, by rw [h.ran.now, delaysIn_calls hcalls, Nat.add_zero], es0, last, hes, hlast, fun ev hev => ?_⟩
  exact ⟨List.all_eq_true.mp hcalls ev (by simp [hes, hev]), h0 ev hev⟩

/-- Settles O44: `NEW` and what is turned away at entry make no call and do not answer `Err`; a body answers `Err` when
it ended with the error, which is when a call of it failed. -/
theorem transportErrorKeepsBlockState : Obligations.TransportErrorKeepsBlockState := by
  intro s u i e h
  obtain ⟨-, v, hd, hv⟩ := exec_cases h
  obtain ⟨k, rfl⟩ := deliver_eq hd
  obtain ⟨-, rfl⟩ | ⟨-, -, rfl⟩ | ⟨-, -, r, -, rfl⟩ | ⟨-, -, -, -, rfl⟩ | ⟨-, -, -, -, t, es, hb, rfl⟩ := hv
  · exact ⟨[], by simp⟩
  · exact ⟨[], by simp⟩
  · exact ⟨[], by simp⟩
  · exact ⟨[], by simp⟩
  · obtain ⟨_, _, hran⟩ := hb.left_ran
    have hanswer : (answer (execBody s.cfg i s)).responses = s.responses ++ [.err e] ↔
        (execBody s.cfg i s).2 = .err e := by
      rw [← answer_responses_err_iff, hran.quiet.responses]
    refine ⟨es, (answer_log _).trans hran.log, (hran.failed_iff e).trans hanswer.symm, fun hr => ?_⟩
    have he := hanswer.mp hr
    obtain ⟨hq, hnow, hstop⟩ := hb.stops_at_error he
    have hcauses : (answer (execBody s.cfg i s)).causes = s.causes ++ [.transportError e] := by
      rw [answer_of_err he, reportError_causes, hq.causes]
    exact ⟨(answer_alive _).trans hq.alive, (answer_mode _).trans hq.mode, (answer_fault _).trans hq.fault,
      (answer_now _).trans hnow, hcauses, hstop⟩

end Sys2Proof.Machine
end
